-- ==== Sys2Proof/Word.lean ====
section
/-! DEFINITION. The word types of RNDX and the two channels. Widths are those of 10_state.md. -/

namespace Sys2Proof

/-- An element of `IBUF` or `OBUF` (20_memory.md R80). -/
abbrev Byte := BitVec 8

/-- A raw word, a word of the secure matrix, or a command word (`u32`, 00_scope.md R8). -/
abbrev W32 := BitVec 32

/-- A register, a `BUF` cell, or a `u64` (00_scope.md R8). -/
abbrev W64 := BitVec 64

/-- An IEEE 754 binary64 held as its bit pattern (00_scope.md R11). -/
abbrev F64 := BitVec 64

/-- The two channels (10_state.md R40): `F` with the fast engine, `S` with the secure engine. -/
inductive Chan
  | F
  | S
deriving DecidableEq, Repr

end Sys2Proof
end

