-- ==== Sys2Proof/Machine/Arith.lean ====
section
/-! DEFINITION. The integer primitives of 00_scope.md R8 and R9. -/

namespace Sys2Proof.Machine

/-- `zext_64(w)` (00_scope.md R8). -/
def zext64 (w : W32) : W64 := w.setWidth 64

/-- `sext_64(w)` (00_scope.md R8). -/
def sext64 (w : W32) : W64 := w.signExtend 64

/-- `as_i32(w)` (00_scope.md R8). -/
def asI32 (w : W32) : Int := w.toInt

/-- `as_u32(v) = v mod 2^32` (00_scope.md R8). -/
def asU32 (v : Int) : W32 := BitVec.ofInt 32 v

/-- `A[31:0]` of a register or cell (00_scope.md R8). -/
def low32 (a : W64) : W32 := a.extractLsb' 0 32

/-- `v[63:32]` (00_scope.md R8). -/
def high32 (a : W64) : W32 := a.extractLsb' 32 32

/-- `{hi, lo}` (00_scope.md R8). -/
def concat32 (hi lo : W32) : W64 := hi ++ lo

/-- `mul32x32(a, b)`, exact in 64 bits (00_scope.md R9). -/
def mul32x32 (a b : W32) : W64 := zext64 a * zext64 b

/-- `neg32(b) = (2^32 - b) mod 2^32` (00_scope.md R9). -/
def neg32 (b : W32) : W32 := -b

/-- `neg32(bound) umod bound`, which is `2^32 mod bound` for `bound != 0` (40_bounded_sampler.md R122). -/
def rejectThreshold (bound : W32) : W32 := neg32 bound % bound

/-- `ror32(v, n)` (00_scope.md R9), `n` taken modulo 32 (log 11). -/
def ror32 (v : W32) (n : Nat) : W32 := v.rotateRight n

/-- `rotl32(v, n)` (00_scope.md R9). -/
def rotl32 (v : W32) (n : Nat) : W32 := v.rotateLeft n

/-- Byte `j` of a word, `w[8j+7 : 8j]`: least significant byte first (20_memory.md R84). -/
def byteOf (w : W32) (j : Nat) : Byte := w.extractLsb' (8 * j) 8

/-- The four bytes of a word in stream order (20_memory.md R84, 42_secure_engine.md R173). -/
def wordBytes (w : W32) : List Byte := [byteOf w 0, byteOf w 1, byteOf w 2, byteOf w 3]

end Sys2Proof.Machine
end

