-- ==== Sys2Proof/Syntax.lean ====
section
/-! DEFINITION. The 29 commands of 30_encoding.md R102, one constructor per row of the opcode table.
A command word has no operand field (R101). What the line `<channel>.<MNEMONIC>` of R107 says beside the
operation is the channel whose `CMD` register the word is written to, so each constructor carries it. -/

namespace Sys2Proof

/-- A command issued on a channel (30_encoding.md R102, R107). -/
inductive Instr
  | seed (c : Chan)
  | nextU32 (c : Chan)
  | nextFloat (c : Chan)
  | bounded (c : Chan)
  | zeroize (c : Chan)
  | range (c : Chan)
  | floatRange (c : Chan)
  | boolean (c : Chan)
  | booleanWeighted (c : Chan)
  | weightedIndex (c : Chan)
  | shuffle (c : Chan)
  | shuffleRange (c : Chan)
  | gaussian (c : Chan)
  | dice (c : Chan)
  | pick (c : Chan)
  | patternFormat (c : Chan)
  | randomBytes (c : Chan)
  | uuidV4 (c : Chan)
  | pointInCircle (c : Chan)
  | pointOnCircle (c : Chan)
  | pointInRect (c : Chan)
  | pointInRing (c : Chan)
  | pointInEllipse (c : Chan)
  | pointInTriangle (c : Chan)
  | pointInArc (c : Chan)
  | pointInPolygon (c : Chan)
  | pointInSphere (c : Chan)
  | pointOnSphere (c : Chan)
  | pointInBox (c : Chan)
deriving DecidableEq, Repr

end Sys2Proof
end

