-- ==== Sys2Proof/WellFormed.lean ====
section
/-! DEFINITION. Which commands are legal on which channel (30_encoding.md R103). -/

namespace Sys2Proof

/-- The channel a command is issued on. -/
def Instr.chan : Instr → Chan
  | .seed c => c
  | .nextU32 c => c
  | .nextFloat c => c
  | .bounded c => c
  | .zeroize c => c
  | .range c => c
  | .floatRange c => c
  | .boolean c => c
  | .booleanWeighted c => c
  | .weightedIndex c => c
  | .shuffle c => c
  | .shuffleRange c => c
  | .gaussian c => c
  | .dice c => c
  | .pick c => c
  | .patternFormat c => c
  | .randomBytes c => c
  | .uuidV4 c => c
  | .pointInCircle c => c
  | .pointOnCircle c => c
  | .pointInRect c => c
  | .pointInRing c => c
  | .pointInEllipse c => c
  | .pointInTriangle c => c
  | .pointInArc c => c
  | .pointInPolygon c => c
  | .pointInSphere c => c
  | .pointOnSphere c => c
  | .pointInBox c => c

/-- The three commands that exist on channel `S` only (30_encoding.md R103). -/
def Instr.secureOnly : Instr → Bool
  | .seed _ => false
  | .nextU32 _ => false
  | .nextFloat _ => false
  | .bounded _ => false
  | .zeroize _ => true
  | .range _ => false
  | .floatRange _ => false
  | .boolean _ => false
  | .booleanWeighted _ => false
  | .weightedIndex _ => false
  | .shuffle _ => false
  | .shuffleRange _ => false
  | .gaussian _ => false
  | .dice _ => false
  | .pick _ => false
  | .patternFormat _ => false
  | .randomBytes _ => true
  | .uuidV4 _ => true
  | .pointInCircle _ => false
  | .pointOnCircle _ => false
  | .pointInRect _ => false
  | .pointInRing _ => false
  | .pointInEllipse _ => false
  | .pointInTriangle _ => false
  | .pointInArc _ => false
  | .pointInPolygon _ => false
  | .pointInSphere _ => false
  | .pointOnSphere _ => false
  | .pointInBox _ => false

/-- A command is well formed when its channel is in its row's channel column (30_encoding.md R102, R103). -/
def Instr.wellFormed (i : Instr) : Bool :=
  !i.secureOnly || decide (i.chan = .S)

end Sys2Proof
end

