-- ==== Sys2Proof/Decode.lean ====
section
/-! DEFINITION. Decoding of a word written to `CMD[c]` and its encoder (30_encoding.md R100 to R104). -/

namespace Sys2Proof

/-- Why a command word is illegal: the three cases of 30_encoding.md R104. -/
inductive Illegal
  /-- `w[31:8]` is not zero. -/
  | reservedBits
  /-- `w[7:0]` is no `OPC` of R102. -/
  | unassignedOpcode
  /-- An `S`-only opcode written to `CMD[F]` (R103). -/
  | wrongChannel
deriving DecidableEq, Repr

/-- The field `OPC`, bits 7:0 (30_encoding.md R101). -/
def opcField (w : W32) : BitVec 8 := w.extractLsb' 0 8

/-- The field `RSV`, bits 31:8 (30_encoding.md R101). -/
def rsvField (w : W32) : BitVec 24 := w.extractLsb' 8 24

/-- The opcode map of 30_encoding.md R102, before the channel column is looked at. -/
def ofOpcode (c : Chan) (opc : BitVec 8) : Option Instr :=
  match opc.toNat with
  | 0x01 => some (.seed c)
  | 0x02 => some (.nextU32 c)
  | 0x03 => some (.nextFloat c)
  | 0x04 => some (.bounded c)
  | 0x05 => some (.zeroize c)
  | 0x10 => some (.range c)
  | 0x11 => some (.floatRange c)
  | 0x12 => some (.boolean c)
  | 0x13 => some (.booleanWeighted c)
  | 0x14 => some (.weightedIndex c)
  | 0x15 => some (.shuffle c)
  | 0x16 => some (.shuffleRange c)
  | 0x17 => some (.gaussian c)
  | 0x18 => some (.dice c)
  | 0x19 => some (.pick c)
  | 0x1A => some (.patternFormat c)
  | 0x1B => some (.randomBytes c)
  | 0x1C => some (.uuidV4 c)
  | 0x20 => some (.pointInCircle c)
  | 0x21 => some (.pointOnCircle c)
  | 0x22 => some (.pointInRect c)
  | 0x23 => some (.pointInRing c)
  | 0x24 => some (.pointInEllipse c)
  | 0x25 => some (.pointInTriangle c)
  | 0x26 => some (.pointInArc c)
  | 0x27 => some (.pointInPolygon c)
  | 0x28 => some (.pointInSphere c)
  | 0x29 => some (.pointOnSphere c)
  | 0x2A => some (.pointInBox c)
  | _ => none

/-- The command that the word `w` written to `CMD[c]` starts, or why it starts none
(30_encoding.md R102, R104). -/
def decode (c : Chan) (w : W32) : Except Illegal Instr :=
  if rsvField w ≠ 0 then .error .reservedBits
  else
    match ofOpcode c (opcField w) with
    | none => .error .unassignedOpcode
    | some i => if i.wellFormed then .ok i else .error .wrongChannel

/-- The `OPC` of a command's row (30_encoding.md R102). -/
def opcodeOf : Instr → BitVec 8
  | .seed _ => 0x01#8
  | .nextU32 _ => 0x02#8
  | .nextFloat _ => 0x03#8
  | .bounded _ => 0x04#8
  | .zeroize _ => 0x05#8
  | .range _ => 0x10#8
  | .floatRange _ => 0x11#8
  | .boolean _ => 0x12#8
  | .booleanWeighted _ => 0x13#8
  | .weightedIndex _ => 0x14#8
  | .shuffle _ => 0x15#8
  | .shuffleRange _ => 0x16#8
  | .gaussian _ => 0x17#8
  | .dice _ => 0x18#8
  | .pick _ => 0x19#8
  | .patternFormat _ => 0x1A#8
  | .randomBytes _ => 0x1B#8
  | .uuidV4 _ => 0x1C#8
  | .pointInCircle _ => 0x20#8
  | .pointOnCircle _ => 0x21#8
  | .pointInRect _ => 0x22#8
  | .pointInRing _ => 0x23#8
  | .pointInEllipse _ => 0x24#8
  | .pointInTriangle _ => 0x25#8
  | .pointInArc _ => 0x26#8
  | .pointInPolygon _ => 0x27#8
  | .pointInSphere _ => 0x28#8
  | .pointOnSphere _ => 0x29#8
  | .pointInBox _ => 0x2A#8

/-- Format `C`: `RSV` zero above `OPC` (30_encoding.md R101). -/
def packCommand (rsv : BitVec 24) (opc : BitVec 8) : W32 := rsv ++ opc

/-- The channel whose `CMD` register the host writes and the word it writes there
(30_encoding.md R100, R101, R107). -/
def encode (i : Instr) : Chan × W32 := (i.chan, packCommand 0 (opcodeOf i))

/-- The host's reading of an opcode-table row. The table does not say which `CMD` register the word goes
to; channel `S` is taken, on which all 29 rows are legal (30_encoding.md R103; DESIGN CHOICE, log 1). -/
def decodeTableWord (nbits w : Nat) : Option Instr :=
  match decode .S (BitVec.ofNat 32 (w % 2 ^ nbits)) with
  | .ok i => some i
  | .error _ => none

end Sys2Proof
end

