-- ==== Sys2Proof/Machine/Memory.lean ====
section
/-! DEFINITION. A memory space as plain data: (index, element) pairs with indices strictly rising. An index that is
not listed was never written; it holds no value here, and the reader supplies the free value of an unwritten element
(10_state.md R59, 93 U8; logs 3 and 4). For the byte spaces this is a list of `Host.Cell`. -/

namespace Sys2Proof.Machine

/-- A memory space whose elements are `w` bits wide (20_memory.md R80). -/
abbrev Mem (w : Nat) := List (Nat × BitVec w)

/-- Every index of the list is above `i` and they rise. -/
def Mem.risesAbove {w : Nat} (i : Nat) : Mem w → Bool
  | [] => true
  | (j, _) :: m => decide (i < j) && Mem.risesAbove j m

/-- The canonical form: indices strictly rising. -/
def Mem.wf {w : Nat} : Mem w → Bool
  | [] => true
  | (j, _) :: m => Mem.risesAbove j m

/-- Every listed index is inside a space of `n` elements (20_memory.md R80). -/
def Mem.within {w : Nat} (n : Nat) (m : Mem w) : Bool := m.all fun e => decide (e.1 < n)

/-- The element last written at `i`, none when nothing was written there. -/
def Mem.written {w : Nat} : Mem w → Nat → Option (BitVec w)
  | [], _ => none
  | (j, v) :: m, i => if i = j then some v else Mem.written m i

/-- Write the element at `i`, keeping the indices rising. -/
def Mem.write {w : Nat} : Mem w → Nat → BitVec w → Mem w
  | [], i, v => [(i, v)]
  | (j, u) :: m, i, v =>
    if i < j then (i, v) :: (j, u) :: m
    else if i = j then (i, v) :: m
    else (j, u) :: Mem.write m i v

end Sys2Proof.Machine
end

