-- ==== Sys2Proof/Config.lean ====
section
/-! DEFINITION. The configuration record `CFG` of 00_scope.md R6 with its constraints, and the free values:
opaque constants without a body, so that nothing can be proved of what they are. `CFG.NUM` holds functions and
so cannot be a field of plain data; its functions are the opaque constants `lnRaw` and the others (R14). -/

namespace Sys2Proof

/-- The configuration record `CFG` (00_scope.md R6) without `NUM` (below) and `HOSTMAP` (no rule depends on it).
`ROUNDS` and `ROT` are fixed by the spec and so are no fields. `fuel` is the model's own: how many rejected words
a bounded draw may see before the model says that its loop does not end (log 7). -/
structure Cfg where
  multiplier : W64
  seedConstant : W64
  xshA : Nat
  xshB : Nat
  rotSh : Nat
  cc : Vector W32 4
  reseedThreshold : W64
  retryCap : Nat
  maxElems : Nat
  maxVertices : Nat
  maxBytes : Nat
  gaussU1Min : F64
  upper : List Byte
  lower : List Byte
  digit : List Byte
  alnum : List Byte
  symbol : List Byte
  fuel : Nat
deriving DecidableEq, Repr

namespace Config

/-- Any value at all: `BUF[c]` cell `i` after the channel's `epoch`-th reset and before its first write
(10_state.md R59, 93 U8; log 3). -/
opaque unwrittenCell (c : Chan) (epoch i : Nat) : W64

/-- Any value at all: `IBUF[c]` byte `i` before its first write (10_state.md R59, 93 U8; log 3). -/
opaque unwrittenIn (c : Chan) (epoch i : Nat) : Byte

/-- Any value at all: `OBUF[c]` byte `i` before its first write (10_state.md R59, 93 U8; log 3). -/
opaque unwrittenOut (c : Chan) (epoch i : Nat) : Byte

/-- Any value at all: the answer of `TIME_SEED()` to the request with this number (00_scope.md R16, 93 U11; log 5). -/
opaque timeSeed (n : Nat) : W64

/-- Any answer at all, `none` for `fail`: `ENTROPY()` (00_scope.md R16, 93 U11; log 5). -/
opaque entropy (n : Nat) : Option W64

/-- Any value at all: `FALLBACK_SEED()` (00_scope.md R16, 93 U11; log 5). -/
opaque fallbackSeed (n : Nat) : W64

/-- Any value at all: `TIMESTAMP()` (00_scope.md R16, 93 U11; log 5). -/
opaque timestamp (n : Nat) : W64

/-- Any value at all: the bits of the `n`-th NaN result of channel `c`, used only where they are a NaN pattern
(00_scope.md R12, 93 U5; log 6). -/
opaque nanBits (c : Chan) (n : Nat) : F64

/-- Any value at all: what `STATUS[c].OK` (bit 0) and `ERR` (bits 4:1) read as while `BUSY = 1`, where they are
meaningless (70_reset_and_hazards.md R333; log 8). -/
opaque busyFlags (c : Chan) (n : Nat) : BitVec 5

/-- Any function at all: `CFG.NUM.fln` before property P1 is imposed (00_scope.md R14, 93 U10; log 9). -/
opaque lnRaw (x : F64) : F64

/-- Any function at all: `CFG.NUM.fcos` before property P2 is imposed (00_scope.md R14, 93 U10; log 9). -/
opaque cosRaw (x : F64) : F64

/-- Any function at all: `CFG.NUM.fsin` before property P2 is imposed (00_scope.md R14, 93 U10; log 9). -/
opaque sinRaw (x : F64) : F64

/-- Any function at all: `CFG.NUM.fcbrt` before property P3 is imposed (00_scope.md R14, 93 U10; log 9). -/
opaque cbrtRaw (x : F64) : F64

/-- Any function at all: `CFG.NUM.ffmod` where R14 does not say what it is (log 10). -/
opaque fmodRaw (x y : F64) : F64

end Config

end Sys2Proof
end

