-- ==== Sys2Proof/Machine/Reference.lean ====
section
/-! DEFINITION. The reference configuration of 00_scope.md R6 and 43_distribution.md R212. -/

namespace Sys2Proof

/-- `UPPER`, the ASCII letters 0x41 to 0x5A (43_distribution.md R212). -/
def referenceUpper : List Byte := (List.range 26).map fun k => BitVec.ofNat 8 (0x41 + k)

/-- `LOWER`, the ASCII letters 0x61 to 0x7A (43_distribution.md R212). -/
def referenceLower : List Byte := (List.range 26).map fun k => BitVec.ofNat 8 (0x61 + k)

/-- `DIGIT`, the ASCII digits 0x30 to 0x39 (43_distribution.md R212). -/
def referenceDigit : List Byte := (List.range 10).map fun k => BitVec.ofNat 8 (0x30 + k)

/-- `SYMBOL`, the 26 bytes in the order of 43_distribution.md R212, from `!` to `/`. -/
def referenceSymbol : List Byte :=
  [0x21#8, 0x40#8, 0x23#8, 0x24#8, 0x25#8, 0x5E#8, 0x26#8, 0x2A#8, 0x28#8, 0x29#8, 0x2D#8, 0x5F#8, 0x3D#8,
   0x2B#8, 0x5B#8, 0x5D#8, 0x7B#8, 0x7D#8, 0x3B#8, 0x3A#8, 0x2C#8, 0x2E#8, 0x3C#8, 0x3E#8, 0x3F#8, 0x2F#8]

/-- The reference values of 00_scope.md R6, used by every vector of 95_test_vectors.md. `fuel` is the model's own
(DESIGN CHOICE, log 7). -/
def referenceCfg : Cfg where
  multiplier := 0x5851F42D4C957F2D#64
  seedConstant := 54#64
  xshA := 18
  xshB := 27
  rotSh := 59
  cc := #v[0x61707865#32, 0x3320646E#32, 0x79622D32#32, 0x6B206574#32]
  reseedThreshold := 0x40000000#64
  retryCap := 64
  maxElems := 1024
  maxVertices := 64
  maxBytes := 256
  gaussU1Min := 0x3DF0000000000000#64
  upper := referenceUpper
  lower := referenceLower
  digit := referenceDigit
  alnum := referenceUpper ++ referenceLower ++ referenceDigit
  symbol := referenceSymbol
  fuel := 2 ^ 64

/-- The constraints of 00_scope.md R7. `GAUSS_U1_MIN` in `(0, 2^-32]` is written on bit patterns, whose order is
the order of the positive floats. -/
def Cfg.wf (k : Cfg) : Bool :=
  decide (1 ≤ k.retryCap) && decide (2 * k.maxVertices ≤ k.maxElems) && decide (3 ≤ k.maxVertices) &&
  decide (37 ≤ k.maxBytes) && decide (k.maxElems ≤ 2 ^ 31 - 1) && decide (k.maxBytes ≤ 2 ^ 31 - 1) &&
  decide (0 < k.gaussU1Min.toNat) && decide (k.gaussU1Min.toNat ≤ 0x3DF0000000000000) &&
  [k.upper, k.lower, k.digit, k.alnum, k.symbol].all fun set =>
    decide (1 ≤ set.length) && decide (set.length ≤ 2 ^ 32 - 1)

end Sys2Proof
end

