-- ==== Sys2Proof/Machine/State.lean ====
section
/-! DEFINITION. The state of RNDX (10_state.md) as plain data, the reasons a step can stop, and reset. -/

namespace Sys2Proof.Machine

/-- The three memory spaces of a channel (20_memory.md R80). -/
inductive Space
  | buf
  | ibuf
  | obuf
deriving DecidableEq, Repr

/-- Why a step stops with a fault. The spec has no fault of any kind (60_exceptions.md R300). -/
inductive Fault
  /-- A command formed an index outside a memory space, which 20_memory.md R80 says no command does. Raised by the
  commands' own memory accesses (Machine/Ops.lean); never by a host access, which is refused with a value instead
  (70_reset_and_hazards.md R333). Safe: the model stops (log 16). -/
  | indexOutside (space : Space) (index : Nat)
deriving DecidableEq, Repr

/-- Why a step is refused. -/
inductive Refusal
  /-- The instruction has no meaning in this model yet; raised by `exec` alone. No arm raises it: all 29 have one. Safe. -/
  | notModelled (mnemonic : String)
deriving DecidableEq, Repr

/-- `STATUS.ERR`, the failure category of the last completed command (60_exceptions.md R301). Codes 5 to 15 are never
produced, so they are no values of this type. -/
inductive Err
  | none
  | illegal
  | numeric
  | size
  | retry
deriving DecidableEq, Repr

/-- A request a command made of the environment, with its answer (00_scope.md R16, 60_exceptions.md R311). -/
inductive Request
  | timeSeed (answer : W64)
  | entropy (answer : Option W64)
  | fallbackSeed (answer : W64)
  | timestamp (answer : W64)
deriving DecidableEq, Repr

/-- The environment at one channel's boundary (00_scope.md R16; log 5): the answers it will give, first one first
(`none` is the answer `fail`), and the requests made so far, oldest first. -/
structure Env where
  timeSeeds : List W64
  entropies : List (Option W64)
  fallbackSeeds : List W64
  timestamps : List W64
  log : List Request
deriving DecidableEq, Repr

/-- The fast engine: `FS`, `FI`, `FSEEDED` (10_state.md R46, R47). -/
structure Fast where
  fs : W64
  fi : W64
  seeded : Bool
deriving DecidableEq, Repr

/-- The secure engine: `SM`, `BLK`, `CUR`, `BYTES`, `SSEEDED` (10_state.md R49 to R53). -/
structure Secure where
  sm : Vector W32 16
  blk : Vector W32 16
  cur : Fin 17
  bytes : W64
  seeded : Bool
deriving DecidableEq, Repr

/-- What every channel has: its registers and memories (10_state.md R41 to R44, R57). `epoch` and `frees` are the
model's own counters for free values (logs 3 and 6). -/
structure Port where
  arg : Vector W64 8
  res : Vector W64 4
  busy : Bool
  ok : Bool
  err : Err
  buf : Mem 64
  ibuf : Mem 8
  obuf : Mem 8
  epoch : Nat
  frees : Nat
deriving DecidableEq, Repr

/-- What one host access names inside a channel: a register number (20_memory.md R87) or an element of a memory. -/
inductive Loc
  | reg (number : Nat)
  | buf (index : Nat)
  | ibuf (index : Nat)
  | obuf (index : Nat)
deriving DecidableEq, Repr

/-- What the host can do (20_memory.md R83, 70_reset_and_hazards.md R330). A value narrower than 64 bits is the low
bits of `v` (log 14). -/
inductive HostAction
  | write (c : Chan) (loc : Loc) (v : W64)
  | read (c : Chan) (loc : Loc)
  | reset
deriving DecidableEq, Repr

/-- The machine. `cfg`, `host`, `readLog` and the two environments are the model's own (logs 1, 2, 5); all the rest is
the state of 10_state.md R59. -/
structure State where
  cfg : Cfg
  portF : Port
  portS : Port
  fast : Fast
  secure : Secure
  envF : Env
  envS : Env
  host : List HostAction
  readLog : List W64
deriving DecidableEq, Repr

/-- A channel's registers and memories after its `epoch`-th reset (10_state.md R59): registers 0, idle, the memories
with nothing written. `frees` is kept, so that no free value is used twice (log 6). -/
def Port.afterReset (epoch frees : Nat) : Port where
  arg := Vector.replicate 8 0#64
  res := Vector.replicate 4 0#64
  busy := false
  ok := false
  err := .none
  buf := []
  ibuf := []
  obuf := []
  epoch := epoch
  frees := frees

/-- The fast engine after reset (10_state.md R59). -/
def Fast.afterReset : Fast where
  fs := 0#64
  fi := 0#64
  seeded := false

/-- The secure engine after reset (10_state.md R59) and after `ZEROIZE` (42_secure_engine.md R174). -/
def Secure.afterReset : Secure where
  sm := Vector.replicate 16 0#32
  blk := Vector.replicate 16 0#32
  cur := 16
  bytes := 0#64
  seeded := false

/-- An environment that was asked nothing and whose answers are all left to the oracle. -/
def Env.fresh : Env where
  timeSeeds := []
  entropies := []
  fallbackSeeds := []
  timestamps := []
  log := []

/-- The machine right after reset (10_state.md R59, 70_reset_and_hazards.md R330), with the reference configuration
(log 2), a host that does nothing (log 1) and an environment left to the oracle (log 5). -/
def State.reset : State where
  cfg := referenceCfg
  portF := Port.afterReset 0 0
  portS := Port.afterReset 0 0
  fast := Fast.afterReset
  secure := Secure.afterReset
  envF := Env.fresh
  envS := Env.fresh
  host := []
  readLog := []

end Sys2Proof.Machine
end

