-- ==== Sys2Proof/Machine/Environment.lean ====
section
/-! DEFINITION. The four environment draws of 00_scope.md R16. Each takes the next answer prepared for it, or, when
there is none, the oracle's answer to the request with this number, and logs the request (log 5). -/

namespace Sys2Proof.Machine

/-- `TIME_SEED()` (00_scope.md R16). -/
def askTimeSeed (v : Env) : W64 × Env :=
  let a := v.timeSeeds.headD (Config.timeSeed v.log.length)
  (a, { v with timeSeeds := v.timeSeeds.tail, log := v.log ++ [.timeSeed a] })

/-- `ENTROPY()`, `none` for `fail` (00_scope.md R16). -/
def askEntropy (v : Env) : Option W64 × Env :=
  let a := v.entropies.headD (Config.entropy v.log.length)
  (a, { v with entropies := v.entropies.tail, log := v.log ++ [.entropy a] })

/-- `FALLBACK_SEED()` (00_scope.md R16). -/
def askFallbackSeed (v : Env) : W64 × Env :=
  let a := v.fallbackSeeds.headD (Config.fallbackSeed v.log.length)
  (a, { v with fallbackSeeds := v.fallbackSeeds.tail, log := v.log ++ [.fallbackSeed a] })

/-- `TIMESTAMP()` (00_scope.md R16). -/
def askTimestamp (v : Env) : W64 × Env :=
  let a := v.timestamps.headD (Config.timestamp v.log.length)
  (a, { v with timestamps := v.timestamps.tail, log := v.log ++ [.timestamp a] })

end Sys2Proof.Machine
end

