-- ==== Sys2Proof/Machine/FastEngine.lean ====
section
/-! DEFINITION. The fast engine of 41_fast_engine.md. -/

namespace Sys2Proof.Machine

/-- The output permutation of 41_fast_engine.md R140, of the state before the update. -/
def fOutput (k : Cfg) (old : W64) : W32 :=
  ror32 (low32 (((old >>> k.xshA) ^^^ old) >>> k.xshB)) (old >>> k.rotSh).toNat

/-- `F_STEP()` (41_fast_engine.md R140). -/
def fStep (k : Cfg) (e : Fast) : W32 × Fast :=
  (fOutput k e.fs, { e with fs := e.fs * k.multiplier + e.fi })

/-- `(SEED_CONSTANT << 1) or 1` in 64 bits (41_fast_engine.md R142, 10_state.md R48). -/
def fIncrement (k : Cfg) : W64 := k.seedConstant <<< 1 ||| 1#64

/-- `F_SEED_INTERNAL(v)` (41_fast_engine.md R142). -/
def fSeedInternal (k : Cfg) (v : W64) (e : Fast) : Fast :=
  let e1 := (fStep k { e with fs := 0#64, fi := fIncrement k }).2
  let e2 := (fStep k { e1 with fs := e1.fs + v }).2
  { e2 with seeded := true }

/-- `F_SEED(v)` (41_fast_engine.md R143). -/
def fSeed (k : Cfg) (v : W64) (e : Fast) (env : Env) : Fast × Env :=
  if v = 0#64 then (fSeedInternal k (askTimeSeed env).1 e, (askTimeSeed env).2)
  else (fSeedInternal k v e, env)

/-- The engine a draw steps: itself when seeded, else seeded lazily (41_fast_engine.md R144). -/
def fReady (k : Cfg) (e : Fast) (env : Env) : Fast × Env :=
  if e.seeded then (e, env) else fSeed k 0#64 e env

/-- `F_DRAW32()` (41_fast_engine.md R145). -/
def fDraw32 (k : Cfg) (e : Fast) (env : Env) : W32 × Fast × Env :=
  let r := fReady k e env
  ((fStep k r.1).1, (fStep k r.1).2, r.2)

end Sys2Proof.Machine
end

