-- ==== Sys2Proof/Machine/Float.lean ====
section
/-! DEFINITION. IEEE 754 binary64 (00_scope.md R11 to R15). A finite value is a whole number of units of `2^-1074`;
each operation is computed exactly in those units and rounded once, to nearest, ties to even. -/

namespace Sys2Proof.Machine

/-- The sign bit, bit 63 (00_scope.md R11). -/
def signBit (x : F64) : Bool := x.msb

/-- Bits 62:0, the magnitude of the value without its sign. -/
def magBits (x : F64) : Nat := x.toNat % 2 ^ 63

/-- The exponent field, bits 62:52 (00_scope.md R11). -/
def expField (x : F64) : Nat := (x.extractLsb' 52 11).toNat

/-- The fraction field, bits 51:0 (00_scope.md R11). -/
def fracField (x : F64) : Nat := (x.extractLsb' 0 52).toNat

/-- `isfinite(x)`: the exponent field is not all ones (00_scope.md R11). -/
def isFinite (x : F64) : Bool := decide (expField x ≠ 2047)

/-- A NaN: exponent field all ones, fraction not zero (00_scope.md R11). -/
def isNaN (x : F64) : Bool := decide (expField x = 2047) && decide (fracField x ≠ 0)

/-- An infinity: exponent field all ones, fraction zero (00_scope.md R11). -/
def isInf (x : F64) : Bool := decide (expField x = 2047) && decide (fracField x = 0)

/-- The magnitude with bits 62:0 equal to `m`, in units of `2^-1074`: subnormal for exponent field 0, else with the
leading one and the scale of the exponent. -/
def magUnits (m : Nat) : Nat :=
  if m / 2 ^ 52 = 0 then m else (2 ^ 52 + m % 2 ^ 52) * 2 ^ (m / 2 ^ 52 - 1)

/-- The value of a finite float in units of `2^-1074`. -/
def units (x : F64) : Int :=
  if signBit x then -(magUnits (magBits x) : Int) else (magUnits (magBits x) : Int)

/-- Bits 62:0 of an infinity. -/
def infMag : Nat := 2047 * 2 ^ 52

/-- The nearest whole number to `p / d`, ties to even. -/
def roundEven (p d : Nat) : Nat :=
  if d < 2 * (p % d) ∨ (d = 2 * (p % d) ∧ p / d % 2 = 1) then p / d + 1 else p / d

/-- How many bits the last place of the rounded value of `p / q` units lies above one unit: none below `2^53` units,
else as many as leave 53 significant bits. -/
def roundScale (p q : Nat) : Nat :=
  if p / q < 2 ^ 53 then 0 else (p / q).log2 - 52

/-- Bits 62:0 of the float nearest to `p / q` units, ties to even, an infinity when that is too large
(00_scope.md R12). -/
def roundMag (p q : Nat) : Nat :=
  let k := roundScale p q
  let r := k * 2 ^ 52 + roundEven p (q * 2 ^ k)
  if infMag ≤ r then infMag else r

/-- The float with this sign bit and these bits 62:0. -/
def packFloat (neg : Bool) (mag : Nat) : F64 :=
  BitVec.ofNat 64 ((if neg then 2 ^ 63 else 0) + mag)

/-- The NaN that carries a NaN between operations; no rule inspects its bits, and a result register receives a free
NaN pattern in its place (00_scope.md R12, log 6). -/
def someNaN : F64 := 0x7FF8000000000000#64

/-- `x` with its sign bit inverted. -/
def fneg (x : F64) : F64 := x ^^^ 0x8000000000000000#64

/-- `fabs(a)` clears the sign bit (00_scope.md R12). -/
def fabs (x : F64) : F64 := x &&& 0x7FFFFFFFFFFFFFFF#64

/-- `fadd(a, b)` (00_scope.md R12). A sum that is exactly zero is `-0` only for two negative zeros. -/
def fadd (a b : F64) : F64 :=
  if isNaN a || isNaN b then someNaN
  else if isInf a then (if isInf b && (signBit a != signBit b) then someNaN else a)
  else if isInf b then b
  else
    let n := units a + units b
    if n = 0 then packFloat (signBit a && signBit b) 0
    else packFloat (decide (n < 0)) (roundMag n.natAbs 1)

/-- `fsub(a, b)` (00_scope.md R12). -/
def fsub (a b : F64) : F64 := fadd a (fneg b)

/-- `fmul(a, b)` (00_scope.md R12); a product of units is in units of `2^-2148`. -/
def fmul (a b : F64) : F64 :=
  let neg := signBit a != signBit b
  if isNaN a || isNaN b then someNaN
  else if isInf a then (if magBits b = 0 then someNaN else packFloat neg infMag)
  else if isInf b then (if magBits a = 0 then someNaN else packFloat neg infMag)
  else packFloat neg (roundMag ((units a).natAbs * (units b).natAbs) (2 ^ 1074))

/-- `fdiv(a, b)` (00_scope.md R12). -/
def fdiv (a b : F64) : F64 :=
  let neg := signBit a != signBit b
  if isNaN a || isNaN b then someNaN
  else if isInf a then (if isInf b then someNaN else packFloat neg infMag)
  else if isInf b then packFloat neg 0
  else if magBits b = 0 then (if magBits a = 0 then someNaN else packFloat neg infMag)
  else packFloat neg (roundMag ((units a).natAbs * 2 ^ 1074) (units b).natAbs)

/-- Newton's iteration for the integer square root, from a guess not below it. -/
def isqrtFrom (n : Nat) : Nat → Nat → Nat
  | 0, g => g
  | k + 1, g => if (g + n / g) / 2 < g then isqrtFrom n k ((g + n / g) / 2) else g

/-- The integer part of the square root. -/
def isqrt (n : Nat) : Nat :=
  if n ≤ 1 then n else isqrtFrom n (n.log2 + 2) (2 ^ (n.log2 / 2 + 1))

/-- `fsqrt(a)` (00_scope.md R12). The root of `u` units is the root of `u * 2^1074` as a whole number of units; what
the integer root leaves over is kept as one sticky half, which decides the rounding as the exact root does. -/
def fsqrt (a : F64) : F64 :=
  if isNaN a then someNaN
  else if magBits a = 0 then a
  else if signBit a then someNaN
  else if isInf a then a
  else
    let n := magUnits (magBits a) * 2 ^ 1074
    let r := isqrt n
    packFloat false (roundMag (2 * r + (if r * r = n then 0 else 1)) 2)

/-- The place of a float that is not a NaN in the order of values: `+0` and `-0` share one (00_scope.md R13). -/
def orderKey (x : F64) : Int :=
  if signBit x then -(magBits x : Int) else (magBits x : Int)

/-- `a < b`, false for a NaN (00_scope.md R13). -/
def flt (a b : F64) : Bool := !isNaN a && !isNaN b && decide (orderKey a < orderKey b)

/-- `a <= b`, false for a NaN (00_scope.md R13). -/
def fle (a b : F64) : Bool := !isNaN a && !isNaN b && decide (orderKey a ≤ orderKey b)

/-- `a == b`, false for a NaN (00_scope.md R13). -/
def feq (a b : F64) : Bool := !isNaN a && !isNaN b && decide (orderKey a = orderKey b)

/-- `+0.0` (00_scope.md R15). -/
def fZero : F64 := 0#64

/-- `0.5` (00_scope.md R15). -/
def fHalf : F64 := 0x3FE0000000000000#64

/-- `1.0` (00_scope.md R15). -/
def fOne : F64 := 0x3FF0000000000000#64

/-- `2.0` (00_scope.md R15). -/
def fTwo : F64 := 0x4000000000000000#64

/-- `-1.0`. -/
def fMinusOne : F64 := 0xBFF0000000000000#64

/-- `-2.0` (00_scope.md R15). -/
def fMinusTwo : F64 := 0xC000000000000000#64

/-- `2^-32` (00_scope.md R15). -/
def fTwoPowMinus32 : F64 := 0x3DF0000000000000#64

/-- `TWO_PI` (00_scope.md R15). -/
def fTwoPi : F64 := 0x401921FB54442D18#64

/-- `u32_to_f64(w)`, exact (00_scope.md R15). -/
def u32ToF64 (w : W32) : F64 := packFloat false (roundMag (w.toNat * 2 ^ 1074) 1)

/-- `raw` where it lies in `[lo, hi]`, else `other`: how a property of `NUM` is imposed on a free function (log 9). -/
def heldTo (lo hi other raw : F64) : F64 := if fle lo raw && fle raw hi then raw else other

/-- `fln(x)`: any function with property P1 of 00_scope.md R14 (log 9). -/
def fln (x : F64) : F64 :=
  if x = fOne then fZero
  else if isFinite x && flt fZero x && fle x fOne then
    (if isFinite (Config.lnRaw x) && fle (Config.lnRaw x) fZero then Config.lnRaw x else fZero)
  else Config.lnRaw x

/-- `fcos(x)`: any function with property P2 of 00_scope.md R14 (log 9). -/
def fcos (x : F64) : F64 :=
  if isFinite x then heldTo fMinusOne fOne fZero (Config.cosRaw x) else Config.cosRaw x

/-- `fsin(x)`: any function with property P2 of 00_scope.md R14 (log 9). -/
def fsin (x : F64) : F64 :=
  if isFinite x then heldTo fMinusOne fOne fZero (Config.sinRaw x) else Config.sinRaw x

/-- `fcbrt(x)`: any function with property P3 of 00_scope.md R14 (log 9). P3 writes `fcbrt(0) = 0` without a sign.
DESIGN CHOICE (log 9): the result is a zero of either sign, free, for the operand `+0` as for `-0`. -/
def fcbrt (x : F64) : F64 :=
  if feq x fZero then heldTo fZero fZero fZero (Config.cbrtRaw x)
  else if x = fOne then fOne
  else if fle fZero x && fle x fOne then heldTo fZero fOne fZero (Config.cbrtRaw x)
  else Config.cbrtRaw x

/-- `ffmod(x, y)`: the exact remainder with the sign of `x` for finite `x` and finite non-zero `y` (00_scope.md R14,
property P4); a zero remainder keeps the sign of `x` too (log 10). Elsewhere R14 leaves it open. -/
def ffmod (x y : F64) : F64 :=
  if isFinite x && isFinite y && decide (magBits y ≠ 0) then
    packFloat (signBit x) (roundMag ((units x).natAbs % (units y).natAbs) 1)
  else Config.fmodRaw x y

/-- `TRUNC_SAT(r)` (43_distribution.md R209): 0 for a NaN, saturating outside the `i32` range, else toward zero. -/
def truncSat (r : F64) : W32 :=
  if isNaN r then 0#32
  else if (2 : Int) ^ 31 * 2 ^ 1074 ≤ units r then 0x7FFFFFFF#32
  else if units r ≤ -((2 : Int) ^ 31 * 2 ^ 1074) then 0x80000000#32
  else asU32 ((units r).tdiv (2 ^ 1074))

end Sys2Proof.Machine
end

