-- ==== Sys2Proof/Machine/SecureEngine.lean ====
section
/-! DEFINITION. The secure engine of 42_secure_engine.md. -/

namespace Sys2Proof.Machine

/-- The sixteen words of a matrix or block (10_state.md R49). -/
abbrev Words := Vector W32 16

/-- `QR(x, a, b, c, d)`, its eight assignments in order (42_secure_engine.md R160). -/
def quarterRound (x : Words) (a b c d : Fin 16) : Words :=
  let x := x.set a (x[a] + x[b])
  let x := x.set d (rotl32 (x[d] ^^^ x[a]) 16)
  let x := x.set c (x[c] + x[d])
  let x := x.set b (rotl32 (x[b] ^^^ x[c]) 12)
  let x := x.set a (x[a] + x[b])
  let x := x.set d (rotl32 (x[d] ^^^ x[a]) 8)
  let x := x.set c (x[c] + x[d])
  x.set b (rotl32 (x[b] ^^^ x[c]) 7)

/-- The four column quarter-rounds (42_secure_engine.md R161). -/
def columnRound (x : Words) : Words :=
  let x := quarterRound x 0 4 8 12
  let x := quarterRound x 1 5 9 13
  let x := quarterRound x 2 6 10 14
  quarterRound x 3 7 11 15

/-- The four diagonal quarter-rounds (42_secure_engine.md R161). -/
def diagonalRound (x : Words) : Words :=
  let x := quarterRound x 0 5 10 15
  let x := quarterRound x 1 6 11 12
  let x := quarterRound x 2 7 8 13
  quarterRound x 3 4 9 14

/-- `DOUBLE_ROUND(x)` (42_secure_engine.md R161). -/
def doubleRound (x : Words) : Words := diagonalRound (columnRound x)

/-- `n` double-rounds. -/
def doubleRounds : Nat → Words → Words
  | 0, x => x
  | n + 1, x => doubleRounds n (doubleRound x)

/-- `ROUNDS`, fixed by the spec (00_scope.md R6). -/
def roundCount : Nat := 10

/-- `CHACHA_BLOCK(st)` (42_secure_engine.md R162). -/
def chachaBlock (st : Words) : Words :=
  Vector.zipWith (fun x s => x + s) (doubleRounds roundCount st) st

/-- `CTR`, a name for `{SM[13], SM[12]}` (10_state.md R50). -/
def Secure.ctr (e : Secure) : W64 := concat32 e.sm[13] e.sm[12]

/-- The matrix with the block counter set to `n` (10_state.md R49, R50). -/
def withCounter (m : Words) (n : W64) : Words := (m.set 12 (low32 n)).set 13 (high32 n)

/-- `S_GENERATE()` (42_secure_engine.md R164): the block is made before the counter moves. -/
def sGenerate (e : Secure) : Secure :=
  { e with blk := chachaBlock e.sm, sm := withCounter e.sm (e.ctr + 1#64), cur := 0 }

/-- The temporary matrix of `EXPAND` (42_secure_engine.md R165). -/
def expandMatrix (k : Cfg) (s ts : W64) : Words :=
  #v[k.cc[0], k.cc[1], k.cc[2], k.cc[3], low32 s, high32 s, low32 ts, high32 ts,
     0#32, 0#32, 0#32, 0#32, 0#32, 0#32, 0#32, 0#32]

/-- `EXPAND(s, ts)`: the first twelve words of the block (42_secure_engine.md R165). -/
def expand (k : Cfg) (s ts : W64) : Vector W32 12 :=
  let o := chachaBlock (expandMatrix k s ts)
  #v[o[0], o[1], o[2], o[3], o[4], o[5], o[6], o[7], o[8], o[9], o[10], o[11]]

/-- `S_INSTALL(w)` (42_secure_engine.md R167): it writes every field. -/
def sInstall (k : Cfg) (w : Vector W32 12) : Secure where
  sm := #v[k.cc[0], k.cc[1], k.cc[2], k.cc[3], w[0], w[1], w[2], w[3], w[4], w[5], w[6], w[7],
           w[8], w[9], w[10], w[11]]
  blk := Vector.replicate 16 0#32
  cur := 16
  bytes := 0#64
  seeded := true

/-- The seed and timestamp of a zero-seed request, from the environment in the order of 42_secure_engine.md R168:
`ENTROPY()`, `FALLBACK_SEED()` only after a failure, `TIMESTAMP()`. -/
def sEntropySeed (env : Env) : W64 × W64 × Env :=
  let r := askEntropy env
  let s : W64 × Env := match r.1 with
    | some x => (x, r.2)
    | none => askFallbackSeed r.2
  let t := askTimestamp s.2
  (s.1, t.1, t.2)

/-- `S_SEED(v)` (42_secure_engine.md R166, R168). -/
def sSeed (k : Cfg) (v : W64) (env : Env) : Secure × Env :=
  if v = 0#64 then
    let q := sEntropySeed env
    (sInstall k (expand k q.1 q.2.1), q.2.2)
  else (sInstall k (expand k v 0#64), env)

/-- `RESEED_CHECK()` (42_secure_engine.md R170). -/
def reseedCheck (k : Cfg) (e : Secure) (env : Env) : Secure × Env :=
  if k.reseedThreshold ≤ e.bytes then
    let r := askEntropy env
    match r.1 with
    | some x => (sInstall k (expand k (x ^^^ concat32 e.sm[5] e.sm[4]) 0#64), r.2)
    | none => (e, r.2)
  else (e, env)

/-- `min(BYTES + 4, 2^64 - 1)` (42_secure_engine.md R172). -/
def bytesAfterWord (b : W64) : W64 := BitVec.ofNat 64 (min (b.toNat + 4) (2 ^ 64 - 1))

/-- The engine a word is taken from: seeded lazily (42_secure_engine.md R169), reseeded when due (R170), with a block
generated when the old one is used up (R171). -/
def sReady (k : Cfg) (e : Secure) (env : Env) : Secure × Env :=
  let a := if e.seeded then (e, env) else sSeed k 0#64 env
  let b := reseedCheck k a.1 a.2
  (if b.1.cur = 16 then sGenerate b.1 else b.1, b.2)

/-- Taking the word at the cursor (42_secure_engine.md R171, R172). -/
def sTake (e : Secure) : W32 × Secure :=
  (e.blk.getD e.cur.val 0#32, { e with cur := e.cur + 1, bytes := bytesAfterWord e.bytes })

/-- `S_DRAW32()` (42_secure_engine.md R171). -/
def sDraw32 (k : Cfg) (e : Secure) (env : Env) : W32 × Secure × Env :=
  let r := sReady k e env
  ((sTake r.1).1, (sTake r.1).2, r.2)

end Sys2Proof.Machine
end

