-- ==== Sys2Proof/Machine/Ops.lean ====
section
/-! DEFINITION. The named operations of 00_scope.md R10, over what one command of one channel can reach. A command
reads its channel's `Ctx` and changes its channel's `Work`, so that it cannot touch the other channel, `CFG`, `ARG` or
`IBUF` (10_state.md R40, R41, 20_memory.md R82). RNDX takes no exception: where another hardware would raise one, a
command ends with `fail` (00_scope.md R10, 60_exceptions.md R304), which is `Port.complete` of a `Reply.fail` here;
there is no return from it (60_exceptions.md R306). -/

namespace Sys2Proof.Machine

/-- A channel's engine (10_state.md R40). -/
inductive Engine
  | fast (e : Fast)
  | secure (e : Secure)
deriving DecidableEq, Repr

/-- What a command reads and never writes (10_state.md R41, 20_memory.md R82). -/
structure Ctx where
  cfg : Cfg
  chan : Chan
  epoch : Nat
  arg : Vector W64 8
  ibuf : Mem 8
deriving DecidableEq, Repr

/-- What a command may change besides its outcome registers. -/
structure Work where
  engine : Engine
  env : Env
  buf : Mem 64
  obuf : Mem 8
  frees : Nat
deriving DecidableEq, Repr

/-- How a piece of a command ends: with a value, in a redraw loop that does not end (40_bounded_sampler.md R126), or
at an index outside a memory (log 16). -/
inductive Res (α : Type)
  | ok (a : α) (w : Work)
  | stuck (w : Work)
  | fault (f : Fault)

/-- A piece of a command's pseudocode. -/
abbrev Cmd (α : Type) := Work → Res α

/-- The value `a`, nothing changed. -/
def ret {α : Type} (a : α) : Cmd α := fun w => .ok a w

/-- `m`, then `f` of its value: the order of the pseudocode (20_memory.md R88). -/
def andThen {α β : Type} (m : Cmd α) (f : α → Cmd β) : Cmd β := fun w =>
  match m w with
  | .ok a w' => f a w'
  | .stuck w' => .stuck w'
  | .fault e => .fault e

/-- One draw from a channel's engine (40_bounded_sampler.md R120). -/
def drawEngine (k : Cfg) (e : Engine) (env : Env) : W32 × Engine × Env :=
  match e with
  | .fast f => let d := fDraw32 k f env; (d.1, .fast d.2.1, d.2.2)
  | .secure s => let d := sDraw32 k s env; (d.1, .secure d.2.1, d.2.2)

/-- `DRAW32(c)` (40_bounded_sampler.md R120). -/
def draw32 (k : Ctx) : Cmd W32 := fun w =>
  let d := drawEngine k.cfg w.engine w.env
  .ok d.1 { w with engine := d.2.1, env := d.2.2 }

/-- The uniform float of a raw word, `w / 2^32` (40_bounded_sampler.md R121). -/
def uniformOf (w : W32) : F64 := fmul (u32ToF64 w) fTwoPowMinus32

/-- `DRAWF(c)` (40_bounded_sampler.md R121). -/
def drawF (k : Ctx) : Cmd F64 := andThen (draw32 k) fun w => ret (uniformOf w)

/-- Seeding a channel's engine from the argument of `SEED` (41_fast_engine.md R146). -/
def seedEngine (k : Cfg) (v : W64) (e : Engine) (env : Env) : Engine × Env :=
  match e with
  | .fast f => let d := fSeed k v f env; (.fast d.1, d.2)
  | .secure _ => let d := sSeed k v env; (.secure d.1, d.2)

/-- The element of `BUF[c]` at `i`: the last one written, else its unknown value (10_state.md R59; log 3). -/
def cellAt (c : Chan) (epoch : Nat) (m : Mem 64) (i : Nat) : W64 :=
  (Mem.written m i).getD (Config.unwrittenCell c epoch i)

/-- The byte of `IBUF[c]` at `i` (10_state.md R59; log 3). -/
def inByteAt (c : Chan) (epoch : Nat) (m : Mem 8) (i : Nat) : Byte :=
  (Mem.written m i).getD (Config.unwrittenIn c epoch i)

/-- The byte of `OBUF[c]` at `i` (10_state.md R59; log 3). -/
def outByteAt (c : Chan) (epoch : Nat) (m : Mem 8) (i : Nat) : Byte :=
  (Mem.written m i).getD (Config.unwrittenOut c epoch i)

/-- `MemRead(BUF, i)` (00_scope.md R10). -/
def readBuf (k : Ctx) (i : Nat) : Cmd W64 := fun w =>
  if i < k.cfg.maxElems then .ok (cellAt k.chan k.epoch w.buf i) w else .fault (.indexOutside .buf i)

/-- `MemWrite(BUF, i, v)` (00_scope.md R10). -/
def writeBuf (k : Ctx) (i : Nat) (v : W64) : Cmd Unit := fun w =>
  if i < k.cfg.maxElems then .ok () { w with buf := Mem.write w.buf i v } else .fault (.indexOutside .buf i)

/-- `MemRead(IBUF, i)` (00_scope.md R10). -/
def readIn (k : Ctx) (i : Nat) : Cmd Byte := fun w =>
  if i < k.cfg.maxBytes then .ok (inByteAt k.chan k.epoch k.ibuf i) w else .fault (.indexOutside .ibuf i)

/-- `MemWrite(OBUF, i, v)` (00_scope.md R10). -/
def writeOut (k : Ctx) (i : Nat) (v : Byte) : Cmd Unit := fun w =>
  if i < k.cfg.maxBytes then .ok () { w with obuf := Mem.write w.obuf i v } else .fault (.indexOutside .obuf i)

/-- The cells `start .. start + n - 1` of `BUF`, read in rising order. -/
def readCells (k : Ctx) (start : Nat) : Nat → Cmd (List W64)
  | 0 => ret []
  | n + 1 => andThen (readBuf k start) fun v => andThen (readCells k (start + 1) n) fun vs => ret (v :: vs)

/-- `OBUF[start ..] <- bytes`, written in rising order. -/
def writeOuts (k : Ctx) (start : Nat) : List Byte → Cmd Unit
  | [] => ret ()
  | b :: bs => andThen (writeOut k start b) fun _ => writeOuts k (start + 1) bs

/-- Exchange the cells `i` and `j` of `BUF` (43_distribution.md R206). -/
def swapCells (k : Ctx) (i j : Nat) : Cmd Unit :=
  andThen (readBuf k i) fun x => andThen (readBuf k j) fun y =>
  andThen (writeBuf k i y) fun _ => writeBuf k j x

/-- `n` raw words, in the order drawn. -/
def drawWords (k : Ctx) : Nat → Cmd (List W32)
  | 0 => ret []
  | n + 1 => andThen (draw32 k) fun x => andThen (drawWords k n) fun xs => ret (x :: xs)

/-- The bits of the `n`-th NaN result of channel `c`: any NaN pattern (00_scope.md R12, 93 U5; log 6). -/
def freeNaN (c : Chan) (n : Nat) : F64 :=
  if isNaN (Config.nanBits c n) then Config.nanBits c n else someNaN

/-- The 64 bits a float result leaves in a register: its own, or a fresh NaN pattern (00_scope.md R12; log 6). -/
def resultBits (k : Ctx) (x : F64) : Cmd W64 := fun w =>
  .ok (if isNaN x then freeNaN k.chan w.frees else x) { w with frees := if isNaN x then w.frees + 1 else w.frees }

/-- How a command ends: `done(v0, v1, v2, v3)` or `fail(ERR_x, v)` (00_scope.md R10). -/
inductive Reply
  | done (v0 v1 v2 v3 : W64)
  | fail (e : Err) (v : W64)
deriving DecidableEq, Repr

/-- The four result registers a reply leaves (00_scope.md R10, 60_exceptions.md R304). -/
def Reply.results : Reply → Vector W64 4
  | .done v0 v1 v2 v3 => #v[v0, v1, v2, v3]
  | .fail _ v => #v[v, 0#64, 0#64, 0#64]

/-- `STATUS.OK` after a reply (00_scope.md R10). -/
def Reply.okFlag : Reply → Bool
  | .done .. => true
  | .fail .. => false

/-- `STATUS.ERR` after a reply (00_scope.md R10). -/
def Reply.errCode : Reply → Err
  | .done .. => .none
  | .fail e _ => e

/-- A command's completion: all four `RES`, `OK` and `ERR` are written and `BUSY` falls
(10_state.md R42, R44, 60_exceptions.md R304). -/
def Port.complete (p : Port) (r : Reply) : Port :=
  { p with res := r.results, ok := r.okFlag, err := r.errCode, busy := false }

/-- The registers and memories of channel `c`. -/
def State.port (s : State) : Chan → Port
  | .F => s.portF
  | .S => s.portS

/-- The state with the registers and memories of channel `c` replaced. -/
def State.setPort (s : State) (c : Chan) (p : Port) : State :=
  match c with
  | .F => { s with portF := p }
  | .S => { s with portS := p }

/-- The engine of channel `c`. -/
def State.engine (s : State) : Chan → Engine
  | .F => .fast s.fast
  | .S => .secure s.secure

/-- The environment at channel `c`'s boundary. -/
def State.env (s : State) : Chan → Env
  | .F => s.envF
  | .S => s.envS

/-- What a command on channel `c` reads. -/
def State.ctx (s : State) (c : Chan) : Ctx where
  cfg := s.cfg
  chan := c
  epoch := (s.port c).epoch
  arg := (s.port c).arg
  ibuf := (s.port c).ibuf

/-- What a command on channel `c` may change. -/
def State.work (s : State) (c : Chan) : Work where
  engine := s.engine c
  env := s.env c
  buf := (s.port c).buf
  obuf := (s.port c).obuf
  frees := (s.port c).frees

/-- A channel's registers and memories after the memory writes of a command. -/
def Port.putWork (p : Port) (w : Work) : Port :=
  { p with buf := w.buf, obuf := w.obuf, frees := w.frees }

/-- The fast engine a command on `F` leaves; an engine never changes kind. -/
def Engine.fastOr (e : Engine) (old : Fast) : Fast :=
  match e with
  | .fast f => f
  | .secure _ => old

/-- The secure engine a command on `S` leaves; an engine never changes kind. -/
def Engine.secureOr (e : Engine) (old : Secure) : Secure :=
  match e with
  | .fast _ => old
  | .secure f => f

/-- Channel `c` after a command's changes, its outcome registers aside. -/
def State.putWork (s : State) (c : Chan) (w : Work) : State :=
  match c with
  | .F => { s with portF := s.portF.putWork w, fast := w.engine.fastOr s.fast, envF := w.env }
  | .S => { s with portS := s.portS.putWork w, secure := w.engine.secureOr s.secure, envS := w.env }

/-- Channel `c` after a command's completion. -/
def State.complete (s : State) (c : Chan) (r : Reply) : State :=
  s.setPort c ((s.port c).complete r)

/-- Channel `c` with `BUSY` set: its command does not end (70_reset_and_hazards.md R334; log 7). DESIGN CHOICE (log 21):
the rest of the channel stands still until reset. -/
def State.hang (s : State) (c : Chan) : State :=
  s.setPort c { s.port c with busy := true }

/-- A command on channel `c` as one indivisible transition (10_state.md R40). -/
def runCommand (c : Chan) (body : Ctx → Cmd Reply) (s : State) : Host.Outcome State Fault Refusal :=
  match body (s.ctx c) (s.work c) with
  | .ok r w => .next ((s.putWork c w).complete c r)
  | .stuck w => .next ((s.putWork c w).hang c)
  | .fault f => .fault f

/-- An illegal command word on channel `c`: `fail(ERR_ILLEGAL, 0)` and no other effect (30_encoding.md R104). -/
def illegalCommand (c : Chan) (s : State) : Host.Outcome State Fault Refusal :=
  .next (s.complete c (.fail .illegal 0#64))

/-- A command that is legal on channel `S` only (30_encoding.md R103). -/
def runSecureOnly (c : Chan) (body : Ctx → Cmd Reply) (s : State) : Host.Outcome State Fault Refusal :=
  match c with
  | .F => illegalCommand .F s
  | .S => runCommand .S body s

end Sys2Proof.Machine
end

