-- ==== Sys2Proof/Machine/Operands.lean ====
section
/-! DEFINITION. Operand and result types (30_encoding.md R105, R106). -/

namespace Sys2Proof.Machine

/-- A `u64` argument (30_encoding.md R105). -/
def argU64 (k : Ctx) (i : Fin 8) : W64 := k.arg[i]

/-- A `u32` argument: bits 31:0 (30_encoding.md R105). -/
def argU32 (k : Ctx) (i : Fin 8) : W32 := low32 k.arg[i]

/-- An `i32` argument: bits 31:0 read as signed (30_encoding.md R105). -/
def argI32 (k : Ctx) (i : Fin 8) : Int := asI32 (low32 k.arg[i])

/-- An `f64` argument: the bit pattern (30_encoding.md R105). -/
def argF64 (k : Ctx) (i : Fin 8) : F64 := k.arg[i]

/-- `done()`: success with no result (30_encoding.md R106). -/
def okNone : Reply := .done 0#64 0#64 0#64 0#64

/-- A `u32` result (30_encoding.md R106). -/
def okU32 (w : W32) : Reply := .done (zext64 w) 0#64 0#64 0#64

/-- An `i32` result from its 32-bit pattern (30_encoding.md R106). -/
def okI32 (w : W32) : Reply := .done (sext64 w) 0#64 0#64 0#64

/-- A Boolean result (30_encoding.md R106). -/
def okBool (b : Bool) : Reply := .done (if b then 1#64 else 0#64) 0#64 0#64 0#64

/-- A `cell` result, copied unchanged (30_encoding.md R106). -/
def okCell (v : W64) : Reply := .done v 0#64 0#64 0#64

/-- A float result (30_encoding.md R106; NaN bits by log 6). -/
def okFloat (k : Ctx) (x : F64) : Cmd Reply :=
  andThen (resultBits k x) fun a => ret (.done a 0#64 0#64 0#64)

/-- A point in the plane (44_geometry.md R250 (c)). -/
def okPoint2 (k : Ctx) (x y : F64) : Cmd Reply :=
  andThen (resultBits k x) fun a => andThen (resultBits k y) fun b => ret (.done a b 0#64 0#64)

/-- A point in space (44_geometry.md R250 (c)). -/
def okPoint3 (k : Ctx) (x y z : F64) : Cmd Reply :=
  andThen (resultBits k x) fun a => andThen (resultBits k y) fun b => andThen (resultBits k z) fun d =>
  ret (.done a b d 0#64)

/-- A failure with sentinel 0 (60_exceptions.md R304). -/
def failWith (e : Err) : Cmd Reply := ret (.fail e 0#64)

end Sys2Proof.Machine
end

