-- ==== Sys2Proof/Machine/Sampler.lean ====
section
/-! DEFINITION. The bounded sampler of 40_bounded_sampler.md. -/

namespace Sys2Proof.Machine

/-- The redraw loop of 40_bounded_sampler.md R122 at the product `m`. After `fuel` rejected words more the model says
that the loop does not end (40_bounded_sampler.md R126; log 7). -/
def redraw (k : Ctx) (bound threshold : W32) : Nat → W64 → Cmd W32
  | 0, m => if low32 m < threshold then fun w => .stuck w else ret (high32 m)
  | fuel + 1, m =>
    if low32 m < threshold then
      andThen (draw32 k) fun x => redraw k bound threshold fuel (mul32x32 x bound)
    else ret (high32 m)

/-- `BOUNDED_SAMPLE(c, bound)` (40_bounded_sampler.md R122 to R124). -/
def boundedSample (k : Ctx) (bound : W32) : Cmd W32 :=
  if bound = 0#32 then ret 0#32
  else
    andThen (draw32 k) fun x =>
      let m := mul32x32 x bound
      if low32 m < bound then redraw k bound (rejectThreshold bound) k.cfg.fuel m
      else ret (high32 m)

/-- `PICKCH(c, set)` (43_distribution.md R212). -/
def pickChar (k : Ctx) (set : List Byte) : Cmd Byte :=
  andThen (boundedSample k (BitVec.ofNat 32 set.length)) fun j => ret (set.getD j.toNat 0#8)

end Sys2Proof.Machine
end

