-- ==== Sys2Proof/Machine/Distribution.lean ====
section
/-! DEFINITION. The Distribution Layer commands of 43_distribution.md, text and bytes apart. -/

namespace Sys2Proof.Machine

/-- `RANGE`'s pseudocode (43_distribution.md R201). -/
def rangeBody (k : Ctx) : Cmd Reply :=
  let lo := min (argI32 k 0) (argI32 k 1)
  let hi := max (argI32 k 0) (argI32 k 1)
  if lo = hi then ret (okI32 (asU32 lo))
  else andThen (boundedSample k (asU32 (hi - lo + 1))) fun v => ret (okI32 (asU32 lo + v))

/-- `RANGE` (43_distribution.md R201). -/
def execRange (c : Chan) (s : State) : Host.Outcome State Fault Refusal := runCommand c rangeBody s

/-- A pair in rising order: exchanged when `a > b`, never for a NaN (43_distribution.md R202, 44_geometry.md R254). -/
def orderedPair (a b : F64) : F64 × F64 := if flt b a then (b, a) else (a, b)

/-- `fadd(a, fmul(U, fsub(b, a)))` (43_distribution.md R202, 44_geometry.md R254). -/
def scaleInto (a b u : F64) : F64 := fadd a (fmul u (fsub b a))

/-- `FLOAT_RANGE`'s pseudocode (43_distribution.md R202). -/
def floatRangeBody (k : Ctx) : Cmd Reply :=
  let p := orderedPair (argF64 k 0) (argF64 k 1)
  if feq p.1 p.2 then okFloat k p.1
  else andThen (drawF k) fun u => okFloat k (scaleInto p.1 p.2 u)

/-- `FLOAT_RANGE` (43_distribution.md R202). -/
def execFloatRange (c : Chan) (s : State) : Host.Outcome State Fault Refusal := runCommand c floatRangeBody s

/-- `BOOLEAN`'s pseudocode (43_distribution.md R203). -/
def booleanBody (k : Ctx) : Cmd Reply :=
  let p := argF64 k 0
  if !isFinite p then ret (okBool false)
  else if fle p fZero then ret (okBool false)
  else if fle fOne p then ret (okBool true)
  else andThen (drawF k) fun u => ret (okBool (flt u p))

/-- `BOOLEAN` (43_distribution.md R203). -/
def execBoolean (c : Chan) (s : State) : Host.Outcome State Fault Refusal := runCommand c booleanBody s

/-- The two positive weights, halved when their sum would overflow (43_distribution.md R204). -/
def halvedWeights (tw fw : Int) : Int × Int :=
  if 2 ^ 31 - 1 < tw + fw then (tw / 2, fw / 2) else (tw, fw)

/-- `BOOLEAN_WEIGHTED`'s pseudocode (43_distribution.md R204). -/
def booleanWeightedBody (k : Ctx) : Cmd Reply :=
  let tw := argI32 k 0
  let fw := argI32 k 1
  if tw ≤ 0 then ret (okBool false)
  else if fw ≤ 0 then ret (okBool true)
  else
    let p := halvedWeights tw fw
    andThen (boundedSample k (asU32 (p.1 + p.2))) fun v => ret (okBool (decide ((v.toNat : Int) < p.1)))

/-- `BOOLEAN_WEIGHTED` (43_distribution.md R204). -/
def execBooleanWeighted (c : Chan) (s : State) : Host.Outcome State Fault Refusal :=
  runCommand c booleanWeightedBody s

/-- The sum of the positive weights, exact (43_distribution.md R205). -/
def weightTotal : List Int → Int
  | [] => 0
  | x :: xs => (if 0 < x then x else 0) + weightTotal xs

/-- The scan of 43_distribution.md R205 from index `i`: the first index whose running sum exceeds `v`, else `last`. -/
def weightScan (v : Int) : List Int → (i : Nat) → (run : Int) → (last : Nat) → Nat
  | [], _, _, last => last
  | x :: xs, i, run, last =>
    if 0 < x then (if v < run + x then i else weightScan v xs (i + 1) (run + x) i)
    else weightScan v xs (i + 1) run last

/-- `WEIGHTED_INDEX`'s pseudocode (43_distribution.md R205). -/
def weightedIndexBody (k : Ctx) : Cmd Reply :=
  let n := argI32 k 0
  if n ≤ 0 ∨ (k.cfg.maxElems : Int) < n then failWith .size
  else
    andThen (readCells k 0 n.toNat) fun cells =>
      let ws := cells.map fun v => asI32 (low32 v)
      if 2 ^ 31 - 1 < weightTotal ws then failWith .numeric
      else if weightTotal ws = 0 then failWith .numeric
      else
        andThen (boundedSample k (asU32 (weightTotal ws))) fun v =>
          ret (okI32 (asU32 (weightScan v.toNat ws 0 0 0)))

/-- `WEIGHTED_INDEX` (43_distribution.md R205). -/
def execWeightedIndex (c : Chan) (s : State) : Host.Outcome State Fault Refusal :=
  runCommand c weightedIndexBody s

/-- Fisher-Yates on the cells from `base` up, for `i` from `base + n` down to `base + 1`
(43_distribution.md R206 with `base` 0, R207). -/
def shuffleDown (k : Ctx) (base : Nat) : Nat → Cmd Unit
  | 0 => ret ()
  | n + 1 =>
    andThen (boundedSample k (BitVec.ofNat 32 (n + 2))) fun j =>
    andThen (swapCells k (base + (n + 1)) (base + j.toNat)) fun _ => shuffleDown k base n

/-- `SHUFFLE`'s pseudocode (43_distribution.md R206). -/
def shuffleBody (k : Ctx) : Cmd Reply :=
  let n := argI32 k 0
  if (k.cfg.maxElems : Int) < n then failWith .size
  else andThen (shuffleDown k 0 (n - 1).toNat) fun _ => ret (okBool true)

/-- `SHUFFLE` (43_distribution.md R206). -/
def execShuffle (c : Chan) (s : State) : Host.Outcome State Fault Refusal := runCommand c shuffleBody s

/-- `SHUFFLE_RANGE`'s pseudocode (43_distribution.md R207). -/
def shuffleRangeBody (k : Ctx) : Cmd Reply :=
  let b := argI32 k 0
  let e := argI32 k 1
  if b < 0 ∨ e < 0 ∨ (k.cfg.maxElems : Int) ≤ b ∨ (k.cfg.maxElems : Int) ≤ e then failWith .size
  else andThen (shuffleDown k b.toNat (e - b).toNat) fun _ => ret (okBool true)

/-- `SHUFFLE_RANGE` (43_distribution.md R207). -/
def execShuffleRange (c : Chan) (s : State) : Host.Outcome State Fault Refusal :=
  runCommand c shuffleRangeBody s

/-- `z0` of the Box-Muller transform, `u1` clamped (43_distribution.md R208). -/
def gaussZ (k : Ctx) (u1 u2 : F64) : F64 :=
  let v := if flt u1 k.cfg.gaussU1Min then k.cfg.gaussU1Min else u1
  fmul (fsqrt (fmul fMinusTwo (fln v))) (fcos (fmul fTwoPi u2))

/-- The sample clamped to be non-negative (43_distribution.md R208). -/
def gaussClamp (r : F64) : F64 := if flt r fZero then fZero else r

/-- `GAUSSIAN`'s pseudocode (43_distribution.md R208). -/
def gaussianBody (k : Ctx) : Cmd Reply :=
  let m := argF64 k 0
  let sd := argF64 k 1
  if !isFinite m || !isFinite sd then failWith .numeric
  else if fle sd fZero then ret (.fail .numeric (sext64 (truncSat m)))
  else
    andThen (drawF k) fun u1 => andThen (drawF k) fun u2 =>
      ret (okI32 (truncSat (gaussClamp (fadd m (fmul (gaussZ k u1 u2) sd)))))

/-- `GAUSSIAN` (43_distribution.md R208). -/
def execGaussian (c : Chan) (s : State) : Host.Outcome State Fault Refusal := runCommand c gaussianBody s

/-- `n` more dice added to `t`, modulo 2^32 (43_distribution.md R210). -/
def diceSum (k : Ctx) (sides : W32) : Nat → W32 → Cmd W32
  | 0, t => ret t
  | n + 1, t => andThen (boundedSample k sides) fun v => diceSum k sides n (t + v + 1#32)

/-- `DICE`'s pseudocode (43_distribution.md R210). -/
def diceBody (k : Ctx) : Cmd Reply :=
  let sides := argI32 k 0
  let cnt := argI32 k 1
  if sides ≤ 0 ∨ cnt ≤ 0 then failWith .numeric
  else andThen (diceSum k (asU32 sides) cnt.toNat 0#32) fun t => ret (okI32 t)

/-- `DICE` (43_distribution.md R210). -/
def execDice (c : Chan) (s : State) : Host.Outcome State Fault Refusal := runCommand c diceBody s

/-- `PICK`'s pseudocode (43_distribution.md R211). -/
def pickBody (k : Ctx) : Cmd Reply :=
  let n := argI32 k 0
  if n ≤ 0 ∨ (k.cfg.maxElems : Int) < n then failWith .size
  else
    andThen (boundedSample k (asU32 n)) fun j => andThen (readBuf k j.toNat) fun v => ret (okCell v)

/-- `PICK` (43_distribution.md R211). -/
def execPick (c : Chan) (s : State) : Host.Outcome State Fault Refusal := runCommand c pickBody s

end Sys2Proof.Machine
end

