-- ==== Sys2Proof/Machine/EngineCommands.lean ====
section
/-! DEFINITION. The engine and bounded-sampler commands: `SEED`, `NEXT_U32`, `NEXT_FLOAT`, `BOUNDED`, `ZEROIZE`. -/

namespace Sys2Proof.Machine

/-- `SEED`'s pseudocode (41_fast_engine.md R146). -/
def seedBody (k : Ctx) : Cmd Reply := fun w =>
  let d := seedEngine k.cfg (argU64 k 0) w.engine w.env
  .ok okNone { w with engine := d.1, env := d.2 }

/-- `SEED` (41_fast_engine.md R146). -/
def execSeed (c : Chan) (s : State) : Host.Outcome State Fault Refusal := runCommand c seedBody s

/-- `NEXT_U32`'s pseudocode (41_fast_engine.md R147). -/
def nextU32Body (k : Ctx) : Cmd Reply := andThen (draw32 k) fun x => ret (okU32 x)

/-- `NEXT_U32` (41_fast_engine.md R147). -/
def execNextU32 (c : Chan) (s : State) : Host.Outcome State Fault Refusal := runCommand c nextU32Body s

/-- `NEXT_FLOAT`'s pseudocode (41_fast_engine.md R148). -/
def nextFloatBody (k : Ctx) : Cmd Reply := andThen (drawF k) fun u => okFloat k u

/-- `NEXT_FLOAT` (41_fast_engine.md R148). -/
def execNextFloat (c : Chan) (s : State) : Host.Outcome State Fault Refusal := runCommand c nextFloatBody s

/-- `BOUNDED`'s pseudocode (40_bounded_sampler.md R127). -/
def boundedBody (k : Ctx) : Cmd Reply := andThen (boundedSample k (argU32 k 0)) fun r => ret (okU32 r)

/-- `BOUNDED` (40_bounded_sampler.md R127). -/
def execBounded (c : Chan) (s : State) : Host.Outcome State Fault Refusal := runCommand c boundedBody s

/-- `ZEROIZE`'s pseudocode: the secure engine back to its reset state (42_secure_engine.md R174). -/
def zeroizeBody (_ : Ctx) : Cmd Reply := fun w => .ok okNone { w with engine := .secure Secure.afterReset }

/-- `ZEROIZE` (42_secure_engine.md R174), illegal on `F`. -/
def execZeroize (c : Chan) (s : State) : Host.Outcome State Fault Refusal := runSecureOnly c zeroizeBody s

end Sys2Proof.Machine
end

