-- ==== Sys2Proof/Machine/Geometry.lean ====
section
/-! DEFINITION. The Geometric Sampler commands of 44_geometry.md. -/

namespace Sys2Proof.Machine

/-- `POLAR(cx, cy, r, ang)` (44_geometry.md R250 (f)). -/
def polarPoint (cx cy r ang : F64) : F64 × F64 :=
  (fadd cx (fmul r (fcos ang)), fadd cy (fmul r (fsin ang)))

/-- `ANGLE(c)` (44_geometry.md R250 (g)). -/
def drawAngle (k : Ctx) : Cmd F64 := andThen (drawF k) fun u => ret (fmul u fTwoPi)

/-- The weights `r1`, `r2` of a triangle sample, reflected when their sum exceeds 1 (44_geometry.md R251). -/
def foldWeights (r1 r2 : F64) : F64 × F64 :=
  if flt fOne (fadd r1 r2) then (fsub fOne r1, fsub fOne r2) else (r1, r2)

/-- One coordinate of the barycentric combination (44_geometry.md R251). -/
def baryCombine (r1 r2 a b d : F64) : F64 :=
  fadd (fadd (fmul r1 a) (fmul r2 b)) (fmul (fsub (fsub fOne r1) r2) d)

/-- `TRI_SAMPLE` (44_geometry.md R251). -/
def triSample (k : Ctx) (x1 y1 x2 y2 x3 y3 : F64) : Cmd (F64 × F64) :=
  andThen (drawF k) fun u1 => andThen (drawF k) fun u2 =>
    let r := foldWeights u1 u2
    ret (baryCombine r.1 r.2 x1 x2 x3, baryCombine r.1 r.2 y1 y2 y3)

/-- `POINT_IN_CIRCLE`'s pseudocode (44_geometry.md R252). -/
def pointInCircleBody (k : Ctx) : Cmd Reply :=
  let cx := argF64 k 0
  let cy := argF64 k 1
  let r := argF64 k 2
  if !(isFinite cx && isFinite cy && isFinite r) then failWith .numeric
  else if fle r fZero then failWith .numeric
  else
    andThen (drawAngle k) fun ang => andThen (drawF k) fun u =>
      let p := polarPoint cx cy (fmul r (fsqrt u)) ang
      okPoint2 k p.1 p.2

/-- `POINT_IN_CIRCLE` (44_geometry.md R252). -/
def execPointInCircle (c : Chan) (s : State) : Host.Outcome State Fault Refusal :=
  runCommand c pointInCircleBody s

/-- `POINT_ON_CIRCLE`'s pseudocode (44_geometry.md R253). -/
def pointOnCircleBody (k : Ctx) : Cmd Reply :=
  let cx := argF64 k 0
  let cy := argF64 k 1
  let r := argF64 k 2
  if !(isFinite cx && isFinite cy && isFinite r) then failWith .numeric
  else if fle r fZero then failWith .numeric
  else
    andThen (drawAngle k) fun ang =>
      let p := polarPoint cx cy r ang
      okPoint2 k p.1 p.2

/-- `POINT_ON_CIRCLE` (44_geometry.md R253). -/
def execPointOnCircle (c : Chan) (s : State) : Host.Outcome State Fault Refusal :=
  runCommand c pointOnCircleBody s

/-- `POINT_IN_RECT`'s pseudocode (44_geometry.md R254). -/
def pointInRectBody (k : Ctx) : Cmd Reply :=
  let x0 := argF64 k 0
  let y0 := argF64 k 1
  let x1 := argF64 k 2
  let y1 := argF64 k 3
  if !(isFinite x0 && isFinite y0 && isFinite x1 && isFinite y1) then failWith .numeric
  else
    let px := orderedPair x0 x1
    let py := orderedPair y0 y1
    andThen (drawF k) fun u => andThen (drawF k) fun v =>
      okPoint2 k (scaleInto px.1 px.2 u) (scaleInto py.1 py.2 v)

/-- `POINT_IN_RECT` (44_geometry.md R254). -/
def execPointInRect (c : Chan) (s : State) : Host.Outcome State Fault Refusal :=
  runCommand c pointInRectBody s

/-- The radius of a ring sample (44_geometry.md R255). -/
def ringRadius (ri ro t : F64) : F64 :=
  fsqrt (fadd (fmul ri ri) (fmul t (fsub (fmul ro ro) (fmul ri ri))))

/-- `POINT_IN_RING`'s pseudocode (44_geometry.md R255). -/
def pointInRingBody (k : Ctx) : Cmd Reply :=
  let cx := argF64 k 0
  let cy := argF64 k 1
  let ri := argF64 k 2
  let ro := argF64 k 3
  if !(isFinite cx && isFinite cy && isFinite ri && isFinite ro) then failWith .numeric
  else if flt ri fZero || fle ro fZero || fle ro ri then failWith .numeric
  else
    andThen (drawAngle k) fun ang => andThen (drawF k) fun t =>
      let p := polarPoint cx cy (ringRadius ri ro t) ang
      okPoint2 k p.1 p.2

/-- `POINT_IN_RING` (44_geometry.md R255). -/
def execPointInRing (c : Chan) (s : State) : Host.Outcome State Fault Refusal :=
  runCommand c pointInRingBody s

/-- `POINT_IN_ELLIPSE`'s pseudocode (44_geometry.md R256). -/
def pointInEllipseBody (k : Ctx) : Cmd Reply :=
  let cx := argF64 k 0
  let cy := argF64 k 1
  let a := argF64 k 2
  let b := argF64 k 3
  if !(isFinite cx && isFinite cy && isFinite a && isFinite b) then failWith .numeric
  else if fle a fZero || fle b fZero then failWith .numeric
  else
    andThen (drawAngle k) fun ang => andThen (drawF k) fun u =>
      let rr := fsqrt u
      okPoint2 k (fadd cx (fmul a (fmul rr (fcos ang)))) (fadd cy (fmul b (fmul rr (fsin ang))))

/-- `POINT_IN_ELLIPSE` (44_geometry.md R256). -/
def execPointInEllipse (c : Chan) (s : State) : Host.Outcome State Fault Refusal :=
  runCommand c pointInEllipseBody s

/-- `POINT_IN_TRIANGLE`'s pseudocode (44_geometry.md R257). -/
def pointInTriangleBody (k : Ctx) : Cmd Reply :=
  let x1 := argF64 k 0
  let y1 := argF64 k 1
  let x2 := argF64 k 2
  let y2 := argF64 k 3
  let x3 := argF64 k 4
  let y3 := argF64 k 5
  if !(isFinite x1 && isFinite y1 && isFinite x2 && isFinite y2 && isFinite x3 && isFinite y3) then
    failWith .numeric
  else andThen (triSample k x1 y1 x2 y2 x3 y3) fun p => okPoint2 k p.1 p.2

/-- `POINT_IN_TRIANGLE` (44_geometry.md R257). -/
def execPointInTriangle (c : Chan) (s : State) : Host.Outcome State Fault Refusal :=
  runCommand c pointInTriangleBody s

/-- `ARC_NORM(a)` (44_geometry.md R258). -/
def arcNorm (a : F64) : F64 :=
  let t := ffmod a fTwoPi
  let t := if flt t fZero then fadd t fTwoPi else t
  if fle fTwoPi t then fZero else t

/-- The forward angular span of 44_geometry.md R259, from normalised angles. -/
def arcSpan (st en : F64) : F64 :=
  let d := fsub en st
  if flt d fZero then fadd d fTwoPi else d

/-- `POINT_IN_ARC`'s pseudocode (44_geometry.md R259). -/
def pointInArcBody (k : Ctx) : Cmd Reply :=
  let cx := argF64 k 0
  let cy := argF64 k 1
  let r := argF64 k 2
  let a0 := argF64 k 3
  let a1 := argF64 k 4
  if !(isFinite cx && isFinite cy && isFinite r && isFinite a0 && isFinite a1) then failWith .numeric
  else if fle r fZero then failWith .numeric
  else
    let st := arcNorm a0
    let span := arcSpan st (arcNorm a1)
    if !flt fZero span then failWith .numeric
    else
      andThen (drawF k) fun u => andThen (drawF k) fun v =>
        let p := polarPoint cx cy (fmul r (fsqrt v)) (fadd st (fmul u span))
        okPoint2 k p.1 p.2

/-- `POINT_IN_ARC` (44_geometry.md R259). -/
def execPointInArc (c : Chan) (s : State) : Host.Outcome State Fault Refusal :=
  runCommand c pointInArcBody s

/-- Consecutive cells as vertices, `x` then `y` (20_memory.md R81, 44_geometry.md R260). -/
def pairCells : List W64 → List (F64 × F64)
  | x :: y :: rest => (x, y) :: pairCells rest
  | _ => []

/-- The area of the fan triangle of vertices `o`, `a`, `b` (44_geometry.md R260). -/
def fanArea (o a b : F64 × F64) : F64 :=
  fmul fHalf (fabs (fsub (fmul (fsub a.1 o.1) (fsub b.2 o.2)) (fmul (fsub b.1 o.1) (fsub a.2 o.2))))

/-- The fan triangles of the vertices after `o`, each with its area, in index order (44_geometry.md R260). -/
def fanTriangles (o : F64 × F64) : List (F64 × F64) → List (F64 × (F64 × F64) × (F64 × F64))
  | a :: b :: rest => (fanArea o a b, a, b) :: fanTriangles o (b :: rest)
  | _ => []

/-- The total area, added in index order from `0.0` (44_geometry.md R260). -/
def fanTotal (fans : List (F64 × (F64 × F64) × (F64 × F64))) : F64 :=
  fans.foldl (fun acc f => fadd acc f.1) fZero

/-- The first fan triangle whose cumulative area exceeds `t`, else `last` (44_geometry.md R260). -/
def fanPick (t : F64) : F64 → List (F64 × (F64 × F64) × (F64 × F64)) → (F64 × F64) × (F64 × F64) →
    (F64 × F64) × (F64 × F64)
  | _, [], last => last
  | cum, f :: rest, _ => if flt t (fadd cum f.1) then f.2 else fanPick t (fadd cum f.1) rest f.2

/-- `POINT_IN_POLYGON` after its vertices are read: tests, choice of a fan triangle, sample in it
(44_geometry.md R260). -/
def polygonSample (k : Ctx) (vs : List (F64 × F64)) : Cmd Reply :=
  if vs.any fun v => !isFinite v.1 || !isFinite v.2 then failWith .numeric
  else
    match vs with
    | [] => failWith .size
    | o :: rest =>
      let fans := fanTriangles o rest
      let total := fanTotal fans
      if !flt fZero total || !isFinite total then failWith .numeric
      else
        andThen (drawF k) fun u =>
          let ab := fanPick (fmul u total) fZero fans (o, o)
          andThen (triSample k o.1 o.2 ab.1.1 ab.1.2 ab.2.1 ab.2.2) fun p => okPoint2 k p.1 p.2

/-- `POINT_IN_POLYGON`'s pseudocode (44_geometry.md R260). -/
def pointInPolygonBody (k : Ctx) : Cmd Reply :=
  let n := argI32 k 0
  if n < 3 ∨ (k.cfg.maxVertices : Int) < n then failWith .size
  else andThen (readCells k 0 (2 * n.toNat)) fun cells => polygonSample k (pairCells cells)

/-- `POINT_IN_POLYGON` (44_geometry.md R260). -/
def execPointInPolygon (c : Chan) (s : State) : Host.Outcome State Fault Refusal :=
  runCommand c pointInPolygonBody s

/-- One coordinate of a candidate, `2 U - 1` (44_geometry.md R261, R262). -/
def drawSigned (k : Ctx) : Cmd F64 :=
  andThen (drawF k) fun u => ret (fsub (fmul fTwo u) fOne)

/-- The sphere-volume rejection loop with `tries` candidates left, none when all are rejected
(44_geometry.md R261, R264). -/
def ballLoop (k : Ctx) : (tries : Nat) → Cmd (Option (F64 × F64 × F64 × F64))
  | 0 => ret none
  | tries + 1 =>
    andThen (drawSigned k) fun px => andThen (drawSigned k) fun py => andThen (drawSigned k) fun pz =>
      let d2 := fadd (fadd (fmul px px) (fmul py py)) (fmul pz pz)
      if fle d2 fOne && flt fZero d2 then ret (some (px, py, pz, d2)) else ballLoop k tries

/-- `POINT_IN_SPHERE`'s pseudocode (44_geometry.md R261). -/
def pointInSphereBody (k : Ctx) : Cmd Reply :=
  let cx := argF64 k 0
  let cy := argF64 k 1
  let cz := argF64 k 2
  let r := argF64 k 3
  if !(isFinite cx && isFinite cy && isFinite cz && isFinite r) then failWith .numeric
  else if fle r fZero then failWith .numeric
  else
    andThen (ballLoop k k.cfg.retryCap) fun found =>
      match found with
      | none => failWith .retry
      | some (px, py, pz, d2) =>
        andThen (drawF k) fun u =>
          let q := fdiv (fmul r (fcbrt u)) (fsqrt d2)
          okPoint3 k (fadd cx (fmul px q)) (fadd cy (fmul py q)) (fadd cz (fmul pz q))

/-- `POINT_IN_SPHERE` (44_geometry.md R261). -/
def execPointInSphere (c : Chan) (s : State) : Host.Outcome State Fault Refusal :=
  runCommand c pointInSphereBody s

/-- The sphere-surface rejection loop with `tries` candidates left, none when all are rejected
(44_geometry.md R262, R264). -/
def diskLoop (k : Ctx) : (tries : Nat) → Cmd (Option (F64 × F64 × F64))
  | 0 => ret none
  | tries + 1 =>
    andThen (drawSigned k) fun u => andThen (drawSigned k) fun v =>
      let q := fadd (fmul u u) (fmul v v)
      if flt q fOne then ret (some (u, v, q)) else diskLoop k tries

/-- `POINT_ON_SPHERE`'s pseudocode (44_geometry.md R262). -/
def pointOnSphereBody (k : Ctx) : Cmd Reply :=
  let cx := argF64 k 0
  let cy := argF64 k 1
  let cz := argF64 k 2
  let r := argF64 k 3
  if !(isFinite cx && isFinite cy && isFinite cz && isFinite r) then failWith .numeric
  else if fle r fZero then failWith .numeric
  else
    andThen (diskLoop k k.cfg.retryCap) fun found =>
      match found with
      | none => failWith .retry
      | some (u, v, q) =>
        let f := fsqrt (fsub fOne q)
        okPoint3 k (fadd cx (fmul r (fmul (fmul fTwo u) f))) (fadd cy (fmul r (fmul (fmul fTwo v) f)))
          (fadd cz (fmul r (fsub fOne (fmul fTwo q))))

/-- `POINT_ON_SPHERE` (44_geometry.md R262). -/
def execPointOnSphere (c : Chan) (s : State) : Host.Outcome State Fault Refusal :=
  runCommand c pointOnSphereBody s

/-- `POINT_IN_BOX`'s pseudocode (44_geometry.md R263). -/
def pointInBoxBody (k : Ctx) : Cmd Reply :=
  let x0 := argF64 k 0
  let y0 := argF64 k 1
  let z0 := argF64 k 2
  let x1 := argF64 k 3
  let y1 := argF64 k 4
  let z1 := argF64 k 5
  if !(isFinite x0 && isFinite y0 && isFinite z0 && isFinite x1 && isFinite y1 && isFinite z1) then
    failWith .numeric
  else
    let px := orderedPair x0 x1
    let py := orderedPair y0 y1
    let pz := orderedPair z0 z1
    andThen (drawF k) fun u => andThen (drawF k) fun v => andThen (drawF k) fun t =>
      okPoint3 k (scaleInto px.1 px.2 u) (scaleInto py.1 py.2 v) (scaleInto pz.1 pz.2 t)

/-- `POINT_IN_BOX` (44_geometry.md R263). -/
def execPointInBox (c : Chan) (s : State) : Host.Outcome State Fault Refusal :=
  runCommand c pointInBoxBody s

end Sys2Proof.Machine
end

