-- ==== Sys2Proof/Machine/Text.lean ====
section
/-! DEFINITION. `PATTERN_FORMAT`, `RANDOM_BYTES` and `UUID_V4` (43_distribution.md R212 to R215). -/

namespace Sys2Proof.Machine

/-- The character set a placeholder stands for (43_distribution.md R213), none for any other character. -/
def placeholderSet (k : Cfg) (ch : Byte) : Option (List Byte) :=
  if ch = 0x58#8 then some k.upper
  else if ch = 0x78#8 then some k.lower
  else if ch = 0x39#8 then some k.digit
  else if ch = 0x41#8 then some k.alnum
  else if ch = 0x21#8 then some k.symbol
  else none

/-- The character a pattern character other than a backslash yields (43_distribution.md R213). -/
def patternChar (k : Ctx) (ch : Byte) : Cmd Byte :=
  match placeholderSet k.cfg ch with
  | some set => pickChar k set
  | none => ret ch

/-- The byte of the pattern at `p`, none at its end: the first zero byte, or the end of `IBUF` (20_memory.md R82). -/
def patternAt (k : Ctx) (p : Nat) : Cmd (Option Byte) :=
  if p < k.cfg.maxBytes then
    andThen (readIn k p) fun b => ret (if b = 0#8 then none else some b)
  else ret none

/-- The loop of 43_distribution.md R213 with `room = cap - 1 - o` output bytes left; its value is the final `o`. Each
pass that goes on writes one byte, so `room` bounds the passes. -/
def patternLoop (k : Ctx) : (room : Nat) → (p o : Nat) → Cmd Nat
  | 0, _, o => ret o
  | room + 1, p, o =>
    andThen (patternAt k p) fun ch =>
      match ch with
      | none => ret o
      | some ch =>
        if ch = 0x5C#8 then
          andThen (patternAt k (p + 1)) fun lit =>
            match lit with
            | none => ret o
            | some b => andThen (writeOut k o b) fun _ => patternLoop k room (p + 2) (o + 1)
        else
          andThen (patternChar k ch) fun b =>
          andThen (writeOut k o b) fun _ => patternLoop k room (p + 1) (o + 1)

/-- `PATTERN_FORMAT`'s pseudocode (43_distribution.md R213). -/
def patternFormatBody (k : Ctx) : Cmd Reply :=
  let cap := argI32 k 0
  if cap ≤ 0 ∨ (k.cfg.maxBytes : Int) < cap then failWith .size
  else
    andThen (patternLoop k (cap - 1).toNat 0 0) fun o =>
    andThen (writeOut k o 0#8) fun _ => ret (.done 1#64 (sext64 (asU32 o)) 0#64 0#64)

/-- `PATTERN_FORMAT` (43_distribution.md R213). -/
def execPatternFormat (c : Chan) (s : State) : Host.Outcome State Fault Refusal :=
  runCommand c patternFormatBody s

/-- `S_BYTES(n)`: `ceil(n / 4)` words, least significant byte first, the rest of the last word discarded
(42_secure_engine.md R173). -/
def drawBytes (k : Ctx) (n : Nat) : Cmd (List Byte) :=
  andThen (drawWords k ((n + 3) / 4)) fun ws => ret ((ws.flatMap wordBytes).take n)

/-- `RANDOM_BYTES`'s pseudocode (43_distribution.md R214). -/
def randomBytesBody (k : Ctx) : Cmd Reply :=
  let n := argI32 k 0
  if n ≤ 0 ∨ (k.cfg.maxBytes : Int) < n then failWith .size
  else
    andThen (drawBytes k n.toNat) fun bs => andThen (writeOuts k 0 bs) fun _ => ret (okBool true)

/-- `RANDOM_BYTES` (43_distribution.md R214), illegal on `F`. -/
def execRandomBytes (c : Chan) (s : State) : Host.Outcome State Fault Refusal :=
  runSecureOnly c randomBytesBody s

/-- The character of `HEX = "0123456789abcdef"` for a nibble (43_distribution.md R215). -/
def hexChar (n : BitVec 4) : Byte :=
  if n.toNat < 10 then BitVec.ofNat 8 (0x30 + n.toNat) else BitVec.ofNat 8 (0x57 + n.toNat)

/-- The two characters of a byte, high nibble first (43_distribution.md R215). -/
def hexByte (b : Byte) : List Byte := [hexChar (b.extractLsb' 4 4), hexChar (b.extractLsb' 0 4)]

/-- Byte `k` of the UUID: version nibble 4 in byte 6, variant bits `10` in byte 8 (43_distribution.md R215). -/
def uuidByte (bs : List Byte) (k : Nat) : Byte :=
  let b := bs.getD k 0#8
  if k = 6 then b &&& 0x0F#8 ||| 0x40#8 else if k = 8 then b &&& 0x3F#8 ||| 0x80#8 else b

/-- The hyphen (43_distribution.md R215). -/
def hyphen : List Byte := [0x2D#8]

/-- The 36 characters `8-4-4-4-12` of sixteen bytes, two for each byte (43_distribution.md R215). -/
def uuidText (bs : List Byte) : List Byte :=
  let h := fun k => hexByte (uuidByte bs k)
  [h 0, h 1, h 2, h 3, hyphen, h 4, h 5, hyphen, h 6, h 7, hyphen, h 8, h 9, hyphen,
    h 10, h 11, h 12, h 13, h 14, h 15].flatten

/-- `UUID_V4`'s pseudocode (43_distribution.md R215). -/
def uuidV4Body (k : Ctx) : Cmd Reply :=
  andThen (drawBytes k 16) fun bs =>
  andThen (writeOuts k 0 (uuidText bs)) fun _ =>
  andThen (writeOut k 36 0#8) fun _ => ret (okBool true)

/-- `UUID_V4` (43_distribution.md R215), illegal on `F`. -/
def execUuidV4 (c : Chan) (s : State) : Host.Outcome State Fault Refusal := runSecureOnly c uuidV4Body s

end Sys2Proof.Machine
end

