-- ==== Sys2Proof/Machine/Dispatch.lean ====
section
/-! DEFINITION. One arm per command of 30_encoding.md R102, each a direct call of its meaning. -/

namespace Sys2Proof.Machine

def exec (i : Instr) (s : State) : Host.Outcome State Fault Refusal :=
  match i with
  | .seed c => Sys2Proof.Machine.execSeed c s
  | .nextU32 c => Sys2Proof.Machine.execNextU32 c s
  | .nextFloat c => Sys2Proof.Machine.execNextFloat c s
  | .bounded c => Sys2Proof.Machine.execBounded c s
  | .zeroize c => Sys2Proof.Machine.execZeroize c s
  | .range c => Sys2Proof.Machine.execRange c s
  | .floatRange c => Sys2Proof.Machine.execFloatRange c s
  | .boolean c => Sys2Proof.Machine.execBoolean c s
  | .booleanWeighted c => Sys2Proof.Machine.execBooleanWeighted c s
  | .weightedIndex c => Sys2Proof.Machine.execWeightedIndex c s
  | .shuffle c => Sys2Proof.Machine.execShuffle c s
  | .shuffleRange c => Sys2Proof.Machine.execShuffleRange c s
  | .gaussian c => Sys2Proof.Machine.execGaussian c s
  | .dice c => Sys2Proof.Machine.execDice c s
  | .pick c => Sys2Proof.Machine.execPick c s
  | .patternFormat c => Sys2Proof.Machine.execPatternFormat c s
  | .randomBytes c => Sys2Proof.Machine.execRandomBytes c s
  | .uuidV4 c => Sys2Proof.Machine.execUuidV4 c s
  | .pointInCircle c => Sys2Proof.Machine.execPointInCircle c s
  | .pointOnCircle c => Sys2Proof.Machine.execPointOnCircle c s
  | .pointInRect c => Sys2Proof.Machine.execPointInRect c s
  | .pointInRing c => Sys2Proof.Machine.execPointInRing c s
  | .pointInEllipse c => Sys2Proof.Machine.execPointInEllipse c s
  | .pointInTriangle c => Sys2Proof.Machine.execPointInTriangle c s
  | .pointInArc c => Sys2Proof.Machine.execPointInArc c s
  | .pointInPolygon c => Sys2Proof.Machine.execPointInPolygon c s
  | .pointInSphere c => Sys2Proof.Machine.execPointInSphere c s
  | .pointOnSphere c => Sys2Proof.Machine.execPointOnSphere c s
  | .pointInBox c => Sys2Proof.Machine.execPointInBox c s

end Sys2Proof.Machine
end

