-- ==== Sys2Proof/Machine/Flags.lean ====
section
/-! DEFINITION. The `STATUS` register (10_state.md R44). -/

namespace Sys2Proof.Machine

/-- The number of a failure category (60_exceptions.md R301). -/
def Err.number : Err → BitVec 4
  | .none => 0#4
  | .illegal => 1#4
  | .numeric => 2#4
  | .size => 3#4
  | .retry => 4#4

/-- `FSEEDED` or `SSEEDED` (10_state.md R44, R47, R53). -/
def Engine.seededFlag : Engine → Bool
  | .fast e => e.seeded
  | .secure e => e.seeded

/-- `STATUS` from its fields: bits 31:9 zero, 8 `SEEDED`, 7:4 `ERR`, 3:2 zero, 1 `OK`, 0 `BUSY` (10_state.md R44). -/
def packStatus (seeded : Bool) (err : BitVec 4) (ok busy : Bool) : W32 :=
  0#23 ++ BitVec.ofBool seeded ++ err ++ 0#2 ++ BitVec.ofBool ok ++ BitVec.ofBool busy

/-- What reading `STATUS[c]` answers. While `BUSY = 1`, `OK` and `ERR` are meaningless: free values, one for each
read (70_reset_and_hazards.md R333; log 8). -/
def State.status (s : State) (c : Chan) : W32 :=
  let seeded := (s.engine c).seededFlag
  if (s.port c).busy then
    let free := Config.busyFlags c s.readLog.length
    packStatus seeded (free.extractLsb' 1 4) (free.getLsbD 0) true
  else packStatus seeded (s.port c).err.number (s.port c).ok false

end Sys2Proof.Machine
end

