-- ==== Sys2Proof/Machine/HostPort.lean ====
section
/-! DEFINITION. The host's accesses (20_memory.md R83, R87, 70_reset_and_hazards.md R333) and the reset input (R330). -/

namespace Sys2Proof.Machine

/-- A host write of `w` to `CMD[c]` while the channel is idle (10_state.md R43, 30_encoding.md R102, R104). -/
def startCommand (c : Chan) (w : W32) (s : State) : Host.Outcome State Fault Refusal :=
  match decode c w with
  | .ok i => exec i s
  | .error _ => illegalCommand c s

/-- The register number of `CMD` (20_memory.md R87). -/
def regCmd : Nat := 0x00

/-- The register number of `STATUS` (20_memory.md R87). -/
def regStatus : Nat := 0x01

/-- The argument register a register number names (20_memory.md R87). -/
def argIndex (n : Nat) : Option (Fin 8) :=
  if h : 0x08 ≤ n ∧ n < 0x10 then some ⟨n - 0x08, by omega⟩ else none

/-- The result register a register number names (20_memory.md R87). -/
def resIndex (n : Nat) : Option (Fin 4) :=
  if h : 0x10 ≤ n ∧ n < 0x14 then some ⟨n - 0x10, by omega⟩ else none

/-- What reading register number `n` of an idle channel answers, `STATUS` apart: `ARG`, `RES`, and 0 for the
write-only `CMD` and the reserved numbers (20_memory.md R87). -/
def readRegister (p : Port) (n : Nat) : W64 :=
  match argIndex n with
  | some i => p.arg[i]
  | none =>
    match resIndex n with
    | some j => p.res[j]
    | none => 0#64

/-- What a host read answers: 0 for a refused access, which any but a read of `STATUS` is while `BUSY = 1`, and one
outside a memory is at any time (20_memory.md R83, 70_reset_and_hazards.md R333). -/
def hostRead (c : Chan) (loc : Loc) (s : State) : W64 :=
  let p := s.port c
  if loc = .reg regStatus then zext64 (s.status c)
  else if p.busy then 0#64
  else
    match loc with
    | .reg n => readRegister p n
    | .buf i => if i < s.cfg.maxElems then cellAt c p.epoch p.buf i else 0#64
    | .ibuf i => if i < s.cfg.maxBytes then (inByteAt c p.epoch p.ibuf i).setWidth 64 else 0#64
    | .obuf i => if i < s.cfg.maxBytes then (outByteAt c p.epoch p.obuf i).setWidth 64 else 0#64

/-- A channel's registers and memories after a host write to anything but `CMD`; writes to `STATUS`, `RES`, reserved
numbers and indices outside a memory are dropped (20_memory.md R83, R87, 70_reset_and_hazards.md R333). -/
def writeElement (k : Cfg) (p : Port) (loc : Loc) (v : W64) : Port :=
  match loc with
  | .reg n =>
    match argIndex n with
    | some i => { p with arg := p.arg.set i v }
    | none => p
  | .buf i => if i < k.maxElems then { p with buf := Mem.write p.buf i v } else p
  | .ibuf i => if i < k.maxBytes then { p with ibuf := Mem.write p.ibuf i (v.setWidth 8) } else p
  | .obuf i => if i < k.maxBytes then { p with obuf := Mem.write p.obuf i (v.setWidth 8) } else p

/-- A host write. While `BUSY = 1` it is dropped (70_reset_and_hazards.md R333); to `CMD` it starts a command. -/
def hostWrite (c : Chan) (loc : Loc) (v : W64) (s : State) : Host.Outcome State Fault Refusal :=
  if (s.port c).busy then .next s
  else if loc = .reg regCmd then startCommand c (low32 v) s
  else .next (s.setPort c (writeElement s.cfg (s.port c) loc v))

/-- The reset input (70_reset_and_hazards.md R330, R331): every piece of the block's state at its reset value, the
memories' contents unknown anew; configuration, environment and host are outside the block (log 17). -/
def resetBlock (s : State) : State :=
  { s with
    portF := Port.afterReset (s.portF.epoch + 1) s.portF.frees
    portS := Port.afterReset (s.portS.epoch + 1) s.portS.frees
    fast := Fast.afterReset
    secure := Secure.afterReset }

/-- One action of the host. A read has no effect on the block (20_memory.md R83); the host keeps what it read. -/
def hostAct (a : HostAction) (s : State) : Host.Outcome State Fault Refusal :=
  match a with
  | .write c loc v => hostWrite c loc v s
  | .read c loc => .next { s with readLog := hostRead c loc s :: s.readLog }
  | .reset => .next (resetBlock s)

/-- The host's next action; with none left the block stays as it is (10_state.md R45; log 1). -/
def hostStep (s : State) : Host.Outcome State Fault Refusal :=
  match s.host with
  | [] => .next s
  | a :: rest => hostAct a { s with host := rest }

/-- The host about to write the `nbits`-bit command word `w` to `CMD[S]`, the channel idle (log 1). -/
def placeCommand (s : State) (nbits w : Nat) : State :=
  { s with
    portS := { s.portS with busy := false }
    host := .write .S (.reg regCmd) (BitVec.ofNat 64 (w % 2 ^ nbits % 2 ^ 32)) :: s.host }

end Sys2Proof.Machine
end

