-- ==== Sys2Proof/Machine/Step.lean ====
section
/-! DEFINITION. One step of the machine: the host's next action. -/

namespace Sys2Proof.Machine

/-- One step (10_state.md R40, R45; log 1). -/
def step (s : State) : Host.Outcome State Fault Refusal := hostStep s

/-- The state whose next step writes the command word `w` to `CMD[S]` (log 1). -/
def State.withFetchWord (s : State) (nbits w : Nat) : State := placeCommand s nbits w

end Sys2Proof.Machine
end

