-- ==== Sys2Proof/Safety.lean ====
section
/-! DEFINITION. What counts as a good state and a safe step, and the words the statements are written in. -/

namespace Sys2Proof

/-- The channel that is not `c` (10_state.md R40). -/
def Chan.other : Chan → Chan
  | .F => .S
  | .S => .F

namespace Machine

/-! ### Reading one element -/

/-- The `BUF[c]` cell `i` of a state. -/
def State.cell (s : State) (c : Chan) (i : Nat) : W64 := cellAt c (s.port c).epoch (s.port c).buf i

/-- The `IBUF[c]` byte `i` of a state. -/
def State.inByte (s : State) (c : Chan) (i : Nat) : Byte := inByteAt c (s.port c).epoch (s.port c).ibuf i

/-- The `OBUF[c]` byte `i` of a state. -/
def State.outByte (s : State) (c : Chan) (i : Nat) : Byte := outByteAt c (s.port c).epoch (s.port c).obuf i

/-- Argument `i` of channel `c` as each type of 30_encoding.md R105. -/
def State.argU64 (s : State) (c : Chan) (i : Fin 8) : W64 := Machine.argU64 (s.ctx c) i

/-- Argument `i` read as `u32`. -/
def State.argU32 (s : State) (c : Chan) (i : Fin 8) : W32 := Machine.argU32 (s.ctx c) i

/-- Argument `i` read as `i32`. -/
def State.argI32 (s : State) (c : Chan) (i : Fin 8) : Int := Machine.argI32 (s.ctx c) i

/-- Argument `i` read as `f64`. -/
def State.argF64 (s : State) (c : Chan) (i : Fin 8) : F64 := Machine.argF64 (s.ctx c) i

/-! ### Changing one element -/

/-- The state with one `BUF[c]` cell replaced. -/
def State.setCell (s : State) (c : Chan) (i : Nat) (v : W64) : State :=
  s.putWork c { s.work c with buf := Mem.write (s.work c).buf i v }

/-- The state with one `OBUF[c]` byte replaced. -/
def State.setOut (s : State) (c : Chan) (i : Nat) (v : Byte) : State :=
  s.putWork c { s.work c with obuf := Mem.write (s.work c).obuf i v }

/-- The state with the `OBUF[c]` bytes from `i` on replaced. -/
def State.setOuts (s : State) (c : Chan) : Nat → List Byte → State
  | _, [] => s
  | i, b :: bs => State.setOuts (s.setOut c i b) c (i + 1) bs

/-- The state with the `BUF[c]` cells `i` and `j` exchanged. -/
def State.swapped (s : State) (c : Chan) (i j : Nat) : State :=
  (s.setCell c i (s.cell c j)).setCell c j (s.cell c i)

/-! ### The words an engine delivers -/

/-- The word the next draw on channel `c` returns (40_bounded_sampler.md R120). -/
def State.word (s : State) (c : Chan) : W32 := (drawEngine s.cfg (s.engine c) (s.env c)).1

/-- The state after one draw on channel `c` (40_bounded_sampler.md R120). -/
def State.advance (s : State) (c : Chan) : State :=
  s.putWork c { s.work c with
    engine := (drawEngine s.cfg (s.engine c) (s.env c)).2.1
    env := (drawEngine s.cfg (s.engine c) (s.env c)).2.2 }

/-- The state after `n` draws on channel `c`. -/
def State.advanceBy (s : State) (c : Chan) : Nat → State
  | 0 => s
  | n + 1 => (State.advanceBy s c n).advance c

/-- The word that draw number `n` on channel `c` returns, the next one being number 0. -/
def State.wordAt (s : State) (c : Chan) (n : Nat) : W32 := (s.advanceBy c n).word c

/-- The uniform float of draw number `n` (40_bounded_sampler.md R121). -/
def State.uniformAt (s : State) (c : Chan) (n : Nat) : F64 := uniformOf (s.wordAt c n)

/-- Which raw words a bounded draw accepts, in whole numbers: `(x * bound) mod 2^32 >= 2^32 mod bound`
(40_bounded_sampler.md R125 (c)). -/
def Accepts (bound x : Nat) : Prop := 2 ^ 32 % bound ≤ x * bound % 2 ^ 32

/-- What a bounded draw returns and leaves, said without its loop (40_bounded_sampler.md R122, R123): nothing is drawn
for bound 0; else the words before the first accepted one are discarded and the accepted one is scaled. Only words the
model's loop gets to see count (log 7). -/
def Sampled (c : Chan) (bound : W32) (s : State) (v : W32) (t : State) : Prop :=
  (bound = 0#32 ∧ v = 0#32 ∧ t = s) ∨
  (bound ≠ 0#32 ∧ ∃ n, n ≤ s.cfg.fuel ∧
    (∀ j, j < n → ¬ Accepts bound.toNat (s.wordAt c j).toNat) ∧ Accepts bound.toNat (s.wordAt c n).toNat ∧
    v = BitVec.ofNat 32 ((s.wordAt c n).toNat * bound.toNat / 2 ^ 32) ∧ t = s.advanceBy c (n + 1))

/-- Fisher-Yates on `base .. base + n`, downward: each step exchanges cell `base + i` with cell `base + v`, `v` a bounded
draw below `i + 1` (43_distribution.md R206, R207). -/
def ShuffledFrom (c : Chan) (base : Nat) : Nat → State → State → Prop
  | 0, s, t => t = s
  | n + 1, s, t => ∃ v u, Sampled c (BitVec.ofNat 32 (n + 2)) s v u ∧
      ShuffledFrom c base n (u.swapped c (base + (n + 1)) (base + v.toNat)) t

/-- `n` dice of `sides` sides, each a bounded draw plus 1, with their sum modulo 2^32 (43_distribution.md R210). -/
def DiceRolled (c : Chan) (sides : W32) : Nat → State → W32 → State → Prop
  | 0, s, sum, t => sum = 0#32 ∧ t = s
  | n + 1, s, sum, t => ∃ v u rest, Sampled c sides s v u ∧ DiceRolled c sides n u rest t ∧ sum = v + 1#32 + rest

/-- The placeholders of the pattern language with their character sets (43_distribution.md R213). -/
def placeholders (k : Cfg) : List (Byte × List Byte) :=
  [(0x58#8, k.upper), (0x78#8, k.lower), (0x39#8, k.digit), (0x41#8, k.alnum), (0x21#8, k.symbol)]

/-- The pattern of `IBUF[c]` has ended at `p` (20_memory.md R82). -/
def PatternEnds (c : Chan) (s : State) (p : Nat) : Prop := s.cfg.maxBytes ≤ p ∨ s.inByte c p = 0#8

/-- The pattern language of 43_distribution.md R213 as a relation: from pattern position `p` and output position `o`,
with room for `room` characters, the state `s` becomes `t` and the output ends at `o'`. -/
inductive Formatted (c : Chan) : (room p o : Nat) → (s t : State) → (o' : Nat) → Prop
  /-- The output is full. -/
  | full (p o : Nat) (s : State) : Formatted c 0 p o s s o
  /-- The pattern has ended. -/
  | ended (room p o : Nat) (s : State) : PatternEnds c s p → Formatted c (room + 1) p o s s o
  /-- A backslash at the end of the pattern emits nothing. -/
  | trailing (room p o : Nat) (s : State) : ¬ PatternEnds c s p → s.inByte c p = 0x5C#8 → PatternEnds c s (p + 1) →
      Formatted c (room + 1) p o s s o
  /-- A backslash makes the next character a literal. -/
  | escaped (room p o : Nat) (s t : State) (o' : Nat) : ¬ PatternEnds c s p → s.inByte c p = 0x5C#8 →
      ¬ PatternEnds c s (p + 1) → Formatted c room (p + 2) (o + 1) (s.setOut c o (s.inByte c (p + 1))) t o' →
      Formatted c (room + 1) p o s t o'
  /-- A character that is neither a backslash nor a placeholder is copied. -/
  | copied (room p o : Nat) (s t : State) (o' : Nat) : ¬ PatternEnds c s p → s.inByte c p ≠ 0x5C#8 →
      s.inByte c p ∉ (placeholders s.cfg).map Prod.fst →
      Formatted c room (p + 1) (o + 1) (s.setOut c o (s.inByte c p)) t o' → Formatted c (room + 1) p o s t o'
  /-- A placeholder is replaced by a bounded draw from its set. -/
  | drawn (room p o : Nat) (s t u : State) (o' : Nat) (set : List Byte) (v : W32) : ¬ PatternEnds c s p →
      (s.inByte c p, set) ∈ placeholders s.cfg → Sampled c (BitVec.ofNat 32 set.length) s v u →
      Formatted c room (p + 1) (o + 1) (u.setOut c o (set.getD v.toNat 0#8)) t o' → Formatted c (room + 1) p o s t o'

/-- Byte number `n` of the secure byte stream from a state (42_secure_engine.md R173). -/
def State.streamByte (s : State) (n : Nat) : Byte := byteOf (s.wordAt .S (n / 4)) (n % 4)

/-- The weight in cell `i` (43_distribution.md R205). -/
def State.weight (s : State) (c : Chan) (i : Nat) : Int := asI32 (low32 (s.cell c i))

/-- The sum of the positive weights of the cells below `i` (43_distribution.md R205). -/
def State.weightBelow (s : State) (c : Chan) : Nat → Int
  | 0 => 0
  | i + 1 => State.weightBelow s c i + max 0 (s.weight c i)

/-- A coordinate of a candidate from draw number `n`, `2 U - 1` (44_geometry.md R261). -/
def State.signedAt (s : State) (c : Chan) (n : Nat) : F64 := fsub (fmul fTwo (s.uniformAt c n)) fOne

/-- `d2` of candidate `i` of the sphere-volume loop (44_geometry.md R261). -/
def State.ballNorm (s : State) (c : Chan) (i : Nat) : F64 :=
  fadd (fadd (fmul (s.signedAt c (3 * i)) (s.signedAt c (3 * i))) (fmul (s.signedAt c (3 * i + 1)) (s.signedAt c (3 * i + 1))))
    (fmul (s.signedAt c (3 * i + 2)) (s.signedAt c (3 * i + 2)))

/-- Candidate `i` lies in the unit ball and is not its centre (44_geometry.md R261). -/
def State.ballAccepts (s : State) (c : Chan) (i : Nat) : Bool :=
  fle (s.ballNorm c i) fOne && flt fZero (s.ballNorm c i)

/-- `s` of candidate `i` of the sphere-surface loop (44_geometry.md R262). -/
def State.diskNorm (s : State) (c : Chan) (i : Nat) : F64 :=
  fadd (fmul (s.signedAt c (2 * i)) (s.signedAt c (2 * i))) (fmul (s.signedAt c (2 * i + 1)) (s.signedAt c (2 * i + 1)))

/-- Twice the signed area of the fan triangle `k` of the polygon in `BUF[c]` (44_geometry.md R260). -/
def State.fanCross (s : State) (c : Chan) (k : Nat) : F64 :=
  fsub (fmul (fsub (s.cell c (2 * k)) (s.cell c 0)) (fsub (s.cell c (2 * k + 3)) (s.cell c 1)))
    (fmul (fsub (s.cell c (2 * k + 2)) (s.cell c 0)) (fsub (s.cell c (2 * k + 1)) (s.cell c 1)))

/-- The areas of the fan triangles `1 .. k`, added in order (44_geometry.md R260). -/
def State.fanSum (s : State) (c : Chan) : Nat → F64
  | 0 => fZero
  | k + 1 => fadd (State.fanSum s c k) (fmul fHalf (fabs (s.fanCross c (k + 1))))

/-- `r` is the binary64 value nearest to the real number `x` (in units of `2^-1074`): none is nearer, and of two equally
near ones `r` has the even fraction (00_scope.md R12). -/
def IsNearest (x : ℝ) (r : F64) : Prop :=
  ∀ y : F64, isFinite y = true →
    |(units r : ℝ) - x| ≤ |(units y : ℝ) - x| ∧
    (|(units r : ℝ) - x| = |(units y : ℝ) - x| → units y ≠ units r → r.getLsbD 0 = false)

/-- The magnitude, in units of `2^-1074`, from which rounding to nearest gives an infinity: `2^1024 - 2^970`
(00_scope.md R12). -/
def overflowUnits : ℝ := (2 ^ 54 - 1) * 2 ^ 2044

/-- `r` is the rounded result for the exact value `x`: an infinity of its sign when it is too large, else the nearest
value (00_scope.md R12). -/
def Rounds (x : ℝ) (r : F64) : Prop :=
  (|x| < overflowUnits → isFinite r = true ∧ IsNearest x r) ∧
  (overflowUnits ≤ |x| → isInf r = true ∧ (signBit r = true ↔ x < 0))

/-! ### What a command leaves unchanged -/

/-- Nothing outside channel `c` changed (10_state.md R40). -/
def OnlyChannel (c : Chan) (s t : State) : Prop :=
  t.cfg = s.cfg ∧ t.host = s.host ∧ t.readLog = s.readLog ∧ t.port c.other = s.port c.other ∧
  t.engine c.other = s.engine c.other ∧ t.env c.other = s.env c.other

/-- Channel `c`'s arguments and `IBUF` did not change (10_state.md R41, 20_memory.md R82). -/
def InputsKept (c : Chan) (s t : State) : Prop :=
  (t.port c).arg = (s.port c).arg ∧ (t.port c).epoch = (s.port c).epoch ∧ ∀ i, t.inByte c i = s.inByte c i

/-- Every cell of `BUF[c]` reads as before. -/
def BufKept (c : Chan) (s t : State) : Prop := ∀ i, t.cell c i = s.cell c i

/-- Every byte of `OBUF[c]` reads as before. -/
def OutKept (c : Chan) (s t : State) : Prop := ∀ i, t.outByte c i = s.outByte c i

/-- Channel `c`'s engine and environment are those `n` draws on. -/
def DrewWords (c : Chan) (n : Nat) (s t : State) : Prop :=
  t.engine c = (s.advanceBy c n).engine c ∧ t.env c = (s.advanceBy c n).env c

/-- The outcome registers of channel `c` are those of a completion (60_exceptions.md R304). -/
def Completed (c : Chan) (ok : Bool) (err : Err) (t : State) : Prop :=
  (t.port c).ok = ok ∧ (t.port c).err = err ∧ (t.port c).busy = false

/-- A register holds a float result: its bits, or for a NaN some NaN pattern (00_scope.md R12, 93 U5). -/
def HoldsFloat (r : W64) (x : F64) : Prop := if isNaN x then isNaN r = true else r = x

/-- Success with the floats `x`, `y`, `z` in the first three result registers (0 where none is meant), after `n` draws,
nothing else changed. -/
def SampledFloats (c : Chan) (n : Nat) (x y z : F64) (s t : State) : Prop :=
  HoldsFloat (t.port c).res[0] x ∧ HoldsFloat (t.port c).res[1] y ∧ HoldsFloat (t.port c).res[2] z ∧
  (t.port c).res[3] = 0#64 ∧ Completed c true .none t ∧ DrewWords c n s t ∧
  OnlyChannel c s t ∧ InputsKept c s t ∧ BufKept c s t ∧ OutKept c s t

/-- Channel `c`'s last command did nothing but report the failure `e` with sentinel `v`: `fail(e, v)`
(00_scope.md R10, 60_exceptions.md R304). -/
def OnlyReports (c : Chan) (e : Err) (v : W64) (s t : State) : Prop :=
  (t.port c).res = #v[v, 0#64, 0#64, 0#64] ∧ Completed c false e t ∧ t.engine c = s.engine c ∧ t.env c = s.env c ∧
  (t.port c).arg = (s.port c).arg ∧ (t.port c).epoch = (s.port c).epoch ∧ (t.port c).buf = (s.port c).buf ∧
  (t.port c).ibuf = (s.port c).ibuf ∧ (t.port c).obuf = (s.port c).obuf ∧ OnlyChannel c s t

/-- The command completes with `fail(e, v)` and no other effect. -/
def Fails (i : Instr) (e : Err) (v : W64) (s : State) : Prop :=
  ∃ t, exec i s = .next t ∧ OnlyReports i.chan e v s t

/-- The command completes with `done(v0, v1, v2, v3)` after the changes that make `u` of the state before it: nothing
else differs from `u` (00_scope.md R10). -/
def Succeeds (i : Instr) (v0 v1 v2 v3 : W64) (u s : State) : Prop :=
  exec i s = .next (u.complete i.chan (.done v0 v1 v2 v3))

/-- The command completes with the floats `x`, `y`, `z` in its first three result registers after `n` draws. -/
def Samples (i : Instr) (n : Nat) (x y z : F64) (s : State) : Prop :=
  ∃ t, exec i s = .next t ∧ SampledFloats i.chan n x y z s t

/-! ### Words of the statements about encoding, failures, stores and requests -/

/-- The illegal command words, as 30_encoding.md R104 lists them. -/
def IllegalWord (c : Chan) (w : W32) : Prop :=
  256 ≤ w.toNat ∨ w.toNat = 0 ∨ (0x06 ≤ w.toNat ∧ w.toNat ≤ 0x0F) ∨ (0x1D ≤ w.toNat ∧ w.toNat ≤ 0x1F) ∨
  0x2B ≤ w.toNat ∨ (c = .F ∧ (w.toNat = 0x05 ∨ w.toNat = 0x1B ∨ w.toNat = 0x1C))

/-- The failure codes each command can complete with (60_exceptions.md R302). -/
def failureCodes : Instr → List Err
  | .seed _ => []
  | .nextU32 _ => []
  | .nextFloat _ => []
  | .bounded _ => []
  | .zeroize c => if c = .F then [.illegal] else []
  | .range _ => []
  | .floatRange _ => []
  | .boolean _ => []
  | .booleanWeighted _ => []
  | .weightedIndex _ => [.size, .numeric]
  | .shuffle _ => [.size]
  | .shuffleRange _ => [.size]
  | .gaussian _ => [.numeric]
  | .dice _ => [.numeric]
  | .pick _ => [.size]
  | .patternFormat _ => [.size]
  | .randomBytes c => if c = .F then [.illegal] else [.size]
  | .uuidV4 c => if c = .F then [.illegal] else []
  | .pointInCircle _ => [.numeric]
  | .pointOnCircle _ => [.numeric]
  | .pointInRect _ => [.numeric]
  | .pointInRing _ => [.numeric]
  | .pointInEllipse _ => [.numeric]
  | .pointInTriangle _ => [.numeric]
  | .pointInArc _ => [.numeric]
  | .pointInPolygon _ => [.size, .numeric]
  | .pointInSphere _ => [.numeric, .retry]
  | .pointOnSphere _ => [.numeric, .retry]
  | .pointInBox _ => [.numeric]

/-- The sentinel a failing command leaves in `RES0`: 0, except for `GAUSSIAN` with a finite mean and a finite
non-positive deviation (60_exceptions.md R304, 43_distribution.md R208). -/
def sentinel (i : Instr) (s : State) : W64 :=
  match i with
  | .gaussian c =>
    if isFinite (s.argF64 c 0) ∧ isFinite (s.argF64 c 1) then sext64 (truncSat (s.argF64 c 0)) else 0#64
  | _ => 0#64

/-- The `BUF` cells a command may store to (20_memory.md R86). -/
def bufStores (i : Instr) (s : State) (a : Nat) : Prop :=
  match i with
  | .shuffle c => (a : Int) < s.argI32 c 0
  | .shuffleRange c => s.argI32 c 0 ≤ a ∧ (a : Int) ≤ s.argI32 c 1
  | _ => False

/-- The `OBUF` bytes a command may store to (20_memory.md R86). -/
def outStores (i : Instr) (s : State) (a : Nat) : Prop :=
  match i with
  | .patternFormat c => (a : Int) ≤ s.argI32 c 0 - 1
  | .randomBytes .S => (a : Int) ≤ s.argI32 .S 0 - 1
  | .uuidV4 .S => a ≤ 36
  | _ => False

/-- The requests of seeding the secure engine from the environment (42_secure_engine.md R168, 60_exceptions.md R309). -/
def SeedRequests (r : List Request) : Prop :=
  (∃ e ts, r = [.entropy (some e), .timestamp ts]) ∨ (∃ f ts, r = [.entropy none, .fallbackSeed f, .timestamp ts])

/-- The text index of the high digit of byte `k` of a UUID, hyphens counted (43_distribution.md R215). -/
def uuidColumn (k : Nat) : Nat :=
  2 * k + (if 4 ≤ k then 1 else 0) + (if 6 ≤ k then 1 else 0) + (if 8 ≤ k then 1 else 0) + (if 10 ≤ k then 1 else 0)

/-- A character of `[0-9a-f]`. -/
def LowerHex (b : Byte) : Prop := (0x30 ≤ b.toNat ∧ b.toNat ≤ 0x39) ∨ (0x61 ≤ b.toNat ∧ b.toNat ≤ 0x66)

/-! ### Good states -/

/-- The fast engine's invariant (10_state.md R48). -/
abbrev FastGood (k : Cfg) (e : Fast) : Prop :=
  e.seeded = true → e.fi = fIncrement k ∧ e.fi.getLsbD 0 = true

/-- The secure engine's invariants (b), (c) and (e) of 10_state.md R54; (a) is in the type of `CUR`. -/
abbrev SecureGood (k : Cfg) (e : Secure) : Prop :=
  (e.seeded = true →
    e.sm[0] = k.cc[0] ∧ e.sm[1] = k.cc[1] ∧ e.sm[2] = k.cc[2] ∧ e.sm[3] = k.cc[3] ∧
    (e.cur ≠ 16 → e.blk = chachaBlock (withCounter e.sm (e.ctr - 1#64)))) ∧
  (e.seeded = false →
    e.sm = Vector.replicate 16 0#32 ∧ e.blk = Vector.replicate 16 0#32 ∧ e.cur = 16 ∧ e.bytes = 0#64)

/-- A channel's memories have their canonical form and lie inside their spaces (20_memory.md R80), and a successful
last command left no error code (10_state.md R44). -/
abbrev PortGood (k : Cfg) (p : Port) : Prop :=
  Mem.wf p.buf = true ∧ Mem.wf p.ibuf = true ∧ Mem.wf p.obuf = true ∧
  Mem.within k.maxElems p.buf = true ∧ Mem.within k.maxBytes p.ibuf = true ∧ Mem.within k.maxBytes p.obuf = true ∧
  (p.ok = true → p.err = .none)

/-- The invariant of the machine. -/
abbrev Good (s : State) : Prop :=
  s.cfg.wf = true ∧ FastGood s.cfg s.fast ∧ SecureGood s.cfg s.secure ∧ PortGood s.cfg s.portF ∧ PortGood s.cfg s.portS

/-- A step that is safe: the machine goes on. -/
def StepsOn (s : State) : Prop := ∃ t, step s = .next t

end Machine

end Sys2Proof
end

