-- ==== Sys2Proof/Certificates/Slice0/Obligations.lean ====
section
/-! DEFINITION. The statements for the provers, from the numbered rules of spec/. A statement quantifies over every
state, so over every configuration; where it needs a constraint of 00_scope.md R7 it says so. -/

open Sys2Proof Sys2Proof.Machine

/-! ### Encoding -/

/-- 30_encoding.md R101, R102, R103: a word written to `CMD[c]` decodes to a command exactly when the command is legal
on its channel and its encoding is that word on that channel. Both directions: no bit is dropped, no word has two
meanings, nothing else decodes. -/
def Obligations.DecodeExactlyInvertsEncode : Prop :=
  ∀ (c : Chan) (w : W32) (i : Instr), decode c w = .ok i ↔ i.wellFormed = true ∧ encode i = (c, w)

/-- 30_encoding.md R104: exactly the listed words are illegal, and writing one to an idle channel's `CMD` only reports
`ERR_ILLEGAL`. That `CMD` takes the low 32 bits of a host's value (log 14), and that `exec` of an `S`-only command on
channel `F`, a term no word decodes to, only reports too (log 13), are the model's choices. -/
def Obligations.IllegalWordOnlyReports : Prop :=
  (∀ (c : Chan) (w : W32), (∃ e, decode c w = .error e) ↔ IllegalWord c w) ∧
  (∀ (s : State) (c : Chan) (v : W64) (rest : List HostAction), s.host = .write c (.reg 0x00) v :: rest →
    (s.port c).busy = false → IllegalWord c (low32 v) →
    ∃ t, step s = .next t ∧ OnlyReports c .illegal 0#64 { s with host := rest } t) ∧
  (∀ (s : State) (i : Instr), i.wellFormed = false → i.chan = .F ∧ Fails i .illegal 0#64 s)

/-- 30_encoding.md R102, with words of 95_test_vectors.md V-E1 and section 3: a word of each family written out. -/
def Obligations.DecodedWordsOfEachFamily : Prop :=
  decode .F 0x00000001#32 = .ok (.seed .F) ∧ decode .S 0x00000002#32 = .ok (.nextU32 .S) ∧
  decode .S 0x00000005#32 = .ok (.zeroize .S) ∧ decode .F 0x00000010#32 = .ok (.range .F) ∧
  decode .F 0x00000017#32 = .ok (.gaussian .F) ∧ decode .S 0x0000001B#32 = .ok (.randomBytes .S) ∧
  decode .S 0x0000001C#32 = .ok (.uuidV4 .S) ∧ decode .F 0x00000020#32 = .ok (.pointInCircle .F) ∧
  decode .F 0x0000002A#32 = .ok (.pointInBox .F)

/-- 10_state.md R43: a step whose host action writes a word to an idle channel's `CMD` is exactly the command that the
word decodes to, on the state with that action taken from the host's list; in particular where the word was placed by
`withFetchWord`. The host's list and the choice of channel `S` (log 1) and that `CMD` takes the low 32 bits of a host's
value (log 14) are the model's choices. -/
def Obligations.StepRunsDecodedCommand : Prop :=
  (∀ (s : State) (c : Chan) (v : W64) (rest : List HostAction) (i : Instr),
    s.host = .write c (.reg 0x00) v :: rest → (s.port c).busy = false → decode c (low32 v) = .ok i →
    step s = exec i { s with host := rest }) ∧
  (∀ (s : State) (w : W32) (i : Instr), decode .S w = .ok i →
    step (s.withFetchWord 32 w.toNat) = exec i { s with portS := { s.portS with busy := false } })

/-! ### Floats -/

/-- 00_scope.md R12: on finite operands the five rounded operations give the float nearest to the exact real result,
ties to even, and an infinity of the right sign when that is too large. Values are in units of `2^-1074`. -/
def Obligations.FloatOpsCorrectlyRounded : Prop :=
  ∀ a b : F64, isFinite a = true → isFinite b = true →
    Rounds ((units a : ℝ) + units b) (fadd a b) ∧ Rounds ((units a : ℝ) - units b) (fsub a b) ∧
    Rounds ((units a : ℝ) * units b / 2 ^ 1074) (fmul a b) ∧
    (units b ≠ 0 → Rounds ((units a : ℝ) / units b * 2 ^ 1074) (fdiv a b)) ∧
    (0 ≤ units a → Rounds (Real.sqrt ((units a : ℝ) * 2 ^ 1074)) (fsqrt a))

/-- 00_scope.md R12, R13: special operands of the float operations, the signs of zero results, and comparisons. -/
def Obligations.FloatSpecialOperands : Prop :=
  ∀ a b : F64,
    ((isNaN a || isNaN b) = true → isNaN (fadd a b) = true ∧ isNaN (fsub a b) = true ∧ isNaN (fmul a b) = true ∧
      isNaN (fdiv a b) = true ∧ flt a b = false ∧ fle a b = false ∧ feq a b = false) ∧
    (isNaN a = true → isNaN (fsqrt a) = true) ∧
    (isInf a = true → isInf b = true → isNaN (fdiv a b) = true ∧
      (signBit a = signBit b → isNaN (fsub a b) = true ∧ fadd a b = a) ∧
      (signBit a ≠ signBit b → isNaN (fadd a b) = true ∧ fsub a b = a)) ∧
    (isInf a = true → isFinite b = true → fadd a b = a ∧ fadd b a = a ∧ fsub a b = a ∧
      (units b = 0 → isNaN (fmul a b) = true ∧ isNaN (fmul b a) = true) ∧
      (units b ≠ 0 → isInf (fmul a b) = true ∧ isInf (fmul b a) = true ∧
        signBit (fmul a b) = (signBit a != signBit b) ∧ signBit (fmul b a) = (signBit a != signBit b)) ∧
      isInf (fdiv a b) = true ∧ signBit (fdiv a b) = (signBit a != signBit b) ∧
      units (fdiv b a) = 0 ∧ signBit (fdiv b a) = (signBit a != signBit b)) ∧
    (isFinite a = true → units b = 0 → (units a = 0 → isNaN (fdiv a b) = true) ∧
      (units a ≠ 0 → isInf (fdiv a b) = true ∧ signBit (fdiv a b) = (signBit a != signBit b))) ∧
    (isFinite a = true → isFinite b = true →
      (units a + units b = 0 → fadd a b = if signBit a && signBit b then 0x8000000000000000#64 else 0#64) ∧
      signBit (fmul a b) = (signBit a != signBit b)) ∧
    (units a = 0 → fsqrt a = a) ∧ (units a < 0 → isNaN (fsqrt a) = true) ∧
    (isInf a = true → signBit a = false → fsqrt a = a) ∧
    (signBit (fabs a) = false ∧ magBits (fabs a) = magBits a) ∧
    (isNaN a = false → isNaN b = false → (flt a b = true ↔ units a < units b) ∧ (fle a b = true ↔ units a ≤ units b) ∧
      (feq a b = true ↔ units a = units b))

/-- 00_scope.md R14, properties P1 to P4 of `CFG.NUM` (the functions are free otherwise, logs 9 and 10). That the 0 of
P3 is a zero of either sign, for either zero as operand, is the model's choice (log 9). -/
def Obligations.NumFunctionsKeepTheirProperties : Prop :=
  (∀ x : F64, isFinite x = true → flt fZero x = true → fle x fOne = true →
    isFinite (fln x) = true ∧ fle (fln x) fZero = true) ∧
  fln fOne = fZero ∧
  (∀ x : F64, isFinite x = true → fle fMinusOne (fcos x) = true ∧ fle (fcos x) fOne = true ∧
    fle fMinusOne (fsin x) = true ∧ fle (fsin x) fOne = true) ∧
  (∀ x : F64, fle fZero x = true → fle x fOne = true → fle fZero (fcbrt x) = true ∧ fle (fcbrt x) fOne = true) ∧
  feq (fcbrt fZero) fZero = true ∧ fcbrt fOne = fOne ∧
  (∀ x y : F64, isFinite x = true → isFinite y = true → flt fZero y = true →
    isFinite (ffmod x y) = true ∧ units (ffmod x y) = (units x).tmod (units y) ∧
    |units (ffmod x y)| < units y ∧ (units (ffmod x y) = 0 ∨ signBit (ffmod x y) = signBit x))

/-! ### Reset -/

/-- 10_state.md R59: what the reset input leaves, whatever the state before it, a busy channel included: every register
and every engine at the table's value, and no element of a memory with a known value. -/
def Obligations.ResetLeavesTableValues : Prop :=
  ∀ (s : State) (rest : List HostAction), s.host = .reset :: rest →
    ∃ t, step s = .next t ∧ t.cfg = s.cfg ∧ t.host = rest ∧
      (∀ c, t.env c = s.env c ∧ (∀ i : Fin 8, (t.port c).arg[i] = 0#64) ∧ (∀ i : Fin 4, (t.port c).res[i] = 0#64) ∧
        (t.port c).busy = false ∧ (t.port c).ok = false ∧ (t.port c).err = .none ∧ t.status c = 0#32 ∧
        (∀ a, Mem.written (t.port c).buf a = none ∧ Mem.written (t.port c).ibuf a = none ∧
          Mem.written (t.port c).obuf a = none)) ∧
      t.fast.fs = 0#64 ∧ t.fast.fi = 0#64 ∧ t.fast.seeded = false ∧
      (∀ i : Fin 16, t.secure.sm[i] = 0#32 ∧ t.secure.blk[i] = 0#32) ∧ t.secure.cur = 16 ∧ t.secure.bytes = 0#64 ∧
      t.secure.seeded = false

/-- The state after reset meets the invariant `Good` (10_state.md R48, R54, R59, 20_memory.md R80); its configuration
is the reference one, the model's choice (log 2). -/
def Obligations.ResetStateIsGood : Prop := Good State.reset

/-! ### The whole machine -/

/-- 10_state.md R48 and R54 (b), (c), (e), R44, 20_memory.md R80: every step keeps the invariant `Good`: the fast
increment is odd and is the one seeding gives; the secure matrix keeps its constants, an unread block is the block of
the counter before it, an unseeded secure engine is all zero; memories stay canonical and inside their spaces; a
successful completion has no error code. -/
def Obligations.StepKeepsGood : Prop := ∀ s t : State, Good s → step s = .next t → Good t

/-- 60_exceptions.md R300, 20_memory.md R80: under a configuration that meets 00_scope.md R7 no step faults or is
refused, from any state: no command forms an index outside a memory. -/
def Obligations.EveryStepGoesOn : Prop := ∀ s : State, s.cfg.wf = true → StepsOn s

/-- 60_exceptions.md R304: what every failure leaves, and that no command's completion depends on the outcome registers
an earlier one left. -/
def Obligations.FailureLeavesEverythingElse : Prop :=
  (∀ (i : Instr) (s t : State), exec i s = .next t → (t.port i.chan).busy = false → (t.port i.chan).ok = false →
    (t.port i.chan).res = #v[sentinel i s, 0#64, 0#64, 0#64] ∧ (t.port i.chan).err ≠ .none ∧
    ((t.port i.chan).err ≠ .retry → OnlyReports i.chan (t.port i.chan).err (sentinel i s) s t) ∧
    ((t.port i.chan).err = .retry → OnlyChannel i.chan s t ∧ InputsKept i.chan s t ∧ BufKept i.chan s t ∧
      OutKept i.chan s t ∧
      ((i = .pointInSphere i.chan ∧ DrewWords i.chan (3 * s.cfg.retryCap) s t) ∨
        (i = .pointOnSphere i.chan ∧ DrewWords i.chan (2 * s.cfg.retryCap) s t)))) ∧
  (∀ (i : Instr) (s t : State) (r : Vector W64 4) (ok : Bool) (e : Err), exec i s = .next t →
    (t.port i.chan).busy = false →
    exec i (s.setPort i.chan { s.port i.chan with res := r, ok := ok, err := e }) = .next t)

/-- 60_exceptions.md R302, 10_state.md R44: a command fails only with the codes listed for it, and a completion leaves
`OK = 1` exactly when `ERR = 0`. -/
def Obligations.FailureCodesOfEachCommand : Prop :=
  ∀ (i : Instr) (s t : State), exec i s = .next t → (t.port i.chan).busy = false →
    ((t.port i.chan).ok = false → (t.port i.chan).err ∈ failureCodes i) ∧
    ((t.port i.chan).ok = true ↔ (t.port i.chan).err = .none)

/-- The frame of all 29 commands (10_state.md R40, R41, 20_memory.md R82): nothing outside the command's channel
changes, nor do its arguments and its `IBUF`. -/
def Obligations.FrameOutsideChannelAndInputs : Prop :=
  ∀ (i : Instr) (s t : State), exec i s = .next t → OnlyChannel i.chan s t ∧ InputsKept i.chan s t

/-- The frame of all 29 commands in memory (20_memory.md R82, R86): `BUF` and `OBUF` change only where R86 lets the
command store, not at all where it fails, and for `PATTERN_FORMAT` not beyond the terminator it reports. -/
def Obligations.StoresStayWithinNamedElements : Prop :=
  ∀ (i : Instr) (s t : State), exec i s = .next t →
    (∀ a, ¬ bufStores i s a → t.cell i.chan a = s.cell i.chan a) ∧
    (∀ a, ¬ outStores i s a → t.outByte i.chan a = s.outByte i.chan a) ∧
    ((t.port i.chan).busy = false → (t.port i.chan).ok = false → BufKept i.chan s t ∧ OutKept i.chan s t) ∧
    ((t.port i.chan).busy = false → i = .patternFormat i.chan →
      ∀ a, (t.port i.chan).res[1].toNat < a → t.outByte i.chan a = s.outByte i.chan a)

/-- The frame of the engines (40_bounded_sampler.md R120, 42_secure_engine.md R174): every command but `SEED` and
`ZEROIZE` changes its channel's engine and environment only by a number of draws; so does one that a redraw loop leaves
`BUSY`, where the model's choice is which number (logs 7 and 21). -/
def Obligations.EngineChangesOnlyByDraws : Prop :=
  ∀ (i : Instr) (s t : State), exec i s = .next t → (∀ c, i ≠ .seed c) → i ≠ .zeroize .S →
    ∃ n, DrewWords i.chan n s t

/-- 10_state.md R40: commands on different channels have the same result in either order. -/
def Obligations.ChannelsCommute : Prop :=
  ∀ (i j : Instr) (s t u : State), i.chan ≠ j.chan → exec i s = .next t → exec j t = .next u →
    ∃ t', exec j s = .next t' ∧ exec i t' = .next u

/-- 60_exceptions.md R309: the complete list of the requests a command makes of the environment: those of a draw on
each channel, those of `SEED`, and for every other command those of its draws. -/
def Obligations.EnvironmentRequests : Prop :=
  (∀ s : State,
    (s.fast.seeded = true → (s.advance .F).envF = s.envF) ∧
    (s.fast.seeded = false → ∃ a, (s.advance .F).envF.log = s.envF.log ++ [.timeSeed a]) ∧
    (s.secure.seeded = true → s.secure.bytes < s.cfg.reseedThreshold → (s.advance .S).envS = s.envS) ∧
    (s.secure.seeded = true → s.cfg.reseedThreshold ≤ s.secure.bytes →
      ∃ a, (s.advance .S).envS.log = s.envS.log ++ [.entropy a]) ∧
    (s.secure.seeded = false → ∃ r, SeedRequests r ∧
      (0#64 < s.cfg.reseedThreshold → (s.advance .S).envS.log = s.envS.log ++ r) ∧
      (s.cfg.reseedThreshold = 0#64 → ∃ a, (s.advance .S).envS.log = s.envS.log ++ r ++ [.entropy a]))) ∧
  (∀ (c : Chan) (s t : State), exec (.seed c) s = .next t →
    (s.argU64 c 0 ≠ 0#64 → t.env c = s.env c) ∧
    (s.argU64 c 0 = 0#64 → c = .F → ∃ a, (t.env c).log = (s.env c).log ++ [.timeSeed a]) ∧
    (s.argU64 c 0 = 0#64 → c = .S → ∃ r, SeedRequests r ∧ (t.env c).log = (s.env c).log ++ r)) ∧
  (∀ (i : Instr) (s t : State), exec i s = .next t → (∀ c, i ≠ .seed c) →
    ∃ n, t.env i.chan = (s.advanceBy i.chan n).env i.chan)

/-! ### The engines -/

/-- 41_fast_engine.md R143, R144, 42_secure_engine.md R169: the first draw of an unseeded engine first runs that
engine's `SEED` with a zero argument, then draws. -/
def Obligations.LazyDrawSeedsFirst : Prop :=
  ∀ (s : State) (c : Chan), (s.engine c).seededFlag = false →
    ∃ e v, seedEngine s.cfg 0#64 (s.engine c) (s.env c) = (e, v) ∧ e.seededFlag = true ∧
      s.word c = (s.putWork c { s.work c with engine := e, env := v }).word c ∧
      s.advance c = (s.putWork c { s.work c with engine := e, env := v }).advance c

/-- 41_fast_engine.md R149: the words of the fast engine after `F_SEED_INTERNAL(v)` depend on `v`, the multiplier, the
seed constant and the shifts alone; under the reference configuration and seed 42 five `RANGE 0, 9` give 6, 4, 7, 5, 7. -/
def Obligations.FastWordsDeterminedBySeed : Prop :=
  (∀ (s s' : State) (v : W64) (e e' : Fast), s.fast = fSeedInternal s.cfg v e → s'.fast = fSeedInternal s'.cfg v e' →
    s.cfg.multiplier = s'.cfg.multiplier → s.cfg.seedConstant = s'.cfg.seedConstant → s.cfg.xshA = s'.cfg.xshA →
    s.cfg.xshB = s'.cfg.xshB → s.cfg.rotSh = s'.cfg.rotSh → ∀ n, s.wordAt .F n = s'.wordAt .F n) ∧
  (∀ (s : State) (e : Fast), s.cfg = referenceCfg → s.fast = fSeedInternal s.cfg 42#64 e →
    (List.range 5).map (fun n => (s.wordAt .F n).toNat * 10 / 2 ^ 32) = [6, 4, 7, 5, 7])

/-- 42_secure_engine.md R175: the words of the secure engine after `S_SEED(v)` with `v` not zero depend on `v` and the
configuration alone until `BYTES` reaches the threshold, whatever the environment. -/
def Obligations.SecureWordsDeterminedBySeed : Prop :=
  ∀ (s s' : State) (v : W64) (x y : Env), v ≠ 0#64 → s.secure = (sSeed s.cfg v x).1 →
    s'.secure = (sSeed s'.cfg v y).1 → s.cfg.cc = s'.cfg.cc → s.cfg.reseedThreshold = s'.cfg.reseedThreshold →
    ∀ n, 4 * n < s.cfg.reseedThreshold.toNat → s.wordAt .S n = s'.wordAt .S n

/-- 41_fast_engine.md R142, R143, R146: `SEED` on channel `F`. The seeded state is `(FI + v) * MULTIPLIER + FI`; a zero
seed takes `v` from one `TIME_SEED()` answer, used as it is. -/
def Obligations.SeedFastSetsState : Prop :=
  ∀ s : State, ∃ v env, exec (.seed .F) s =
      .next ({ s with
        fast := ⟨(fIncrement s.cfg + v) * s.cfg.multiplier + fIncrement s.cfg, fIncrement s.cfg, true⟩
        envF := env }.complete .F (.done 0#64 0#64 0#64 0#64)) ∧
    fIncrement s.cfg = 2#64 * s.cfg.seedConstant + 1#64 ∧
    (s.argU64 .F 0 ≠ 0#64 → v = s.argU64 .F 0 ∧ env = s.envF) ∧
    (s.argU64 .F 0 = 0#64 → (v, env) = askTimeSeed s.envF)

/-- 42_secure_engine.md R165 to R168: `SEED` on channel `S`: which requests are made, what is expanded, and where the
twelve expanded words go. -/
def Obligations.SeedSecureSetsState : Prop :=
  ∀ s : State, ∃ seed ts env o, exec (.seed .S) s =
      .next ({ s with
        secure := ⟨#v[s.cfg.cc[0], s.cfg.cc[1], s.cfg.cc[2], s.cfg.cc[3], o[0], o[1], o[2], o[3], o[4], o[5], o[6], o[7],
          o[8], o[9], o[10], o[11]], Vector.replicate 16 0#32, 16, 0#64, true⟩
        envS := env }.complete .S (.done 0#64 0#64 0#64 0#64)) ∧
    o = chachaBlock #v[s.cfg.cc[0], s.cfg.cc[1], s.cfg.cc[2], s.cfg.cc[3], low32 seed, high32 seed, low32 ts, high32 ts,
      0#32, 0#32, 0#32, 0#32, 0#32, 0#32, 0#32, 0#32] ∧
    (s.argU64 .S 0 ≠ 0#64 → seed = s.argU64 .S 0 ∧ ts = 0#64 ∧ env = s.envS) ∧
    (s.argU64 .S 0 = 0#64 →
      env.log = s.envS.log ++ [.entropy (some seed), .timestamp ts] ∨
      env.log = s.envS.log ++ [.entropy none, .fallbackSeed seed, .timestamp ts])

/-- 42_secure_engine.md R164: block generation. -/
def Obligations.GenerateAdvancesCounter : Prop :=
  ∀ e : Secure, (sGenerate e).blk = chachaBlock e.sm ∧ (sGenerate e).ctr = e.ctr + 1#64 ∧ (sGenerate e).cur = 0 ∧
    (sGenerate e).bytes = e.bytes ∧ (sGenerate e).seeded = e.seeded ∧
    (∀ i : Fin 16, i ≠ 12 → i ≠ 13 → (sGenerate e).sm[i] = e.sm[i]) ∧ (sGenerate e).sm[12] = e.sm[12] + 1#32 ∧
    (sGenerate e).sm[13] = e.sm[13] + (if e.sm[12] = 0xFFFFFFFF#32 then 1#32 else 0#32)

/-- 42_secure_engine.md R171, R172: a secure draw below the reseed threshold: the word at the cursor, of a fresh block
when the old one is used up. -/
def Obligations.SecureDrawBelowThreshold : Prop :=
  ∀ s : State, s.secure.seeded = true → s.secure.bytes < s.cfg.reseedThreshold →
    (∀ h : s.secure.cur.val < 16, s.word .S = s.secure.blk[s.secure.cur.val] ∧ s.advance .S = { s with
      secure := { s.secure with cur := s.secure.cur + 1
                                bytes := BitVec.ofNat 64 (min (s.secure.bytes.toNat + 4) (2 ^ 64 - 1)) } }) ∧
    (s.secure.cur = 16 → s.word .S = (chachaBlock s.secure.sm)[0] ∧ s.advance .S = { s with
      secure := { sGenerate s.secure with
        cur := 1, bytes := BitVec.ofNat 64 (min (s.secure.bytes.toNat + 4) (2 ^ 64 - 1)) } })

/-- 42_secure_engine.md R170: a secure draw at or past the threshold asks for entropy; an answer replaces the key and
the block, `BYTES` restarts, and the word is the first of the new block; a failure changes nothing but the request. -/
def Obligations.ReseedAtThreshold : Prop :=
  ∀ s : State, s.secure.seeded = true → s.cfg.reseedThreshold ≤ s.secure.bytes →
    (∀ e env, askEntropy s.envS = (some e, env) → ∃ k : Secure,
      k = sInstall s.cfg (expand s.cfg (e ^^^ concat32 s.secure.sm[5] s.secure.sm[4]) 0#64) ∧
      s.word .S = (chachaBlock k.sm)[0] ∧
      s.advance .S = { s with secure := { sGenerate k with cur := 1, bytes := 4#64 }, envS := env }) ∧
    (∀ env, askEntropy s.envS = (none, env) → ∃ k : Secure,
      k = (if s.secure.cur = 16 then sGenerate s.secure else s.secure) ∧
      s.word .S = k.blk.getD k.cur.val 0#32 ∧
      s.advance .S = { s with
        secure := { k with cur := k.cur + 1
                           bytes := BitVec.ofNat 64 (min (s.secure.bytes.toNat + 4) (2 ^ 64 - 1)) }
        envS := env })

/-- 42_secure_engine.md R174: `ZEROIZE` on channel `S` leaves the secure engine in its reset state and asks nothing; on
channel `F` it is illegal. That `RES` is all 0 afterwards is the model's reading of R174, whose `done()` writes it and
whose corner cases say it is not cleared (log 26); the `F` clause, on a term no word decodes to, is the model's choice
(log 13). -/
def Obligations.ZeroizeErasesSecureEngine : Prop :=
  ∀ s : State,
    Succeeds (.zeroize .S) 0#64 0#64 0#64 0#64
      { s with secure := ⟨Vector.replicate 16 0#32, Vector.replicate 16 0#32, 16, 0#64, false⟩ } s ∧
    Fails (.zeroize .F) .illegal 0#64 s

/-- 42_secure_engine.md R160, R161: a quarter-round writes only its four words, and quarter-rounds on disjoint words
may be run in either order. -/
def Obligations.QuarterRoundsOnDisjointWordsCommute : Prop :=
  ∀ (x : Words) (a b c d : Fin 16), [a, b, c, d].Nodup →
    (∀ i : Fin 16, i ∉ [a, b, c, d] → (quarterRound x a b c d)[i] = x[i]) ∧
    (∀ a' b' c' d' : Fin 16, [a, b, c, d, a', b', c', d'].Nodup →
      quarterRound (quarterRound x a b c d) a' b' c' d' = quarterRound (quarterRound x a' b' c' d') a b c d)

/-! ### The bounded sampler and the engine commands -/

/-- 40_bounded_sampler.md R123, R124: bound 0 gives 0 with no draw, bound 1 gives 0 with exactly one. -/
def Obligations.BoundZeroAndBoundOne : Prop :=
  ∀ (s : State) (c : Chan),
    (boundedSample (s.ctx c) 0#32 (s.work c) = .ok 0#32 (s.work c) ∧
      boundedSample (s.ctx c) 1#32 (s.work c) = .ok 0#32 ((s.advance c).work c)) ∧
    (s.argU32 c 0 = 0#32 → Succeeds (.bounded c) 0#64 0#64 0#64 0#64 s s) ∧
    (s.argU32 c 0 = 1#32 → Succeeds (.bounded c) 0#64 0#64 0#64 0#64 (s.advance c) s)

/-- 40_bounded_sampler.md R122, R127: `BOUNDED` completes when the engine delivers a word the bound accepts, with the
high half of the product of the first such word, which is below the bound. -/
def Obligations.BoundedReturnsFirstAccepted : Prop :=
  ∀ (s u : State) (c : Chan) (v : W32), Sampled c (s.argU32 c 0) s v u →
    Succeeds (.bounded c) (zext64 v) 0#64 0#64 0#64 u s ∧ (s.argU32 c 0 ≠ 0#32 → v < s.argU32 c 0)

/-- 40_bounded_sampler.md R125: no modulo bias. The threshold is `2^32 mod bound`; the loop's test is acceptance; for
each result exactly `floor(2^32 / bound)` words are accepted and give it; `2^32 mod bound` words, fewer than half, are
rejected; a power of two rejects nothing and takes the top bits; `BOUNDED` draws at least once unless the bound is 0. -/
def Obligations.NoModuloBias : Prop :=
  (∀ bound : W32, bound ≠ 0#32 →
    (rejectThreshold bound).toNat = 2 ^ 32 % bound.toNat ∧ rejectThreshold bound < bound ∧
    (∀ x : W32, (¬ low32 (mul32x32 x bound) < rejectThreshold bound) ↔ Accepts bound.toNat x.toNat) ∧
    (∀ x : W32, (high32 (mul32x32 x bound)).toNat = x.toNat * bound.toNat / 2 ^ 32 ∧
      (high32 (mul32x32 x bound)) < bound) ∧
    (∀ r : Nat, r < bound.toNat →
      Set.ncard {x : W32 | Accepts bound.toNat x.toNat ∧ x.toNat * bound.toNat / 2 ^ 32 = r} = 2 ^ 32 / bound.toNat) ∧
    Set.ncard {x : W32 | ¬ Accepts bound.toNat x.toNat} = 2 ^ 32 % bound.toNat ∧
    2 * (2 ^ 32 % bound.toNat) < 2 ^ 32 ∧
    (∀ k, bound.toNat = 2 ^ k → ∀ x : W32, Accepts bound.toNat x.toNat ∧
      high32 (mul32x32 x bound) = x >>> (32 - k))) ∧
  (∀ (s t : State) (c : Chan), exec (.bounded c) s = .next t →
    ∃ n, DrewWords c n s t ∧ (s.argU32 c 0 = 0#32 → n = 0) ∧ (s.argU32 c 0 ≠ 0#32 → 1 ≤ n))

/-- 40_bounded_sampler.md R126, 70_reset_and_hazards.md R334, with the model's fuel (log 7) at least `2^64`: on channel
`F` the model leaves `BOUNDED` busy exactly when the redraw loop never ends, that is when no word ever is accepted. -/
def Obligations.FastHangIsExact : Prop :=
  ∀ s : State, 2 ^ 64 ≤ s.cfg.fuel →
    ((∃ t, exec (.bounded .F) s = .next t ∧ (t.port .F).busy = true) ↔
      s.argU32 .F 0 ≠ 0#32 ∧ ∀ n, ¬ Accepts (s.argU32 .F 0).toNat (s.wordAt .F n).toNat)

/-- 41_fast_engine.md R147, R148: `NEXT_U32` and `NEXT_FLOAT` draw once and deliver the word and the uniform float. -/
def Obligations.NextCommandsDeliver : Prop :=
  ∀ (s : State) (c : Chan),
    Succeeds (.nextU32 c) (zext64 (s.word c)) 0#64 0#64 0#64 (s.advance c) s ∧
    Succeeds (.nextFloat c) (uniformOf (s.word c)) 0#64 0#64 0#64 (s.advance c) s

/-- 40_bounded_sampler.md R121: the uniform float is `w / 2^32` exactly, in `[0, 1)`, and `+0` exactly for `w = 0`
(`2^1042` units of `2^-1074` are `2^-32`). -/
def Obligations.UniformIsExact : Prop :=
  ∀ w : W32, isFinite (uniformOf w) = true ∧ signBit (uniformOf w) = false ∧
    units (uniformOf w) = (w.toNat : Int) * 2 ^ 1042 ∧ fle fZero (uniformOf w) = true ∧
    fle (uniformOf w) 0x3FEFFFFFFFE00000#64 = true ∧ flt (uniformOf w) fOne = true ∧
    (uniformOf w = fZero ↔ w = 0#32)

/-! ### The Distribution Layer -/

/-- 43_distribution.md R201: `RANGE`, on equal bounds, on the full span, and otherwise. -/
def Obligations.RangeSamplesInclusive : Prop :=
  ∀ (s : State) (c : Chan), ∀ lo hi : Int, lo = min (s.argI32 c 0) (s.argI32 c 1) →
    hi = max (s.argI32 c 0) (s.argI32 c 1) →
    (lo = hi → Succeeds (.range c) (sext64 (asU32 lo)) 0#64 0#64 0#64 s s) ∧
    (hi - lo + 1 = 2 ^ 32 → Succeeds (.range c) 0xFFFFFFFF80000000#64 0#64 0#64 0#64 s s) ∧
    (lo < hi → hi - lo + 1 < 2 ^ 32 → ∀ v u, Sampled c (asU32 (hi - lo + 1)) s v u →
      ∃ r : W32, Succeeds (.range c) (sext64 r) 0#64 0#64 0#64 u s ∧ r.toInt = lo + v.toNat ∧ lo ≤ r.toInt ∧
        r.toInt ≤ hi)

/-- 43_distribution.md R202: `FLOAT_RANGE`. -/
def Obligations.FloatRangeScales : Prop :=
  ∀ (s : State) (c : Chan), ∀ a b : F64,
    (a, b) = (if flt (s.argF64 c 1) (s.argF64 c 0) then (s.argF64 c 1, s.argF64 c 0)
      else (s.argF64 c 0, s.argF64 c 1)) →
    (feq a b = true → Succeeds (.floatRange c) a 0#64 0#64 0#64 s s) ∧
    (feq a b = false → Samples (.floatRange c) 1 (fadd a (fmul (s.uniformAt c 0) (fsub b a))) fZero fZero s)

/-- 43_distribution.md R203: `BOOLEAN`. -/
def Obligations.BooleanCompares : Prop :=
  ∀ (s : State) (c : Chan),
    (isFinite (s.argF64 c 0) = false → Succeeds (.boolean c) 0#64 0#64 0#64 0#64 s s) ∧
    (isFinite (s.argF64 c 0) = true → fle (s.argF64 c 0) fZero = true →
      Succeeds (.boolean c) 0#64 0#64 0#64 0#64 s s) ∧
    (isFinite (s.argF64 c 0) = true → fle fOne (s.argF64 c 0) = true →
      Succeeds (.boolean c) 1#64 0#64 0#64 0#64 s s) ∧
    (isFinite (s.argF64 c 0) = true → flt fZero (s.argF64 c 0) = true → flt (s.argF64 c 0) fOne = true →
      Succeeds (.boolean c) (if flt (s.uniformAt c 0) (s.argF64 c 0) then 1#64 else 0#64) 0#64 0#64 0#64
        (s.advance c) s)

/-- 43_distribution.md R204: `BOOLEAN_WEIGHTED`, the weights halved where their sum would overflow. -/
def Obligations.BooleanWeightedChooses : Prop :=
  ∀ (s : State) (c : Chan), ∀ tw fw : Int, tw = s.argI32 c 0 → fw = s.argI32 c 1 →
    (tw ≤ 0 → Succeeds (.booleanWeighted c) 0#64 0#64 0#64 0#64 s s) ∧
    (0 < tw → fw ≤ 0 → Succeeds (.booleanWeighted c) 1#64 0#64 0#64 0#64 s s) ∧
    (0 < tw → 0 < fw → ∀ (d : Int) v u, d = (if 2 ^ 31 ≤ tw + fw then 2 else 1) →
      Sampled c (asU32 (tw / d + fw / d)) s v u → ((v.toNat : Int) < tw / d + fw / d ∧
      Succeeds (.booleanWeighted c) (if (v.toNat : Int) < tw / d then 1#64 else 0#64) 0#64 0#64 0#64 u s))

/-- 43_distribution.md R205: `WEIGHTED_INDEX`. The index returned is the one whose interval of running sums the draw
falls into; it has a positive weight. -/
def Obligations.WeightedIndexChooses : Prop :=
  ∀ (s : State) (c : Chan), ∀ n : Int, n = s.argI32 c 0 →
    (n ≤ 0 ∨ (s.cfg.maxElems : Int) < n → Fails (.weightedIndex c) .size 0#64 s) ∧
    (0 < n → n ≤ s.cfg.maxElems → 2 ^ 31 ≤ s.weightBelow c n.toNat ∨ s.weightBelow c n.toNat = 0 →
      Fails (.weightedIndex c) .numeric 0#64 s) ∧
    (0 < n → n ≤ s.cfg.maxElems → 0 < s.weightBelow c n.toNat → s.weightBelow c n.toNat < 2 ^ 31 →
      ∀ v u, Sampled c (asU32 (s.weightBelow c n.toNat)) s v u →
        ∃ i : Nat, (i : Int) < n ∧ 0 < s.weight c i ∧ s.weightBelow c i ≤ v.toNat ∧
          (v.toNat : Int) < s.weightBelow c (i + 1) ∧
          Succeeds (.weightedIndex c) (BitVec.ofNat 64 i) 0#64 0#64 0#64 u s)

/-- 43_distribution.md R206, R207: `SHUFFLE` and `SHUFFLE_RANGE` exchange cells downward from the last index, each with
a bounded draw below it; a count or an index outside the memory fails. -/
def Obligations.ShufflesSwapDownward : Prop :=
  ∀ (s : State) (c : Chan),
    ((s.cfg.maxElems : Int) < s.argI32 c 0 → Fails (.shuffle c) .size 0#64 s) ∧
    (s.argI32 c 0 ≤ s.cfg.maxElems → ∀ t, ShuffledFrom c 0 (s.argI32 c 0 - 1).toNat s t →
      Succeeds (.shuffle c) 1#64 0#64 0#64 0#64 t s) ∧
    (s.argI32 c 0 < 0 ∨ s.argI32 c 1 < 0 ∨ (s.cfg.maxElems : Int) ≤ s.argI32 c 0 ∨
      (s.cfg.maxElems : Int) ≤ s.argI32 c 1 → Fails (.shuffleRange c) .size 0#64 s) ∧
    (0 ≤ s.argI32 c 0 → 0 ≤ s.argI32 c 1 → s.argI32 c 0 < s.cfg.maxElems → s.argI32 c 1 < s.cfg.maxElems →
      ∀ t, ShuffledFrom c (s.argI32 c 0).toNat (s.argI32 c 1 - s.argI32 c 0).toNat s t →
        Succeeds (.shuffleRange c) 1#64 0#64 0#64 0#64 t s)

/-- 43_distribution.md R206, R207: whatever a shuffle does, also where a redraw loop does not end, the cells afterwards
are a permutation of the cells before, and no cell outside the named indices moves. -/
def Obligations.ShufflesPermute : Prop :=
  ∀ (s t : State) (c : Chan),
    (exec (.shuffle c) s = .next t → ∃ p : Equiv.Perm Nat,
      (∀ a : Nat, s.argI32 c 0 ≤ a → p a = a) ∧ ∀ a, t.cell c a = s.cell c (p a)) ∧
    (exec (.shuffleRange c) s = .next t → ∃ p : Equiv.Perm Nat,
      (∀ a : Nat, (a : Int) < s.argI32 c 0 ∨ s.argI32 c 1 < a → p a = a) ∧ ∀ a, t.cell c a = s.cell c (p a))

/-- 43_distribution.md R208: `GAUSSIAN`, its failures, its sample by the Box-Muller transform, and that a sample is
never negative. -/
def Obligations.GaussianSamples : Prop :=
  ∀ (s : State) (c : Chan), ∀ m sd u z r : F64, m = s.argF64 c 0 → sd = s.argF64 c 1 →
    u = (if flt (s.uniformAt c 0) s.cfg.gaussU1Min then s.cfg.gaussU1Min else s.uniformAt c 0) →
    z = fmul (fsqrt (fmul fMinusTwo (fln u))) (fcos (fmul fTwoPi (s.uniformAt c 1))) →
    r = (if flt (fadd m (fmul z sd)) fZero then fZero else fadd m (fmul z sd)) →
    (isFinite m = false ∨ isFinite sd = false → Fails (.gaussian c) .numeric 0#64 s) ∧
    (isFinite m = true → isFinite sd = true → fle sd fZero = true →
      Fails (.gaussian c) .numeric (sext64 (truncSat m)) s) ∧
    (isFinite m = true → isFinite sd = true → flt fZero sd = true →
      Succeeds (.gaussian c) (sext64 (truncSat r)) 0#64 0#64 0#64 (s.advanceBy c 2) s ∧ 0 ≤ (truncSat r).toInt)

/-- 43_distribution.md R209: `TRUNC_SAT`. The two bounds are the floats `2^31` and `-2^31`; elsewhere the result is the
value without its fraction. -/
def Obligations.TruncSatConverts : Prop :=
  ∀ r : F64, (isNaN r = true → truncSat r = 0#32) ∧
    (fle 0x41E0000000000000#64 r = true → (truncSat r).toInt = 2 ^ 31 - 1) ∧
    (fle r 0xC1E0000000000000#64 = true → (truncSat r).toInt = -2 ^ 31) ∧
    (flt 0xC1E0000000000000#64 r = true → flt r 0x41E0000000000000#64 = true →
      |(truncSat r).toInt| * 2 ^ 1074 ≤ |units r| ∧ |units r| < (|(truncSat r).toInt| + 1) * 2 ^ 1074 ∧
      (0 ≤ units r → 0 ≤ (truncSat r).toInt) ∧ (units r ≤ 0 → (truncSat r).toInt ≤ 0))

/-- 43_distribution.md R210: `DICE`. -/
def Obligations.DiceSums : Prop :=
  ∀ (s : State) (c : Chan),
    (s.argI32 c 0 ≤ 0 ∨ s.argI32 c 1 ≤ 0 → Fails (.dice c) .numeric 0#64 s) ∧
    (0 < s.argI32 c 0 → 0 < s.argI32 c 1 → ∀ sum t,
      DiceRolled c (asU32 (s.argI32 c 0)) (s.argI32 c 1).toNat s sum t →
      Succeeds (.dice c) (sext64 sum) 0#64 0#64 0#64 t s)

/-- 43_distribution.md R211: `PICK`. -/
def Obligations.PickReturnsCell : Prop :=
  ∀ (s : State) (c : Chan),
    (s.argI32 c 0 ≤ 0 ∨ (s.cfg.maxElems : Int) < s.argI32 c 0 → Fails (.pick c) .size 0#64 s) ∧
    (0 < s.argI32 c 0 → s.argI32 c 0 ≤ s.cfg.maxElems → ∀ j u, Sampled c (asU32 (s.argI32 c 0)) s j u →
      Succeeds (.pick c) (s.cell c j.toNat) 0#64 0#64 0#64 u s ∧ (j.toNat : Int) < s.argI32 c 0)

/-- 43_distribution.md R213: `PATTERN_FORMAT` writes what the pattern language gives, then a terminator, and reports
the length. -/
def Obligations.PatternFormatWrites : Prop :=
  ∀ (s : State) (c : Chan),
    (s.argI32 c 0 ≤ 0 ∨ (s.cfg.maxBytes : Int) < s.argI32 c 0 → Fails (.patternFormat c) .size 0#64 s) ∧
    (0 < s.argI32 c 0 → s.argI32 c 0 ≤ s.cfg.maxBytes → ∀ t o,
      Formatted c (s.argI32 c 0 - 1).toNat 0 0 s t o →
      Succeeds (.patternFormat c) 1#64 (BitVec.ofNat 64 o) 0#64 0#64 (t.setOut c o 0#8) s ∧
      (o : Int) ≤ s.argI32 c 0 - 1)

/-- 42_secure_engine.md R173, 43_distribution.md R214: `RANDOM_BYTES` on channel `S` stores the secure byte stream; on
channel `F`, a term no word decodes to, it is illegal (the model's choice, log 13). -/
def Obligations.RandomBytesWrites : Prop :=
  ∀ s : State, Fails (.randomBytes .F) .illegal 0#64 s ∧
    (s.argI32 .S 0 ≤ 0 ∨ (s.cfg.maxBytes : Int) < s.argI32 .S 0 → Fails (.randomBytes .S) .size 0#64 s) ∧
    (0 < s.argI32 .S 0 → s.argI32 .S 0 ≤ s.cfg.maxBytes → ∃ t, exec (.randomBytes .S) s = .next t ∧
      Completed .S true .none t ∧ (t.port .S).res = #v[1#64, 0#64, 0#64, 0#64] ∧
      (∀ a : Nat, (a : Int) < s.argI32 .S 0 → t.outByte .S a = s.streamByte a) ∧
      (∀ a : Nat, s.argI32 .S 0 ≤ a → t.outByte .S a = s.outByte .S a) ∧
      DrewWords .S (((s.argI32 .S 0).toNat + 3) / 4) s t ∧
      OnlyChannel .S s t ∧ InputsKept .S s t ∧ BufKept .S s t)

/-- 43_distribution.md R215: `UUID_V4` on channel `S` (`MAX_BYTES` as 00_scope.md R7 asks): the digits of the sixteen
bytes with version and variant set, the hyphens, the terminator, and that the text has DOC's pattern; illegal on `F`, a
term no word decodes to (the model's choice, log 13). -/
def Obligations.UuidWritesText : Prop :=
  ∀ s : State, Fails (.uuidV4 .F) .illegal 0#64 s ∧
    (37 ≤ s.cfg.maxBytes → ∃ t, exec (.uuidV4 .S) s = .next t ∧ Completed .S true .none t ∧
      (t.port .S).res = #v[1#64, 0#64, 0#64, 0#64] ∧
      (∀ (k : Nat) (b : Byte), k < 16 →
        b = (if k = 6 then s.streamByte k &&& 0x0F#8 ||| 0x40#8
          else if k = 8 then s.streamByte k &&& 0x3F#8 ||| 0x80#8 else s.streamByte k) →
        t.outByte .S (uuidColumn k) = hexChar (b.extractLsb' 4 4) ∧
        t.outByte .S (uuidColumn k + 1) = hexChar (b.extractLsb' 0 4)) ∧
      (∀ a ∈ [8, 13, 18, 23], t.outByte .S a = 0x2D#8) ∧ t.outByte .S 36 = 0#8 ∧
      (∀ a, a < 36 → a ∉ [8, 13, 18, 23] → LowerHex (t.outByte .S a)) ∧
      t.outByte .S 14 = 0x34#8 ∧ t.outByte .S 19 ∈ [0x38#8, 0x39#8, 0x61#8, 0x62#8] ∧
      (∀ a, 37 ≤ a → t.outByte .S a = s.outByte .S a) ∧
      DrewWords .S 4 s t ∧ OnlyChannel .S s t ∧ InputsKept .S s t ∧ BufKept .S s t)

/-! ### The Geometric Sampler -/

/-- 44_geometry.md R252, R253, R250 (f), (g): `POINT_IN_CIRCLE` and `POINT_ON_CIRCLE`. -/
def Obligations.CirclesSample : Prop :=
  ∀ (s : State) (c : Chan), ∀ cx cy r ang rr : F64, cx = s.argF64 c 0 → cy = s.argF64 c 1 → r = s.argF64 c 2 →
    ang = fmul (s.uniformAt c 0) fTwoPi → rr = fmul r (fsqrt (s.uniformAt c 1)) →
    ((isFinite cx && isFinite cy && isFinite r) = false ∨ fle r fZero = true →
      Fails (.pointInCircle c) .numeric 0#64 s ∧ Fails (.pointOnCircle c) .numeric 0#64 s) ∧
    ((isFinite cx && isFinite cy && isFinite r) = true → flt fZero r = true →
      Samples (.pointInCircle c) 2 (fadd cx (fmul rr (fcos ang))) (fadd cy (fmul rr (fsin ang))) fZero s ∧
      Samples (.pointOnCircle c) 1 (fadd cx (fmul r (fcos ang))) (fadd cy (fmul r (fsin ang))) fZero s)

/-- 44_geometry.md R255, R256: `POINT_IN_RING` and `POINT_IN_ELLIPSE`. -/
def Obligations.RingAndEllipseSample : Prop :=
  ∀ (s : State) (c : Chan), ∀ cx cy p q ang u rr : F64, cx = s.argF64 c 0 → cy = s.argF64 c 1 → p = s.argF64 c 2 →
    q = s.argF64 c 3 → ang = fmul (s.uniformAt c 0) fTwoPi → u = s.uniformAt c 1 →
    rr = fsqrt (fadd (fmul p p) (fmul u (fsub (fmul q q) (fmul p p)))) →
    ((isFinite cx && isFinite cy && isFinite p && isFinite q) = false →
      Fails (.pointInRing c) .numeric 0#64 s ∧ Fails (.pointInEllipse c) .numeric 0#64 s) ∧
    (flt p fZero = true ∨ fle q fZero = true ∨ fle q p = true → Fails (.pointInRing c) .numeric 0#64 s) ∧
    (fle p fZero = true ∨ fle q fZero = true → Fails (.pointInEllipse c) .numeric 0#64 s) ∧
    ((isFinite cx && isFinite cy && isFinite p && isFinite q) = true →
      (fle fZero p = true → flt fZero q = true → flt p q = true →
        Samples (.pointInRing c) 2 (fadd cx (fmul rr (fcos ang))) (fadd cy (fmul rr (fsin ang))) fZero s) ∧
      (flt fZero p = true → flt fZero q = true →
        Samples (.pointInEllipse c) 2 (fadd cx (fmul p (fmul (fsqrt u) (fcos ang))))
          (fadd cy (fmul q (fmul (fsqrt u) (fsin ang)))) fZero s))

/-- 44_geometry.md R254, R263: `POINT_IN_RECT` and `POINT_IN_BOX`: each axis put in order, then scaled by its own
uniform float. -/
def Obligations.RectAndBoxSample : Prop :=
  ∀ (s : State) (c : Chan), ∀ (arg : Fin 8 → F64) (axis : F64 → F64 → F64 → F64), (∀ i, arg i = s.argF64 c i) →
    (∀ a b u, axis a b u =
      if flt b a then fadd b (fmul u (fsub a b)) else fadd a (fmul u (fsub b a))) →
    ((∃ i, i < 4 ∧ isFinite (arg i) = false) → Fails (.pointInRect c) .numeric 0#64 s) ∧
    ((∀ i, i < 4 → isFinite (arg i) = true) →
      Samples (.pointInRect c) 2 (axis (arg 0) (arg 2) (s.uniformAt c 0)) (axis (arg 1) (arg 3) (s.uniformAt c 1))
        fZero s) ∧
    ((∃ i, i < 6 ∧ isFinite (arg i) = false) → Fails (.pointInBox c) .numeric 0#64 s) ∧
    ((∀ i, i < 6 → isFinite (arg i) = true) →
      Samples (.pointInBox c) 3 (axis (arg 0) (arg 3) (s.uniformAt c 0)) (axis (arg 1) (arg 4) (s.uniformAt c 1))
        (axis (arg 2) (arg 5) (s.uniformAt c 2)) s)

/-- 44_geometry.md R251, R257, R259: `POINT_IN_TRIANGLE` and `POINT_IN_ARC`. -/
def Obligations.TriangleAndArcSample : Prop :=
  ∀ (s : State) (c : Chan), ∀ (arg : Fin 8 → F64) (u v : F64), (∀ i, arg i = s.argF64 c i) → u = s.uniformAt c 0 →
    v = s.uniformAt c 1 →
    ((∃ i, i < 6 ∧ isFinite (arg i) = false) → Fails (.pointInTriangle c) .numeric 0#64 s) ∧
    (∀ r1 r2 r3 : F64, (∀ i, i < 6 → isFinite (arg i) = true) →
      (r1, r2) = (if flt fOne (fadd u v) then (fsub fOne u, fsub fOne v) else (u, v)) →
      r3 = fsub (fsub fOne r1) r2 →
      Samples (.pointInTriangle c) 2 (fadd (fadd (fmul r1 (arg 0)) (fmul r2 (arg 2))) (fmul r3 (arg 4)))
        (fadd (fadd (fmul r1 (arg 1)) (fmul r2 (arg 3))) (fmul r3 (arg 5))) fZero s) ∧
    ((∃ i, i < 5 ∧ isFinite (arg i) = false) ∨ fle (arg 2) fZero = true → Fails (.pointInArc c) .numeric 0#64 s) ∧
    (∀ st en span ang rr : F64, (∀ i, i < 5 → isFinite (arg i) = true) → flt fZero (arg 2) = true →
      st = arcNorm (arg 3) → en = arcNorm (arg 4) →
      span = (if flt (fsub en st) fZero then fadd (fsub en st) fTwoPi else fsub en st) →
      ang = fadd st (fmul u span) → rr = fmul (arg 2) (fsqrt v) →
      (flt fZero span = false → Fails (.pointInArc c) .numeric 0#64 s) ∧
      (flt fZero span = true → Samples (.pointInArc c) 2 (fadd (arg 0) (fmul rr (fcos ang)))
        (fadd (arg 1) (fmul rr (fsin ang))) fZero s))

/-- 44_geometry.md R250 (g), R258: a drawn angle and a normalised angle lie in `[0, TWO_PI)`; a non-negative angle is
normalised exactly, and one already below `TWO_PI` keeps its value. -/
def Obligations.AnglesStayBelowTwoPi : Prop :=
  (∀ w : W32, fle fZero (fmul (uniformOf w) fTwoPi) = true ∧ flt (fmul (uniformOf w) fTwoPi) fTwoPi = true) ∧
  (∀ a : F64, isFinite a = true → isFinite (arcNorm a) = true ∧ fle fZero (arcNorm a) = true ∧
    flt (arcNorm a) fTwoPi = true ∧
    (fle fZero a = true → units (arcNorm a) = units a % units fTwoPi) ∧
    (fle fZero a = true → flt a fTwoPi = true → units (arcNorm a) = units a))

/-- 44_geometry.md R251: after the fold the three weights of a triangle sample lie in `[0, 1]` and sum to exactly 1. -/
def Obligations.TriangleWeightsSumToOne : Prop :=
  ∀ (x y : W32) (r1 r2 r3 : F64), (r1, r2) = foldWeights (uniformOf x) (uniformOf y) →
    r3 = fsub (fsub fOne r1) r2 →
    units r1 + units r2 + units r3 = units fOne ∧
    (∀ r ∈ [r1, r2, r3], isFinite r = true ∧ fle fZero r = true ∧ fle r fOne = true)

/-- 44_geometry.md R260: `POINT_IN_POLYGON` (with `MAX_ELEMS >= 2 * MAX_VERTICES`, 00_scope.md R7). `sel` is the first
fan triangle whose running area exceeds `t`, else the last. -/
def Obligations.PolygonSamples : Prop :=
  ∀ (s : State) (c : Chan), ∀ n : Int, n = s.argI32 c 0 → 2 * s.cfg.maxVertices ≤ s.cfg.maxElems →
    (n < 3 ∨ (s.cfg.maxVertices : Int) < n → Fails (.pointInPolygon c) .size 0#64 s) ∧
    (3 ≤ n → n ≤ s.cfg.maxVertices → (∃ j, j < 2 * n.toNat ∧ isFinite (s.cell c j) = false) →
      Fails (.pointInPolygon c) .numeric 0#64 s) ∧
    (∀ total : F64, 3 ≤ n → n ≤ s.cfg.maxVertices → (∀ j, j < 2 * n.toNat → isFinite (s.cell c j) = true) →
      total = s.fanSum c (n.toNat - 2) →
      (flt fZero total = false ∨ isFinite total = false → Fails (.pointInPolygon c) .numeric 0#64 s) ∧
      (flt fZero total = true → isFinite total = true → ∀ (sel : Nat) (t r1 r2 r3 : F64),
        t = fmul (s.uniformAt c 0) total → 1 ≤ sel → sel ≤ n.toNat - 2 →
        (∀ k, 1 ≤ k → k < sel → flt t (s.fanSum c k) = false) →
        (flt t (s.fanSum c sel) = true ∨ sel = n.toNat - 2) →
        (r1, r2) = foldWeights (s.uniformAt c 1) (s.uniformAt c 2) → r3 = fsub (fsub fOne r1) r2 →
        Samples (.pointInPolygon c) 3
          (fadd (fadd (fmul r1 (s.cell c 0)) (fmul r2 (s.cell c (2 * sel)))) (fmul r3 (s.cell c (2 * sel + 2))))
          (fadd (fadd (fmul r1 (s.cell c 1)) (fmul r2 (s.cell c (2 * sel + 1)))) (fmul r3 (s.cell c (2 * sel + 3))))
          fZero s))

/-- 44_geometry.md R261, R264: `POINT_IN_SPHERE`: the first candidate in the ball is taken; when all `RETRY_CAP`
candidates are rejected it fails with `ERR_RETRY`, their draws consumed. -/
def Obligations.BallRejectionSamples : Prop :=
  ∀ (s : State) (c : Chan), ∀ cx cy cz r : F64, cx = s.argF64 c 0 → cy = s.argF64 c 1 → cz = s.argF64 c 2 →
    r = s.argF64 c 3 →
    ((isFinite cx && isFinite cy && isFinite cz && isFinite r) = false ∨ fle r fZero = true →
      Fails (.pointInSphere c) .numeric 0#64 s) ∧
    ((isFinite cx && isFinite cy && isFinite cz && isFinite r) = true → flt fZero r = true →
      ((∀ i, i < s.cfg.retryCap → s.ballAccepts c i = false) →
        exec (.pointInSphere c) s = .next ((s.advanceBy c (3 * s.cfg.retryCap)).complete c (.fail .retry 0#64))) ∧
      (∀ n k, n < s.cfg.retryCap → (∀ i, i < n → s.ballAccepts c i = false) → s.ballAccepts c n = true →
        k = fdiv (fmul r (fcbrt (s.uniformAt c (3 * n + 3)))) (fsqrt (s.ballNorm c n)) →
        Samples (.pointInSphere c) (3 * n + 4) (fadd cx (fmul (s.signedAt c (3 * n)) k))
          (fadd cy (fmul (s.signedAt c (3 * n + 1)) k)) (fadd cz (fmul (s.signedAt c (3 * n + 2)) k)) s))

/-- 44_geometry.md R262, R264: `POINT_ON_SPHERE`, as `POINT_IN_SPHERE` with two draws to a candidate. -/
def Obligations.DiskRejectionSamples : Prop :=
  ∀ (s : State) (c : Chan), ∀ cx cy cz r : F64, cx = s.argF64 c 0 → cy = s.argF64 c 1 → cz = s.argF64 c 2 →
    r = s.argF64 c 3 →
    ((isFinite cx && isFinite cy && isFinite cz && isFinite r) = false ∨ fle r fZero = true →
      Fails (.pointOnSphere c) .numeric 0#64 s) ∧
    ((isFinite cx && isFinite cy && isFinite cz && isFinite r) = true → flt fZero r = true →
      ((∀ i, i < s.cfg.retryCap → flt (s.diskNorm c i) fOne = false) →
        exec (.pointOnSphere c) s = .next ((s.advanceBy c (2 * s.cfg.retryCap)).complete c (.fail .retry 0#64))) ∧
      (∀ n u v q f, n < s.cfg.retryCap → (∀ i, i < n → flt (s.diskNorm c i) fOne = false) →
        u = s.signedAt c (2 * n) → v = s.signedAt c (2 * n + 1) → q = s.diskNorm c n → flt q fOne = true →
        f = fsqrt (fsub fOne q) →
        Samples (.pointOnSphere c) (2 * n + 2) (fadd cx (fmul r (fmul (fmul fTwo u) f)))
          (fadd cy (fmul r (fmul (fmul fTwo v) f))) (fadd cz (fmul r (fsub fOne (fmul fTwo q)))) s))

/-! ### The host -/

/-- 20_memory.md R83, R87, 10_state.md R43, R44: what the host's reads of an idle channel answer and what its writes
change; an access outside a memory or to a reserved number reads 0 and writes nothing (70_reset_and_hazards.md R333); a
read changes nothing of the block. The model's choices, which no rule states: the host's list of actions and its record
of reads, and that a step with no action left changes nothing (log 1); that an access carries 64 bits, of which a byte
memory takes the low 8, and that a byte and `STATUS` are read with zeros above (log 14). -/
def Obligations.HostReadsAndWrites : Prop :=
  (∀ s : State, s.host = [] → step s = .next s) ∧
  (∀ (s : State) (c : Chan) (loc : Loc) (v : W64) (rest : List HostAction), s.host = .write c loc v :: rest →
    step s = hostWrite c loc v { s with host := rest }) ∧
  (∀ (s : State) (c : Chan) (loc : Loc) (rest : List HostAction), s.host = .read c loc :: rest →
    step s = .next { s with host := rest, readLog := hostRead c loc { s with host := rest } :: s.readLog }) ∧
  (∀ (s : State) (c : Chan), (s.port c).busy = false →
    hostRead c (.reg 0x00) s = 0#64 ∧
    (hostRead c (.reg 0x01) s).getLsbD 0 = false ∧ (hostRead c (.reg 0x01) s).getLsbD 1 = (s.port c).ok ∧
    (hostRead c (.reg 0x01) s).extractLsb' 2 2 = 0#2 ∧
    (hostRead c (.reg 0x01) s).extractLsb' 4 4 = (s.port c).err.number ∧
    (hostRead c (.reg 0x01) s).getLsbD 8 = (s.engine c).seededFlag ∧
    (hostRead c (.reg 0x01) s).extractLsb' 9 55 = 0#55 ∧
    (∀ i : Fin 8, hostRead c (.reg (0x08 + i)) s = (s.port c).arg[i]) ∧
    (∀ i : Fin 4, hostRead c (.reg (0x10 + i)) s = (s.port c).res[i]) ∧
    (∀ n, (2 ≤ n ∧ n < 0x08) ∨ 0x14 ≤ n → hostRead c (.reg n) s = 0#64) ∧
    (∀ i, hostRead c (.buf i) s = if i < s.cfg.maxElems then s.cell c i else 0#64) ∧
    (∀ i, hostRead c (.ibuf i) s = if i < s.cfg.maxBytes then (s.inByte c i).setWidth 64 else 0#64) ∧
    (∀ i, hostRead c (.obuf i) s = if i < s.cfg.maxBytes then (s.outByte c i).setWidth 64 else 0#64)) ∧
  (∀ (s : State) (c : Chan) (v : W64), (s.port c).busy = false →
    (∀ i : Fin 8, hostWrite c (.reg (0x08 + i)) v s =
      .next (s.setPort c { s.port c with arg := (s.port c).arg.set i v })) ∧
    (∀ n, (1 ≤ n ∧ n < 0x08) ∨ 0x10 ≤ n → hostWrite c (.reg n) v s = .next s) ∧
    (∀ i, hostWrite c (.buf i) v s = .next (if i < s.cfg.maxElems then s.setCell c i v else s)) ∧
    (∀ i, hostWrite c (.obuf i) v s = .next (if i < s.cfg.maxBytes then s.setOut c i (v.setWidth 8) else s)) ∧
    (∀ i, ∃ t, hostWrite c (.ibuf i) v s = .next t ∧
      (∀ a, t.inByte c a = if a = i ∧ i < s.cfg.maxBytes then v.setWidth 8 else s.inByte c a) ∧
      t = s.setPort c { s.port c with ibuf := (t.port c).ibuf }))

/-- 70_reset_and_hazards.md R333, 93_implementation_defined.md U6: while a channel is busy every host access to it is
refused: a write, also to `CMD`, is dropped, and a read answers 0, except `STATUS`, which shows `BUSY = 1` and `SEEDED`.
That the refused reads take in those of `ARG` and `RES` is the model's reading of R333 by U6 (log 15); the host's list
and its record of reads (log 1) and the zeros above the 32 bits of `STATUS` (log 14) are the model's choices. -/
def Obligations.BusyHostAccessRefused : Prop :=
  ∀ (s : State) (c : Chan) (loc : Loc) (rest : List HostAction), (s.port c).busy = true →
    (∀ v, s.host = .write c loc v :: rest → step s = .next { s with host := rest }) ∧
    (s.host = .read c loc :: rest → ∃ x, step s = .next { s with host := rest, readLog := x :: s.readLog } ∧
      (loc ≠ .reg 0x01 → x = 0#64) ∧
      (loc = .reg 0x01 → x.getLsbD 0 = true ∧ x.getLsbD 8 = (s.engine c).seededFlag ∧ x.extractLsb' 2 2 = 0#2 ∧
        x.extractLsb' 9 55 = 0#55))

/-- 70_reset_and_hazards.md R334, R330: a busy channel stays busy and accepts nothing through every step but a reset,
whatever the other channel does, and a reset makes it idle. That its engine, its environment and its registers stand
still meanwhile is the model's choice (log 21): in hardware the endless loop goes on drawing. -/
def Obligations.BusyChannelStaysUntilReset : Prop :=
  ∀ (s t : State) (c : Chan), (s.port c).busy = true → step s = .next t →
    ((∀ rest, s.host ≠ .reset :: rest) → t.port c = s.port c ∧ t.engine c = s.engine c ∧ t.env c = s.env c) ∧
    ((∃ rest, s.host = .reset :: rest) → (t.port c).busy = false)
end

