-- ==== Sys2Proof/Laws/Memory.lean ====
section
/-! SUPPORT. Memory: a read after a write, the canonical form, and the bounds of a space. -/

namespace Sys2Proof.Machine

/-- Reading where was just written gives the written element. -/
@[simp] theorem Mem.written_write_same {w : Nat} (m : Mem w) (i : Nat) (v : BitVec w) :
    Mem.written (Mem.write m i v) i = some v := by
  induction m with
  | nil => simp [Mem.write, Mem.written]
  | cons e m ih =>
    obtain ⟨j, u⟩ := e
    unfold Mem.write
    split
    · simp [Mem.written]
    · split
      · simp [Mem.written]
      · rename_i h; simp [Mem.written, h, ih]

/-- A write leaves every other element alone. -/
theorem Mem.written_write_other {w : Nat} (m : Mem w) (i j : Nat) (v : BitVec w) (h : j ≠ i) :
    Mem.written (Mem.write m i v) j = Mem.written m j := by
  induction m with
  | nil => simp [Mem.write, Mem.written, h]
  | cons e m ih =>
    obtain ⟨l, u⟩ := e
    unfold Mem.write
    split
    · simp [Mem.written, h]
    · split
      · rename_i _ hl; subst hl; simp [Mem.written, h]
      · simp [Mem.written, ih]

/-- Reading after a write, in one lemma. -/
theorem Mem.written_write {w : Nat} (m : Mem w) (i j : Nat) (v : BitVec w) :
    Mem.written (Mem.write m i v) j = if j = i then some v else Mem.written m j := by
  by_cases h : j = i
  · subst h; simp
  · simp [h, Mem.written_write_other m i j v h]

/-- A write above `i` keeps the list above `i` rising. -/
theorem Mem.risesAbove_write {w : Nat} (m : Mem w) (i j : Nat) (v : BitVec w)
    (h : Mem.risesAbove i m = true) (hij : i < j) : Mem.risesAbove i (Mem.write m j v) = true := by
  induction m generalizing i with
  | nil => simp [Mem.write, Mem.risesAbove, hij]
  | cons e m ih =>
    obtain ⟨l, u⟩ := e
    simp only [Mem.risesAbove, Bool.and_eq_true, decide_eq_true_eq] at h
    unfold Mem.write
    split
    · simp_all [Mem.risesAbove]
    · split
      · simp_all [Mem.risesAbove]
      · simp only [Mem.risesAbove, Bool.and_eq_true, decide_eq_true_eq]
        exact ⟨h.1, ih l h.2 (by omega)⟩

/-- A write keeps the canonical form. -/
theorem Mem.wf_write {w : Nat} (m : Mem w) (i : Nat) (v : BitVec w) (h : Mem.wf m = true) :
    Mem.wf (Mem.write m i v) = true := by
  cases m with
  | nil => rfl
  | cons e m =>
    obtain ⟨l, u⟩ := e
    simp only [Mem.wf] at h
    unfold Mem.write
    split
    · simp_all [Mem.wf, Mem.risesAbove]
    · split
      · simp_all [Mem.wf]
      · exact Mem.risesAbove_write m l i v h (by omega)

/-- A write inside a space keeps the list inside it. -/
theorem Mem.within_write {w : Nat} (m : Mem w) (n i : Nat) (v : BitVec w) (h : Mem.within n m = true) (hi : i < n) :
    Mem.within n (Mem.write m i v) = true := by
  induction m with
  | nil => simp [Mem.write, Mem.within, hi]
  | cons e m ih =>
    obtain ⟨l, u⟩ := e
    simp only [Mem.within, List.all_cons, Bool.and_eq_true, decide_eq_true_eq] at h ih
    unfold Mem.write
    split
    · simp [Mem.within, hi, h]
    · split
      · simp [Mem.within, hi, h]
      · simp only [Mem.within, List.all_cons, Bool.and_eq_true, decide_eq_true_eq]
        exact ⟨h.1, ih h.2⟩

/-- Nothing was written in the memory of the state after reset, which is canonical. -/
@[simp] theorem Mem.written_nil {w : Nat} (i : Nat) : Mem.written ([] : Mem w) i = none := rfl

@[simp] theorem Mem.wf_nil {w : Nat} : Mem.wf ([] : Mem w) = true := rfl

@[simp] theorem Mem.within_nil {w : Nat} (n : Nat) : Mem.within n ([] : Mem w) = true := rfl

end Sys2Proof.Machine
end

