-- ==== Sys2Proof/Laws/State.lean ====
section
/-! SUPPORT. One lemma per field per update of the state, so that no later proof unfolds an update. -/

namespace Sys2Proof

@[simp] theorem Chan.other_F : Chan.F.other = Chan.S := rfl

@[simp] theorem Chan.other_S : Chan.S.other = Chan.F := rfl

@[simp] theorem Chan.other_other (c : Chan) : c.other.other = c := by cases c <;> rfl

theorem Chan.other_ne (c : Chan) : c.other ≠ c := by cases c <;> decide

namespace Machine

/-! ### Selecting a channel -/

theorem State.port_F (s : State) : s.port .F = s.portF := rfl

theorem State.port_S (s : State) : s.port .S = s.portS := rfl

theorem State.engine_F (s : State) : s.engine .F = .fast s.fast := rfl

theorem State.engine_S (s : State) : s.engine .S = .secure s.secure := rfl

theorem State.env_F (s : State) : s.env .F = s.envF := rfl

theorem State.env_S (s : State) : s.env .S = s.envS := rfl

@[simp] theorem State.ctx_cfg (s : State) (c : Chan) : (s.ctx c).cfg = s.cfg := rfl

@[simp] theorem State.ctx_chan (s : State) (c : Chan) : (s.ctx c).chan = c := rfl

@[simp] theorem State.ctx_epoch (s : State) (c : Chan) : (s.ctx c).epoch = (s.port c).epoch := rfl

@[simp] theorem State.ctx_arg (s : State) (c : Chan) : (s.ctx c).arg = (s.port c).arg := rfl

@[simp] theorem State.ctx_ibuf (s : State) (c : Chan) : (s.ctx c).ibuf = (s.port c).ibuf := rfl

@[simp] theorem State.work_engine (s : State) (c : Chan) : (s.work c).engine = s.engine c := rfl

@[simp] theorem State.work_env (s : State) (c : Chan) : (s.work c).env = s.env c := rfl

@[simp] theorem State.work_buf (s : State) (c : Chan) : (s.work c).buf = (s.port c).buf := rfl

@[simp] theorem State.work_obuf (s : State) (c : Chan) : (s.work c).obuf = (s.port c).obuf := rfl

@[simp] theorem State.work_frees (s : State) (c : Chan) : (s.work c).frees = (s.port c).frees := rfl

/-! ### Replacing a channel's registers and memories -/

@[simp] theorem State.setPort_port (s : State) (c : Chan) (p : Port) : (s.setPort c p).port c = p := by
  cases c <;> rfl

@[simp] theorem State.setPort_port_other (s : State) (c : Chan) (p : Port) :
    (s.setPort c p).port c.other = s.port c.other := by cases c <;> rfl

@[simp] theorem State.setPort_cfg (s : State) (c : Chan) (p : Port) : (s.setPort c p).cfg = s.cfg := by
  cases c <;> rfl

@[simp] theorem State.setPort_fast (s : State) (c : Chan) (p : Port) : (s.setPort c p).fast = s.fast := by
  cases c <;> rfl

@[simp] theorem State.setPort_secure (s : State) (c : Chan) (p : Port) : (s.setPort c p).secure = s.secure := by
  cases c <;> rfl

@[simp] theorem State.setPort_envF (s : State) (c : Chan) (p : Port) : (s.setPort c p).envF = s.envF := by
  cases c <;> rfl

@[simp] theorem State.setPort_envS (s : State) (c : Chan) (p : Port) : (s.setPort c p).envS = s.envS := by
  cases c <;> rfl

@[simp] theorem State.setPort_host (s : State) (c : Chan) (p : Port) : (s.setPort c p).host = s.host := by
  cases c <;> rfl

@[simp] theorem State.setPort_readLog (s : State) (c : Chan) (p : Port) : (s.setPort c p).readLog = s.readLog := by
  cases c <;> rfl

@[simp] theorem State.setPort_engine (s : State) (c d : Chan) (p : Port) : (s.setPort c p).engine d = s.engine d := by
  cases c <;> rfl

@[simp] theorem State.setPort_env (s : State) (c d : Chan) (p : Port) : (s.setPort c p).env d = s.env d := by
  cases c <;> rfl

@[simp] theorem State.setPort_self (s : State) (c : Chan) : s.setPort c (s.port c) = s := by cases c <;> rfl

@[simp] theorem State.setPort_setPort (s : State) (c : Chan) (p q : Port) :
    (s.setPort c p).setPort c q = s.setPort c q := by cases c <;> rfl

/-! ### A completion -/

@[simp] theorem Port.complete_arg (p : Port) (r : Reply) : (p.complete r).arg = p.arg := rfl

@[simp] theorem Port.complete_buf (p : Port) (r : Reply) : (p.complete r).buf = p.buf := rfl

@[simp] theorem Port.complete_ibuf (p : Port) (r : Reply) : (p.complete r).ibuf = p.ibuf := rfl

@[simp] theorem Port.complete_obuf (p : Port) (r : Reply) : (p.complete r).obuf = p.obuf := rfl

@[simp] theorem Port.complete_epoch (p : Port) (r : Reply) : (p.complete r).epoch = p.epoch := rfl

@[simp] theorem Port.complete_frees (p : Port) (r : Reply) : (p.complete r).frees = p.frees := rfl

@[simp] theorem Port.complete_res (p : Port) (r : Reply) : (p.complete r).res = r.results := rfl

@[simp] theorem Port.complete_ok (p : Port) (r : Reply) : (p.complete r).ok = r.okFlag := rfl

@[simp] theorem Port.complete_err (p : Port) (r : Reply) : (p.complete r).err = r.errCode := rfl

@[simp] theorem Port.complete_busy (p : Port) (r : Reply) : (p.complete r).busy = false := rfl

@[simp] theorem State.complete_port (s : State) (c : Chan) (r : Reply) :
    (s.complete c r).port c = (s.port c).complete r := by simp [State.complete]

@[simp] theorem State.complete_port_other (s : State) (c : Chan) (r : Reply) :
    (s.complete c r).port c.other = s.port c.other := by simp [State.complete]

@[simp] theorem State.complete_cfg (s : State) (c : Chan) (r : Reply) : (s.complete c r).cfg = s.cfg := by
  simp [State.complete]

@[simp] theorem State.complete_fast (s : State) (c : Chan) (r : Reply) : (s.complete c r).fast = s.fast := by
  simp [State.complete]

@[simp] theorem State.complete_secure (s : State) (c : Chan) (r : Reply) : (s.complete c r).secure = s.secure := by
  simp [State.complete]

@[simp] theorem State.complete_envF (s : State) (c : Chan) (r : Reply) : (s.complete c r).envF = s.envF := by
  simp [State.complete]

@[simp] theorem State.complete_envS (s : State) (c : Chan) (r : Reply) : (s.complete c r).envS = s.envS := by
  simp [State.complete]

@[simp] theorem State.complete_host (s : State) (c : Chan) (r : Reply) : (s.complete c r).host = s.host := by
  simp [State.complete]

@[simp] theorem State.complete_readLog (s : State) (c : Chan) (r : Reply) : (s.complete c r).readLog = s.readLog := by
  simp [State.complete]

@[simp] theorem State.complete_engine (s : State) (c d : Chan) (r : Reply) : (s.complete c r).engine d = s.engine d := by
  simp [State.complete]

@[simp] theorem State.complete_env (s : State) (c d : Chan) (r : Reply) : (s.complete c r).env d = s.env d := by
  simp [State.complete]

/-! ### A command that does not end -/

@[simp] theorem State.hang_port (s : State) (c : Chan) :
    (s.hang c).port c = { s.port c with busy := true } := by simp [State.hang]

@[simp] theorem State.hang_port_other (s : State) (c : Chan) :
    (s.hang c).port c.other = s.port c.other := by simp [State.hang]

@[simp] theorem State.hang_cfg (s : State) (c : Chan) : (s.hang c).cfg = s.cfg := by simp [State.hang]

@[simp] theorem State.hang_fast (s : State) (c : Chan) : (s.hang c).fast = s.fast := by simp [State.hang]

@[simp] theorem State.hang_secure (s : State) (c : Chan) : (s.hang c).secure = s.secure := by simp [State.hang]

@[simp] theorem State.hang_envF (s : State) (c : Chan) : (s.hang c).envF = s.envF := by simp [State.hang]

@[simp] theorem State.hang_envS (s : State) (c : Chan) : (s.hang c).envS = s.envS := by simp [State.hang]

@[simp] theorem State.hang_host (s : State) (c : Chan) : (s.hang c).host = s.host := by simp [State.hang]

@[simp] theorem State.hang_readLog (s : State) (c : Chan) : (s.hang c).readLog = s.readLog := by simp [State.hang]

@[simp] theorem State.hang_engine (s : State) (c d : Chan) : (s.hang c).engine d = s.engine d := by simp [State.hang]

@[simp] theorem State.hang_env (s : State) (c d : Chan) : (s.hang c).env d = s.env d := by simp [State.hang]

/-! ### A command's changes -/

@[simp] theorem Port.putWork_arg (p : Port) (w : Work) : (p.putWork w).arg = p.arg := rfl

@[simp] theorem Port.putWork_res (p : Port) (w : Work) : (p.putWork w).res = p.res := rfl

@[simp] theorem Port.putWork_busy (p : Port) (w : Work) : (p.putWork w).busy = p.busy := rfl

@[simp] theorem Port.putWork_ok (p : Port) (w : Work) : (p.putWork w).ok = p.ok := rfl

@[simp] theorem Port.putWork_err (p : Port) (w : Work) : (p.putWork w).err = p.err := rfl

@[simp] theorem Port.putWork_ibuf (p : Port) (w : Work) : (p.putWork w).ibuf = p.ibuf := rfl

@[simp] theorem Port.putWork_epoch (p : Port) (w : Work) : (p.putWork w).epoch = p.epoch := rfl

@[simp] theorem Port.putWork_buf (p : Port) (w : Work) : (p.putWork w).buf = w.buf := rfl

@[simp] theorem Port.putWork_obuf (p : Port) (w : Work) : (p.putWork w).obuf = w.obuf := rfl

@[simp] theorem Port.putWork_frees (p : Port) (w : Work) : (p.putWork w).frees = w.frees := rfl

@[simp] theorem State.putWork_port (s : State) (c : Chan) (w : Work) :
    (s.putWork c w).port c = (s.port c).putWork w := by cases c <;> rfl

@[simp] theorem State.putWork_port_other (s : State) (c : Chan) (w : Work) :
    (s.putWork c w).port c.other = s.port c.other := by cases c <;> rfl

@[simp] theorem State.putWork_engine_other (s : State) (c : Chan) (w : Work) :
    (s.putWork c w).engine c.other = s.engine c.other := by cases c <;> rfl

@[simp] theorem State.putWork_env (s : State) (c : Chan) (w : Work) : (s.putWork c w).env c = w.env := by
  cases c <;> rfl

@[simp] theorem State.putWork_env_other (s : State) (c : Chan) (w : Work) :
    (s.putWork c w).env c.other = s.env c.other := by cases c <;> rfl

@[simp] theorem State.putWork_cfg (s : State) (c : Chan) (w : Work) : (s.putWork c w).cfg = s.cfg := by
  cases c <;> rfl

@[simp] theorem State.putWork_host (s : State) (c : Chan) (w : Work) : (s.putWork c w).host = s.host := by
  cases c <;> rfl

@[simp] theorem State.putWork_readLog (s : State) (c : Chan) (w : Work) : (s.putWork c w).readLog = s.readLog := by
  cases c <;> rfl

@[simp] theorem State.putWork_ctx (s : State) (c : Chan) (w : Work) : (s.putWork c w).ctx c = s.ctx c := by
  cases c <;> rfl

@[simp] theorem State.putWork_work_self (s : State) (c : Chan) : s.putWork c (s.work c) = s := by cases c <;> rfl

/-- An engine is of the kind its channel has. -/
def Engine.fits : Engine → Chan → Bool
  | .fast _, .F => true
  | .secure _, .S => true
  | _, _ => false

@[simp] theorem State.engine_fits (s : State) (c : Chan) : (s.engine c).fits c = true := by cases c <;> rfl

/-- Writing back a command's changes leaves exactly them, the engine being of the channel's kind. -/
theorem State.putWork_work (s : State) (c : Chan) (w : Work) (h : w.engine.fits c = true) :
    (s.putWork c w).work c = w := by
  obtain ⟨e, v, b, o, n⟩ := w
  cases c <;> cases e <;> first | rfl | cases h

theorem State.putWork_engine (s : State) (c : Chan) (w : Work) (h : w.engine.fits c = true) :
    (s.putWork c w).engine c = w.engine := by
  rw [← State.work_engine, State.putWork_work s c w h]

/-- Of two write-backs the later one counts. -/
theorem State.putWork_putWork (s : State) (c : Chan) (w w' : Work) (h : w'.engine.fits c = true) :
    (s.putWork c w).putWork c w' = s.putWork c w' := by
  obtain ⟨e, v, b, o, n⟩ := w'
  cases c <;> cases e <;> first | rfl | cases h

/-! ### Reset -/

@[simp] theorem resetBlock_cfg (s : State) : (resetBlock s).cfg = s.cfg := rfl

@[simp] theorem resetBlock_host (s : State) : (resetBlock s).host = s.host := rfl

@[simp] theorem resetBlock_readLog (s : State) : (resetBlock s).readLog = s.readLog := rfl

@[simp] theorem resetBlock_env (s : State) (c : Chan) : (resetBlock s).env c = s.env c := by cases c <;> rfl

@[simp] theorem resetBlock_port (s : State) (c : Chan) :
    (resetBlock s).port c = Port.afterReset ((s.port c).epoch + 1) (s.port c).frees := by cases c <;> rfl

@[simp] theorem resetBlock_fast (s : State) : (resetBlock s).fast = Fast.afterReset := rfl

@[simp] theorem resetBlock_secure (s : State) : (resetBlock s).secure = Secure.afterReset := rfl

end Machine

end Sys2Proof
end

