-- ==== Sys2Proof/Laws/Ops.lean ====
section
/-! SUPPORT. What each shared operation of a command can do, said once: as a triple (what holds afterwards, with no
fault), and as an equation where it answers. -/

namespace Sys2Proof.Machine

/-! ### Sequencing -/

@[simp] theorem ret_apply {α : Type} (a : α) (w : Work) : ret a w = .ok a w := rfl

@[simp] theorem ret_andThen {α β : Type} (a : α) (f : α → Cmd β) : andThen (ret a) f = f a := rfl

theorem andThen_ok {α β : Type} {m : Cmd α} {f : α → Cmd β} {w w' : Work} {a : α} (h : m w = .ok a w') :
    andThen m f w = f a w' := by simp [andThen, h]

theorem andThen_stuck {α β : Type} {m : Cmd α} {f : α → Cmd β} {w w' : Work} (h : m w = .stuck w') :
    andThen m f w = .stuck w' := by simp [andThen, h]

/-- `andThen` is associative: a command's pseudocode may be cut anywhere. -/
theorem andThen_assoc {α β γ : Type} (m : Cmd α) (f : α → Cmd β) (g : β → Cmd γ) :
    andThen (andThen m f) g = andThen m fun a => andThen (f a) g := by
  funext w; unfold andThen; cases m w <;> rfl

/-- If a sequence answers, its first part answered and its second part answered from there. -/
theorem andThen_ok_inv {α β : Type} {m : Cmd α} {f : α → Cmd β} {w w' : Work} {b : β}
    (h : andThen m f w = .ok b w') : ∃ a w1, m w = .ok a w1 ∧ f a w1 = .ok b w' := by
  unfold andThen at h
  split at h
  · exact ⟨_, _, ‹_›, h⟩
  · cases h
  · cases h

/-! ### Triples -/

/-- `m` from `w` does not fault; where it answers, `Q` holds of the value and the work, and where its redraw loop does
not end, `R` holds of the work reached. -/
def Ensures {α : Type} (m : Cmd α) (w : Work) (Q : α → Work → Prop) (R : Work → Prop) : Prop :=
  match m w with
  | .ok a w' => Q a w'
  | .stuck w' => R w'
  | .fault _ => False

theorem ensures_ret {α : Type} {a : α} {w : Work} {Q : α → Work → Prop} {R : Work → Prop} (h : Q a w) :
    Ensures (ret a) w Q R := h

theorem ensures_andThen {α β : Type} {m : Cmd α} {f : α → Cmd β} {w : Work} {P : α → Work → Prop}
    {Q : β → Work → Prop} {R : Work → Prop} (hm : Ensures m w P R) (hf : ∀ a w', P a w' → Ensures (f a) w' Q R) :
    Ensures (andThen m f) w Q R := by
  unfold Ensures andThen at *
  cases h : m w with
  | ok a w' => rw [h] at hm; exact hf a w' hm
  | stuck w' => rw [h] at hm; exact hm
  | fault e => rw [h] at hm; exact hm

theorem ensures_weaken {α : Type} {m : Cmd α} {w : Work} {Q Q' : α → Work → Prop} {R R' : Work → Prop}
    (h : Ensures m w Q R) (hq : ∀ a w', Q a w' → Q' a w') (hr : ∀ w', R w' → R' w') : Ensures m w Q' R' := by
  unfold Ensures at *
  cases hw : m w with
  | ok a w' => rw [hw] at h; exact hq a w' h
  | stuck w' => rw [hw] at h; exact hr w' h
  | fault e => rw [hw] at h; exact h

/-! ### Draws -/

/-- A draw on a channel keeps its engine's kind. -/
theorem drawEngine_fits (k : Cfg) (e : Engine) (v : Env) (c : Chan) (h : e.fits c = true) :
    (drawEngine k e v).2.1.fits c = true := by cases e <;> cases c <;> first | rfl | cases h

/-- Seeding a channel keeps its engine's kind. -/
theorem seedEngine_fits (k : Cfg) (x : W64) (e : Engine) (v : Env) (c : Chan) (h : e.fits c = true) :
    (seedEngine k x e v).1.fits c = true := by cases e <;> cases c <;> first | rfl | cases h

/-- A draw always answers. -/
theorem draw32_apply (k : Ctx) (w : Work) :
    draw32 k w = .ok (drawEngine k.cfg w.engine w.env).1
      { w with engine := (drawEngine k.cfg w.engine w.env).2.1, env := (drawEngine k.cfg w.engine w.env).2.2 } := rfl

@[simp] theorem State.advance_ctx (s : State) (c : Chan) : (s.advance c).ctx c = s.ctx c := by simp [State.advance]

@[simp] theorem State.advance_cfg (s : State) (c : Chan) : (s.advance c).cfg = s.cfg := by simp [State.advance]

/-- What a command sees after one draw. -/
theorem State.advance_work (s : State) (c : Chan) : (s.advance c).work c = { s.work c with
    engine := (drawEngine s.cfg (s.engine c) (s.env c)).2.1
    env := (drawEngine s.cfg (s.engine c) (s.env c)).2.2 } :=
  State.putWork_work _ _ _ (drawEngine_fits _ _ _ _ (s.engine_fits c))

/-- A draw, said in the words of the statements: it returns the channel's next word and advances the channel. -/
theorem draw32_advance (s : State) (c : Chan) :
    draw32 (s.ctx c) (s.work c) = .ok (s.word c) ((s.advance c).work c) := by
  rw [State.advance_work]; rfl

/-- A uniform draw, said in the words of the statements. -/
theorem drawF_advance (s : State) (c : Chan) :
    drawF (s.ctx c) (s.work c) = .ok (uniformOf (s.word c)) ((s.advance c).work c) := by
  rw [drawF, andThen_ok (draw32_advance s c)]; rfl

@[simp] theorem State.advanceBy_zero (s : State) (c : Chan) : s.advanceBy c 0 = s := rfl

theorem State.advanceBy_succ (s : State) (c : Chan) (n : Nat) :
    s.advanceBy c (n + 1) = (s.advanceBy c n).advance c := rfl

@[simp] theorem State.advanceBy_ctx (s : State) (c : Chan) (n : Nat) : (s.advanceBy c n).ctx c = s.ctx c := by
  induction n with
  | zero => rfl
  | succ n ih => rw [State.advanceBy_succ, State.advance_ctx, ih]

@[simp] theorem State.advanceBy_cfg (s : State) (c : Chan) (n : Nat) : (s.advanceBy c n).cfg = s.cfg := by
  induction n with
  | zero => rfl
  | succ n ih => rw [State.advanceBy_succ, State.advance_cfg, ih]

/-- Drawing once and then `n` times is drawing `n + 1` times. -/
theorem State.advance_advanceBy (s : State) (c : Chan) (n : Nat) :
    (s.advance c).advanceBy c n = s.advanceBy c (n + 1) := by
  induction n with
  | zero => rfl
  | succ n ih => rw [State.advanceBy_succ, ih]; rfl

/-! ### Memory accesses -/

theorem readBuf_ok {k : Ctx} {i : Nat} (h : i < k.cfg.maxElems) (w : Work) :
    readBuf k i w = .ok (cellAt k.chan k.epoch w.buf i) w := by simp [readBuf, h]

theorem writeBuf_ok {k : Ctx} {i : Nat} (h : i < k.cfg.maxElems) (v : W64) (w : Work) :
    writeBuf k i v w = .ok () { w with buf := Mem.write w.buf i v } := by simp [writeBuf, h]

theorem readIn_ok {k : Ctx} {i : Nat} (h : i < k.cfg.maxBytes) (w : Work) :
    readIn k i w = .ok (inByteAt k.chan k.epoch k.ibuf i) w := by simp [readIn, h]

theorem writeOut_ok {k : Ctx} {i : Nat} (h : i < k.cfg.maxBytes) (v : Byte) (w : Work) :
    writeOut k i v w = .ok () { w with obuf := Mem.write w.obuf i v } := by simp [writeOut, h]

/-- Reading a cell after writing one. -/
theorem cellAt_write (c : Chan) (n : Nat) (m : Mem 64) (i j : Nat) (v : W64) :
    cellAt c n (Mem.write m i v) j = if j = i then v else cellAt c n m j := by
  unfold cellAt; rw [Mem.written_write]; split <;> rfl

/-- Reading an `OBUF` byte after writing one. -/
theorem outByteAt_write (c : Chan) (n : Nat) (m : Mem 8) (i j : Nat) (v : Byte) :
    outByteAt c n (Mem.write m i v) j = if j = i then v else outByteAt c n m j := by
  unfold outByteAt; rw [Mem.written_write]; split <;> rfl

/-- Consecutive cells inside the memory are read and nothing changes. -/
theorem readCells_ok (k : Ctx) (start n : Nat) (h : start + n ≤ k.cfg.maxElems) (w : Work) :
    readCells k start n w = .ok ((List.range n).map fun i => cellAt k.chan k.epoch w.buf (start + i)) w := by
  induction n generalizing start with
  | zero => rfl
  | succ n ih =>
    rw [readCells, andThen_ok (readBuf_ok (by omega) w), andThen_ok (ih (start + 1) (by omega)), List.range_succ_eq_map]
    simp [Function.comp_def, Nat.add_comm, Nat.add_left_comm]

/-! ### Completion -/

/-- A float result register: its bits, or some NaN pattern; only the counter of free values changes. -/
theorem resultBits_ok (k : Ctx) (x : F64) (w : Work) :
    ∃ r n, resultBits k x w = .ok r { w with frees := n } ∧ (if isNaN x then isNaN r = true else r = x) := by
  refine ⟨_, _, rfl, ?_⟩
  split
  · rename_i h
    simp only [freeNaN]
    split
    · assumption
    · decide
  · rfl

/-- A command whose pseudocode answers completes with its reply. -/
theorem runCommand_ok {c : Chan} {body : Ctx → Cmd Reply} {s : State} {r : Reply} {w : Work}
    (h : body (s.ctx c) (s.work c) = .ok r w) : runCommand c body s = .next ((s.putWork c w).complete c r) := by
  simp [runCommand, h]

/-- A command whose redraw loop does not end leaves its channel busy. -/
theorem runCommand_stuck {c : Chan} {body : Ctx → Cmd Reply} {s : State} {w : Work}
    (h : body (s.ctx c) (s.work c) = .stuck w) : runCommand c body s = .next ((s.putWork c w).hang c) := by
  simp [runCommand, h]

/-- All that a command can do: complete, or not end; never another outcome where its pseudocode does not fault. -/
theorem runCommand_next {c : Chan} {body : Ctx → Cmd Reply} {s t : State} (h : runCommand c body s = .next t) :
    (∃ r w, body (s.ctx c) (s.work c) = .ok r w ∧ t = (s.putWork c w).complete c r) ∨
    (∃ w, body (s.ctx c) (s.work c) = .stuck w ∧ t = (s.putWork c w).hang c) := by
  unfold runCommand at h
  split at h
  · left; exact ⟨_, _, ‹_›, by cases h; rfl⟩
  · right; exact ⟨_, ‹_›, by cases h; rfl⟩
  · cases h

/-- All that a command legal on `S` only can do. -/
theorem runSecureOnly_next {c : Chan} {body : Ctx → Cmd Reply} {s t : State}
    (h : runSecureOnly c body s = .next t) :
    (c = .F ∧ t = s.complete .F (.fail .illegal 0#64)) ∨ (c = .S ∧ runCommand .S body s = .next t) := by
  cases c with
  | F => left; simp only [runSecureOnly, illegalCommand, Host.Outcome.next.injEq] at h; exact ⟨rfl, h.symm⟩
  | S => right; exact ⟨rfl, h⟩

end Sys2Proof.Machine
end

