-- ==== Sys2Proof/Laws/Sampler.lean ====
section
/-! SUPPORT. A command's pseudocode said in states: `Reaches` is how every piece of a command is cited, and the bounded
sampler (40_bounded_sampler.md R122) is said once: it reaches the first accepted word, or it does not end. -/

namespace Sys2Proof.Machine

/-! ### Pieces of commands as transitions of states -/

/-- Run on channel `c` of `s`, the piece `m` answers `a` and makes `t` of `s`. -/
def Reaches {α : Type} (c : Chan) (m : Ctx → Cmd α) (s : State) (a : α) (t : State) : Prop :=
  m (s.ctx c) (s.work c) = .ok a (t.work c) ∧ t = s.putWork c (t.work c)

/-- A piece that reaches `t` leaves what a command reads. -/
theorem Reaches.ctx {α : Type} {c : Chan} {m : Ctx → Cmd α} {s t : State} {a : α} (h : Reaches c m s a t) :
    t.ctx c = s.ctx c := by rw [h.2, State.putWork_ctx]

theorem reaches_ret {α : Type} (c : Chan) (s : State) (a : α) : Reaches c (fun _ => ret a) s a s := by
  simp [Reaches]

/-- Two pieces in sequence. -/
theorem Reaches.bind {α β : Type} {c : Chan} {m : Ctx → Cmd α} {f : Ctx → α → Cmd β} {s t u : State} {a : α} {b : β}
    (hm : Reaches c m s a t) (hf : Reaches c (fun k => f k a) t b u) :
    Reaches c (fun k => andThen (m k) (f k)) s b u := by
  refine ⟨?_, ?_⟩
  · show andThen _ _ _ = _
    rw [andThen_ok hm.1, ← hm.ctx]
    exact hf.1
  · rw [hf.2, hm.2, State.putWork_putWork _ _ _ _ (by simp)]
    rw [State.putWork_work _ _ _ (by simp)]

/-- A piece that does not end after another. -/
theorem Reaches.stuck {α β : Type} {c : Chan} {m : Ctx → Cmd α} {f : Ctx → α → Cmd β} {s t : State} {a : α} {w : Work}
    (hm : Reaches c m s a t) (hf : f (t.ctx c) a (t.work c) = .stuck w) :
    andThen (m (s.ctx c)) (f (s.ctx c)) (s.work c) = .stuck w := by
  rw [andThen_ok hm.1, ← hm.ctx, hf]

/-- A command whose pseudocode reaches `t` completes there with its reply. -/
theorem runCommand_reaches {c : Chan} {body : Ctx → Cmd Reply} {s t : State} {r : Reply} (h : Reaches c body s r t) :
    runCommand c body s = .next (t.complete c r) := by
  rw [runCommand_ok h.1, ← h.2]

theorem reaches_draw32 (c : Chan) (s : State) : Reaches c draw32 s (s.word c) (s.advance c) := by
  refine ⟨draw32_advance s c, ?_⟩
  rw [State.advance_work]
  rfl

theorem reaches_drawF (c : Chan) (s : State) : Reaches c drawF s (uniformOf (s.word c)) (s.advance c) :=
  (reaches_draw32 c s).bind (reaches_ret c _ _)

theorem State.putWork_self_work (s : State) (c : Chan) (w : Work) (h : w.engine.fits c = true) :
    s.putWork c w = s.putWork c ((s.putWork c w).work c) := by
  rw [State.putWork_work s c w h]

theorem reaches_readBuf {c : Chan} {s : State} {i : Nat} (h : i < s.cfg.maxElems) :
    Reaches c (fun k => readBuf k i) s (s.cell c i) s :=
  ⟨readBuf_ok h _, (State.putWork_work_self s c).symm⟩

theorem reaches_writeBuf {c : Chan} {s : State} {i : Nat} (h : i < s.cfg.maxElems) (v : W64) :
    Reaches c (fun k => writeBuf k i v) s () (s.setCell c i v) := by
  have hf : ({ s.work c with buf := Mem.write (s.work c).buf i v } : Work).engine.fits c = true := s.engine_fits c
  refine ⟨?_, State.putWork_self_work s c _ hf⟩
  show writeBuf _ _ _ _ = _
  rw [writeBuf_ok h, State.setCell, State.putWork_work s c _ hf]

theorem reaches_readIn {c : Chan} {s : State} {i : Nat} (h : i < s.cfg.maxBytes) :
    Reaches c (fun k => readIn k i) s (s.inByte c i) s :=
  ⟨readIn_ok h _, (State.putWork_work_self s c).symm⟩

theorem reaches_writeOut {c : Chan} {s : State} {i : Nat} (h : i < s.cfg.maxBytes) (v : Byte) :
    Reaches c (fun k => writeOut k i v) s () (s.setOut c i v) := by
  have hf : ({ s.work c with obuf := Mem.write (s.work c).obuf i v } : Work).engine.fits c = true := s.engine_fits c
  refine ⟨?_, State.putWork_self_work s c _ hf⟩
  show writeOut _ _ _ _ = _
  rw [writeOut_ok h, State.setOut, State.putWork_work s c _ hf]

theorem reaches_readCells {c : Chan} {s : State} {start n : Nat} (h : start + n ≤ s.cfg.maxElems) :
    Reaches c (fun k => readCells k start n) s ((List.range n).map fun i => s.cell c (start + i)) s :=
  ⟨readCells_ok _ _ _ h _, (State.putWork_work_self s c).symm⟩

/-! ### What the state operations leave -/

@[simp] theorem State.setCell_ctx (s : State) (c : Chan) (i : Nat) (v : W64) : (s.setCell c i v).ctx c = s.ctx c := by
  simp [State.setCell]

@[simp] theorem State.setOut_ctx (s : State) (c : Chan) (i : Nat) (v : Byte) : (s.setOut c i v).ctx c = s.ctx c := by
  simp [State.setOut]

@[simp] theorem State.setCell_cfg (s : State) (c : Chan) (i : Nat) (v : W64) : (s.setCell c i v).cfg = s.cfg := by
  simp [State.setCell]

@[simp] theorem State.setOut_cfg (s : State) (c : Chan) (i : Nat) (v : Byte) : (s.setOut c i v).cfg = s.cfg := by
  simp [State.setOut]

@[simp] theorem State.swapped_cfg (s : State) (c : Chan) (i j : Nat) : (s.swapped c i j).cfg = s.cfg := by
  simp [State.swapped]

@[simp] theorem State.setCell_engine (s : State) (c d : Chan) (i : Nat) (v : W64) :
    (s.setCell c i v).engine d = s.engine d := by cases c <;> cases d <;> rfl

@[simp] theorem State.setOut_engine (s : State) (c d : Chan) (i : Nat) (v : Byte) :
    (s.setOut c i v).engine d = s.engine d := by cases c <;> cases d <;> rfl

@[simp] theorem State.setCell_env (s : State) (c d : Chan) (i : Nat) (v : W64) :
    (s.setCell c i v).env d = s.env d := by cases c <;> cases d <;> rfl

@[simp] theorem State.setOut_env (s : State) (c d : Chan) (i : Nat) (v : Byte) :
    (s.setOut c i v).env d = s.env d := by cases c <;> cases d <;> rfl

theorem State.cell_setCell (s : State) (c : Chan) (i j : Nat) (v : W64) :
    (s.setCell c i v).cell c j = if j = i then v else s.cell c j := by
  simp [State.cell, State.setCell, cellAt_write]

theorem State.outByte_setOut (s : State) (c : Chan) (i j : Nat) (v : Byte) :
    (s.setOut c i v).outByte c j = if j = i then v else s.outByte c j := by
  simp [State.outByte, State.setOut, outByteAt_write]

@[simp] theorem State.outByte_setCell (s : State) (c : Chan) (i j : Nat) (v : W64) :
    (s.setCell c i v).outByte c j = s.outByte c j := by simp [State.outByte, State.setCell]

@[simp] theorem State.cell_setOut (s : State) (c : Chan) (i j : Nat) (v : Byte) :
    (s.setOut c i v).cell c j = s.cell c j := by simp [State.cell, State.setOut]

@[simp] theorem State.inByte_setOut (s : State) (c : Chan) (i j : Nat) (v : Byte) :
    (s.setOut c i v).inByte c j = s.inByte c j := by simp [State.inByte, State.setOut]

/-- Exchanging two cells, read back. -/
theorem State.cell_swapped (s : State) (c : Chan) (i j a : Nat) :
    (s.swapped c i j).cell c a = s.cell c (Equiv.swap i j a) := by
  rw [State.swapped, State.cell_setCell, State.cell_setCell, Equiv.swap_apply_def]
  split_ifs <;> simp_all

@[simp] theorem State.advance_cell (s : State) (c : Chan) (i : Nat) : (s.advance c).cell c i = s.cell c i := by
  simp [State.cell, State.advance]

@[simp] theorem State.advance_outByte (s : State) (c : Chan) (i : Nat) :
    (s.advance c).outByte c i = s.outByte c i := by simp [State.outByte, State.advance]

@[simp] theorem State.advance_inByte (s : State) (c : Chan) (i : Nat) : (s.advance c).inByte c i = s.inByte c i := by
  simp [State.inByte, State.advance]

@[simp] theorem State.advanceBy_cell (s : State) (c : Chan) (n i : Nat) : (s.advanceBy c n).cell c i = s.cell c i := by
  induction n with
  | zero => rfl
  | succ n ih => rw [State.advanceBy_succ, State.advance_cell, ih]

@[simp] theorem State.advanceBy_outByte (s : State) (c : Chan) (n i : Nat) :
    (s.advanceBy c n).outByte c i = s.outByte c i := by
  induction n with
  | zero => rfl
  | succ n ih => rw [State.advanceBy_succ, State.advance_outByte, ih]

@[simp] theorem State.advanceBy_inByte (s : State) (c : Chan) (n i : Nat) :
    (s.advanceBy c n).inByte c i = s.inByte c i := by
  induction n with
  | zero => rfl
  | succ n ih => rw [State.advanceBy_succ, State.advance_inByte, ih]

theorem State.advanceBy_add (s : State) (c : Chan) (m n : Nat) :
    (s.advanceBy c m).advanceBy c n = s.advanceBy c (m + n) := by
  induction n with
  | zero => rfl
  | succ n ih => rw [State.advanceBy_succ, ih, ← State.advanceBy_succ]; rfl

theorem State.wordAt_advanceBy (s : State) (c : Chan) (m n : Nat) :
    (s.advanceBy c m).wordAt c n = s.wordAt c (m + n) := by
  simp only [State.wordAt, State.advanceBy_add]

theorem State.wordAt_advance (s : State) (c : Chan) (n : Nat) : (s.advance c).wordAt c n = s.wordAt c (n + 1) := by
  rw [Nat.add_comm]; exact State.wordAt_advanceBy s c 1 n

theorem State.wordAt_zero (s : State) (c : Chan) : s.wordAt c 0 = s.word c := rfl

theorem State.advance_eq_putWork (s : State) (c : Chan) : s.advance c = s.putWork c { s.work c with
    engine := (s.advance c).engine c, env := (s.advance c).env c } := by
  conv_lhs => rw [State.advance]
  rw [State.advance, State.putWork_engine _ _ _ (drawEngine_fits _ _ _ _ (by simp)), State.putWork_env]

/-- Changes of engine and environment alone, one after the other. -/
theorem State.drew_trans {s t u : State} {c : Chan}
    (h1 : t = s.putWork c { s.work c with engine := t.engine c, env := t.env c })
    (h2 : u = t.putWork c { t.work c with engine := u.engine c, env := u.env c }) :
    u = s.putWork c { s.work c with engine := u.engine c, env := u.env c } := by
  have hw : t.work c = { s.work c with engine := t.engine c, env := t.env c } := by
    conv_lhs => rw [h1]
    exact State.putWork_work _ _ _ (by simp)
  calc u = t.putWork c { t.work c with engine := u.engine c, env := u.env c } := h2
    _ = (s.putWork c { s.work c with engine := t.engine c, env := t.env c }).putWork c
        { t.work c with engine := u.engine c, env := u.env c } := by rw [← h1]
    _ = s.putWork c { t.work c with engine := u.engine c, env := u.env c } :=
        State.putWork_putWork _ _ _ _ (by simp)
    _ = _ := by rw [hw]

/-- A command's draws, as a transition of states, change nothing but engine and environment. -/
theorem State.advanceBy_eq_putWork (s : State) (c : Chan) (n : Nat) :
    s.advanceBy c n = s.putWork c { s.work c with
      engine := (s.advanceBy c n).engine c, env := (s.advanceBy c n).env c } := by
  induction n with
  | zero => exact (State.putWork_work_self s c).symm
  | succ n ih => exact State.drew_trans ih (State.advance_eq_putWork _ c)

/-! ### The bounded sampler -/

theorem toNat_mul32x32 (x b : W32) : (mul32x32 x b).toNat = x.toNat * b.toNat := by
  have hx := x.isLt; have hb := b.isLt
  have : x.toNat * b.toNat < 2 ^ 64 := by nlinarith
  simp [mul32x32, zext64, BitVec.toNat_mul, BitVec.toNat_setWidth]
  omega

theorem toNat_low32 (v : W64) : (low32 v).toNat = v.toNat % 2 ^ 32 := by simp [low32, BitVec.extractLsb'_toNat]

theorem toNat_high32 (v : W64) : (high32 v).toNat = v.toNat / 2 ^ 32 := by
  have := v.isLt
  simp [high32, BitVec.extractLsb'_toNat, Nat.shiftRight_eq_div_pow]
  omega

/-- The threshold of 40_bounded_sampler.md R122 is `2^32 mod bound`. -/
theorem toNat_rejectThreshold (b : W32) (h : b ≠ 0#32) : (rejectThreshold b).toNat = 2 ^ 32 % b.toNat := by
  have hb := b.isLt
  have h0 : b.toNat ≠ 0 := fun e => h (BitVec.eq_of_toNat_eq (by simpa using e))
  simp only [rejectThreshold, neg32, BitVec.toNat_umod, BitVec.toNat_neg]
  rw [Nat.mod_eq_of_lt (by omega : 2 ^ 32 - b.toNat < 2 ^ 32)]
  conv_rhs => rw [show 2 ^ 32 = (2 ^ 32 - b.toNat) + b.toNat by omega, Nat.add_mod_right]

/-- The loop's test is rejection (40_bounded_sampler.md R125 (c)). -/
theorem low_lt_threshold_iff (x b : W32) (h : b ≠ 0#32) :
    low32 (mul32x32 x b) < rejectThreshold b ↔ ¬ Accepts b.toNat x.toNat := by
  rw [BitVec.lt_def, toNat_low32, toNat_mul32x32, toNat_rejectThreshold b h, Accepts]
  omega

/-- The value an accepted word gives. -/
theorem high32_mul (x b : W32) : high32 (mul32x32 x b) = BitVec.ofNat 32 (x.toNat * b.toNat / 2 ^ 32) := by
  have hx := x.isLt; have hb := b.isLt
  apply BitVec.eq_of_toNat_eq
  rw [toNat_high32, toNat_mul32x32, BitVec.toNat_ofNat, Nat.mod_eq_of_lt]
  rw [Nat.div_lt_iff_lt_mul (by norm_num)]
  nlinarith

theorem Sampled.lt {c : Chan} {b : W32} {s t : State} {v : W32} (h : Sampled c b s v t) (hb : b ≠ 0#32) : v < b := by
  obtain ⟨h0, -⟩ | ⟨-, n, -, -, -, rfl, -⟩ := h
  · exact absurd h0 hb
  · rw [← high32_mul, BitVec.lt_def, toNat_high32, toNat_mul32x32, Nat.div_lt_iff_lt_mul (by norm_num)]
    have := (s.wordAt c n).isLt
    have h0 : b.toNat ≠ 0 := fun e => hb (BitVec.eq_of_toNat_eq (by simpa using e))
    nlinarith [Nat.pos_of_ne_zero h0]

/-- How the redraw loop can go on from the product of the word before `s`: at the first accepted word it answers, and
where the fuel's worth of words is rejected it is stuck. -/
theorem redraw_cases (c : Chan) (b : W32) (hb : b ≠ 0#32) (fuel : Nat) (s : State) (x : W32) :
    (∃ n, n ≤ fuel ∧ (∀ j, j < n → ¬ Accepts b.toNat ((if j = 0 then x else s.wordAt c (j - 1))).toNat) ∧
      Accepts b.toNat (if n = 0 then x else s.wordAt c (n - 1)).toNat ∧
      Reaches c (fun k => redraw k b (rejectThreshold b) fuel (mul32x32 x b)) s
        (high32 (mul32x32 (if n = 0 then x else s.wordAt c (n - 1)) b)) (s.advanceBy c n)) ∨
    ((∀ j, j ≤ fuel → ¬ Accepts b.toNat ((if j = 0 then x else s.wordAt c (j - 1))).toNat) ∧
      redraw (s.ctx c) b (rejectThreshold b) fuel (mul32x32 x b) (s.work c) = .stuck ((s.advanceBy c fuel).work c)) := by
  induction fuel generalizing s x with
  | zero =>
    by_cases h : Accepts b.toNat x.toNat
    · left
      refine ⟨0, le_rfl, by simp, by simpa using h, ?_⟩
      have hn : ¬ low32 (mul32x32 x b) < rejectThreshold b := by rw [low_lt_threshold_iff x b hb]; simpa using h
      simp only [redraw, if_neg hn]
      exact reaches_ret _ _ _
    · right
      have hn : low32 (mul32x32 x b) < rejectThreshold b := by rw [low_lt_threshold_iff x b hb]; exact h
      refine ⟨fun j hj => ?_, by simp [redraw, hn]⟩
      obtain rfl : j = 0 := by omega
      simpa using h
  | succ fuel ih =>
    by_cases h : Accepts b.toNat x.toNat
    · left
      refine ⟨0, by omega, by simp, by simpa using h, ?_⟩
      have hn : ¬ low32 (mul32x32 x b) < rejectThreshold b := by rw [low_lt_threshold_iff x b hb]; simpa using h
      simp only [redraw, if_neg hn]
      exact reaches_ret _ _ _
    · have hn : low32 (mul32x32 x b) < rejectThreshold b := by rw [low_lt_threshold_iff x b hb]; exact h
      have key : ∀ j, (if j + 1 = 0 then x else s.wordAt c (j + 1 - 1)) =
          if j = 0 then s.word c else (s.advance c).wordAt c (j - 1) := by
        intro j
        cases j with
        | zero => rfl
        | succ j => simp [State.wordAt_advance]
      have rej : ∀ m, (∀ j, j < m → ¬ Accepts b.toNat
            (if j = 0 then s.word c else (s.advance c).wordAt c (j - 1)).toNat) →
          ∀ j, j < m + 1 → ¬ Accepts b.toNat (if j = 0 then x else s.wordAt c (j - 1)).toNat := by
        intro m hm j hj
        cases j with
        | zero => simpa using h
        | succ j => rw [key j]; exact hm j (by omega)
      obtain ⟨n, hle, hrej, hacc, hr⟩ | ⟨hrej, hst⟩ := ih (s.advance c) (s.word c)
      · left
        refine ⟨n + 1, by omega, rej n hrej, by rw [key n]; exact hacc, ?_⟩
        rw [key n, ← State.advance_advanceBy]
        simp only [redraw, if_pos hn]
        exact (reaches_draw32 c s).bind hr
      · right
        refine ⟨fun j hj => rej (fuel + 1) (fun i hi => hrej i (by omega)) j (by omega), ?_⟩
        rw [← State.advance_advanceBy]
        simp only [redraw, if_pos hn]
        exact (reaches_draw32 c s).stuck (f := fun k x => redraw k b (rejectThreshold b) fuel (mul32x32 x b)) hst

/-- All that a bounded draw can do (40_bounded_sampler.md R122, R123, R126): answer as `Sampled` says, or, after
`fuel + 1` rejected words, not end. -/
theorem boundedSample_cases (c : Chan) (b : W32) (s : State) :
    (∃ v t, Sampled c b s v t ∧ Reaches c (fun k => boundedSample k b) s v t) ∨
    (b ≠ 0#32 ∧ (∀ j, j ≤ s.cfg.fuel → ¬ Accepts b.toNat (s.wordAt c j).toNat) ∧
      boundedSample (s.ctx c) b (s.work c) = .stuck ((s.advanceBy c (s.cfg.fuel + 1)).work c)) := by
  by_cases hb : b = 0#32
  · left
    refine ⟨0#32, s, .inl ⟨hb, rfl, rfl⟩, ?_⟩
    simp only [boundedSample, if_pos hb]
    exact reaches_ret _ _ _
  · have key : ∀ j, (if j = 0 then s.word c else (s.advance c).wordAt c (j - 1)) = s.wordAt c j := by
      intro j
      cases j with
      | zero => rfl
      | succ j => simp [State.wordAt_advance]
    by_cases hl : low32 (mul32x32 (s.word c) b) < b
    · have hbody : ∀ k, boundedSample k b = andThen (draw32 k) fun x =>
          if low32 (mul32x32 x b) < b then redraw k b (rejectThreshold b) k.cfg.fuel (mul32x32 x b)
          else ret (high32 (mul32x32 x b)) := by
        intro k; simp only [boundedSample, if_neg hb]
      obtain ⟨n, hle, hrej, hacc, hr⟩ | ⟨hrej, hst⟩ := redraw_cases c b hb s.cfg.fuel (s.advance c) (s.word c)
      · left
        simp only [key] at hrej hacc hr
        refine ⟨_, _, .inr ⟨hb, n, hle, hrej, hacc, rfl, rfl⟩, ?_⟩
        rw [← high32_mul, ← State.advance_advanceBy]
        simp only [hbody]
        refine (reaches_draw32 c s).bind (f := fun k x =>
          if low32 (mul32x32 x b) < b then redraw k b (rejectThreshold b) k.cfg.fuel (mul32x32 x b)
          else ret (high32 (mul32x32 x b))) ?_
        simp only [if_pos hl]
        refine ⟨?_, hr.2⟩
        have := hr.1
        simpa using this
      · right
        simp only [key] at hrej
        refine ⟨hb, hrej, ?_⟩
        rw [hbody, ← State.advance_advanceBy]
        refine (reaches_draw32 c s).stuck (f := fun k x =>
          if low32 (mul32x32 x b) < b then redraw k b (rejectThreshold b) k.cfg.fuel (mul32x32 x b)
          else ret (high32 (mul32x32 x b))) ?_
        simp only [if_pos hl]
        simpa using hst
    · left
      have hacc : Accepts b.toNat (s.wordAt c 0).toNat := by
        by_contra hn
        rw [State.wordAt_zero, ← low_lt_threshold_iff _ _ hb, BitVec.lt_def] at hn
        rw [BitVec.lt_def] at hl
        have : (rejectThreshold b).toNat < b.toNat := by
          rw [toNat_rejectThreshold b hb]
          exact Nat.mod_lt _ (Nat.pos_of_ne_zero fun e => hb (BitVec.eq_of_toNat_eq (by simpa using e)))
        omega
      refine ⟨_, _, .inr ⟨hb, 0, Nat.zero_le _, by simp, hacc, rfl, rfl⟩, ?_⟩
      rw [← high32_mul]
      simp only [boundedSample, if_neg hb]
      refine (reaches_draw32 c s).bind (f := fun k x =>
          if low32 (mul32x32 x b) < b then redraw k b (rejectThreshold b) k.cfg.fuel (mul32x32 x b)
          else ret (high32 (mul32x32 x b))) ?_
      simp only [if_neg hl]
      exact reaches_ret _ _ _

/-- A bounded draw has at most one outcome. -/
theorem Sampled.unique {c : Chan} {b : W32} {s t t' : State} {v v' : W32} (h : Sampled c b s v t)
    (h' : Sampled c b s v' t') : v = v' ∧ t = t' := by
  obtain ⟨h0, rfl, rfl⟩ | ⟨hb, n, -, hrej, hacc, rfl, rfl⟩ := h
  · obtain ⟨-, rfl, rfl⟩ | ⟨hb, -⟩ := h'
    · exact ⟨rfl, rfl⟩
    · exact absurd h0 hb
  · obtain ⟨h0, -⟩ | ⟨-, n', -, hrej', hacc', rfl, rfl⟩ := h'
    · exact absurd h0 hb
    · have : n = n' := by
        rcases lt_trichotomy n n' with h | h | h
        · exact absurd hacc (hrej' n h)
        · exact h
        · exact absurd hacc' (hrej n' h)
      subst this
      exact ⟨rfl, rfl⟩

/-- The bounded sampler answers as `Sampled` says, whenever that is possible. -/
theorem reaches_boundedSample {c : Chan} {b : W32} {s t : State} {v : W32} (h : Sampled c b s v t) :
    Reaches c (fun k => boundedSample k b) s v t := by
  obtain ⟨v', t', h', hr⟩ | ⟨hb, hrej, -⟩ := boundedSample_cases c b s
  · obtain ⟨rfl, rfl⟩ := h.unique h'
    exact hr
  · obtain ⟨h0, -⟩ | ⟨-, n, hn, -, hacc, -⟩ := h
    · exact absurd h0 hb
    · exact absurd hacc (hrej n hn)

end Sys2Proof.Machine
end

