-- ==== Sys2Proof/Laws/Loops.lean ====
section
/-! SUPPORT. The counted loops and the float results of the commands, each said once. -/

namespace Sys2Proof.Machine

/-! ### What draws leave -/

@[simp] theorem State.advance_port (s : State) (c : Chan) : (s.advance c).port c = s.port c := by
  cases c <;> rfl

@[simp] theorem State.advance_port_other (s : State) (c : Chan) : (s.advance c).port c.other = s.port c.other := by
  simp [State.advance]

@[simp] theorem State.advance_engine_other (s : State) (c : Chan) :
    (s.advance c).engine c.other = s.engine c.other := by simp [State.advance]

@[simp] theorem State.advance_env_other (s : State) (c : Chan) : (s.advance c).env c.other = s.env c.other := by
  simp [State.advance]

@[simp] theorem State.advance_host (s : State) (c : Chan) : (s.advance c).host = s.host := by simp [State.advance]

@[simp] theorem State.advance_readLog (s : State) (c : Chan) : (s.advance c).readLog = s.readLog := by
  simp [State.advance]

@[simp] theorem State.advanceBy_port (s : State) (c : Chan) (n : Nat) : (s.advanceBy c n).port c = s.port c := by
  induction n with
  | zero => rfl
  | succ n ih => rw [State.advanceBy_succ, State.advance_port, ih]

@[simp] theorem State.advanceBy_port_other (s : State) (c : Chan) (n : Nat) :
    (s.advanceBy c n).port c.other = s.port c.other := by
  induction n with
  | zero => rfl
  | succ n ih => rw [State.advanceBy_succ, State.advance_port_other, ih]

@[simp] theorem State.advanceBy_engine_other (s : State) (c : Chan) (n : Nat) :
    (s.advanceBy c n).engine c.other = s.engine c.other := by
  induction n with
  | zero => rfl
  | succ n ih => rw [State.advanceBy_succ, State.advance_engine_other, ih]

@[simp] theorem State.advanceBy_env_other (s : State) (c : Chan) (n : Nat) :
    (s.advanceBy c n).env c.other = s.env c.other := by
  induction n with
  | zero => rfl
  | succ n ih => rw [State.advanceBy_succ, State.advance_env_other, ih]

@[simp] theorem State.advanceBy_host (s : State) (c : Chan) (n : Nat) : (s.advanceBy c n).host = s.host := by
  induction n with
  | zero => rfl
  | succ n ih => rw [State.advanceBy_succ, State.advance_host, ih]

@[simp] theorem State.advanceBy_readLog (s : State) (c : Chan) (n : Nat) :
    (s.advanceBy c n).readLog = s.readLog := by
  induction n with
  | zero => rfl
  | succ n ih => rw [State.advanceBy_succ, State.advance_readLog, ih]

/-- A bounded draw leaves what its draws leave. -/
theorem Sampled.draws {c : Chan} {b : W32} {s t : State} {v : W32} (h : Sampled c b s v t) :
    ∃ n, t = s.advanceBy c n := by
  obtain ⟨-, -, rfl⟩ | ⟨-, n, -, -, -, -, rfl⟩ := h
  · exact ⟨0, rfl⟩
  · exact ⟨n + 1, rfl⟩

/-! ### Float results -/

theorem State.putWork_frees (s : State) (c : Chan) (n : Nat) (m : Nat) :
    s.putWork c { (s.advanceBy c n).work c with frees := m } =
      (s.advanceBy c n).putWork c { (s.advanceBy c n).work c with frees := m } := by
  conv_rhs => rw [State.advanceBy_eq_putWork s c n]
  rw [State.putWork_putWork _ _ _ _ (by simp), State.putWork_work _ _ _ (by simp)]
  simp

/-- A command that ends with two float results after `n` draws. -/
theorem samples_of_point2 {i : Instr} {c : Chan} {body : Ctx → Cmd Reply} {s : State} {n : Nat} {x y : F64}
    (hi : exec i s = runCommand c body s) (hc : i.chan = c)
    (h : body (s.ctx c) (s.work c) = okPoint2 (s.ctx c) x y ((s.advanceBy c n).work c)) : Samples i n x y fZero s := by
  subst hc
  obtain ⟨a, m, ha, hax⟩ := resultBits_ok (s.ctx i.chan) x ((s.advanceBy i.chan n).work i.chan)
  obtain ⟨b, m', hb, hbx⟩ := resultBits_ok (s.ctx i.chan) y { (s.advanceBy i.chan n).work i.chan with frees := m }
  rw [okPoint2, andThen_ok ha, andThen_ok hb, ret_apply] at h
  refine ⟨_, hi.trans (runCommand_ok h), ?_⟩
  simp only [SampledFloats, HoldsFloat, Completed, DrewWords, OnlyChannel, InputsKept, BufKept, OutKept, State.cell,
    State.inByte, State.outByte]
  rw [State.putWork_frees]
  simp [Reply.results, Reply.okFlag, Reply.errCode, hax, hbx, State.putWork_engine, fZero]

/-- A command that ends with three float results after `n` draws. -/
theorem samples_of_point3 {i : Instr} {c : Chan} {body : Ctx → Cmd Reply} {s : State} {n : Nat} {x y z : F64}
    (hi : exec i s = runCommand c body s) (hc : i.chan = c)
    (h : body (s.ctx c) (s.work c) = okPoint3 (s.ctx c) x y z ((s.advanceBy c n).work c)) : Samples i n x y z s := by
  subst hc
  obtain ⟨a, m, ha, hax⟩ := resultBits_ok (s.ctx i.chan) x ((s.advanceBy i.chan n).work i.chan)
  obtain ⟨b, m', hb, hbx⟩ := resultBits_ok (s.ctx i.chan) y { (s.advanceBy i.chan n).work i.chan with frees := m }
  obtain ⟨d, m'', hd, hdx⟩ := resultBits_ok (s.ctx i.chan) z { (s.advanceBy i.chan n).work i.chan with frees := m' }
  rw [okPoint3, andThen_ok ha, andThen_ok hb, andThen_ok hd, ret_apply] at h
  refine ⟨_, hi.trans (runCommand_ok h), ?_⟩
  simp only [SampledFloats, HoldsFloat, Completed, DrewWords, OnlyChannel, InputsKept, BufKept, OutKept, State.cell,
    State.inByte, State.outByte]
  rw [State.putWork_frees]
  simp [Reply.results, Reply.okFlag, Reply.errCode, hax, hbx, hdx, State.putWork_engine]

/-- A command that ends with one float result after `n` draws. -/
theorem samples_of_float {i : Instr} {c : Chan} {body : Ctx → Cmd Reply} {s : State} {n : Nat} {x : F64}
    (hi : exec i s = runCommand c body s) (hc : i.chan = c)
    (h : body (s.ctx c) (s.work c) = okFloat (s.ctx c) x ((s.advanceBy c n).work c)) :
    Samples i n x fZero fZero s := by
  subst hc
  obtain ⟨a, m, ha, hax⟩ := resultBits_ok (s.ctx i.chan) x ((s.advanceBy i.chan n).work i.chan)
  rw [okFloat, andThen_ok ha, ret_apply] at h
  refine ⟨_, hi.trans (runCommand_ok h), ?_⟩
  simp only [SampledFloats, HoldsFloat, Completed, DrewWords, OnlyChannel, InputsKept, BufKept, OutKept, State.cell,
    State.inByte, State.outByte]
  rw [State.putWork_frees]
  simp [Reply.results, Reply.okFlag, Reply.errCode, hax, State.putWork_engine, fZero]

/-- What a completed failure leaves. -/
theorem onlyReports_complete (c : Chan) (e : Err) (v : W64) (s : State) :
    OnlyReports c e v s (s.complete c (.fail e v)) := by
  simp [OnlyReports, Completed, OnlyChannel, Reply.results, Reply.okFlag, Reply.errCode]

/-- A command whose pseudocode fails before anything else. -/
theorem fails_of_body {i : Instr} {c : Chan} {body : Ctx → Cmd Reply} {s : State} {e : Err} {v : W64}
    (hi : exec i s = runCommand c body s) (hc : i.chan = c)
    (h : body (s.ctx c) (s.work c) = .ok (.fail e v) (s.work c)) : Fails i e v s := by
  subst hc
  refine ⟨_, hi.trans (runCommand_ok h), ?_⟩
  rw [State.putWork_work_self]
  exact onlyReports_complete _ _ _ _

/-- A command whose pseudocode reaches `u` with success. -/
theorem succeeds_of_reaches {i : Instr} {c : Chan} {body : Ctx → Cmd Reply} {s u : State} {v0 v1 v2 v3 : W64}
    (hi : exec i s = runCommand c body s) (hc : i.chan = c) (h : Reaches c body s (.done v0 v1 v2 v3) u) :
    Succeeds i v0 v1 v2 v3 u s := by
  subst hc
  exact hi.trans (runCommand_reaches h)

/-! ### Counted loops -/

theorem reaches_swapCells {c : Chan} {s : State} {i j : Nat} (hi : i < s.cfg.maxElems) (hj : j < s.cfg.maxElems) :
    Reaches c (fun k => swapCells k i j) s () (s.swapped c i j) := by
  refine (reaches_readBuf hi).bind (f := fun k x => andThen (readBuf k j) fun y =>
    andThen (writeBuf k i y) fun _ => writeBuf k j x) ?_
  refine (reaches_readBuf hj).bind (f := fun k y => andThen (writeBuf k i y) fun _ => writeBuf k j (s.cell c i)) ?_
  exact (reaches_writeBuf hi _).bind (f := fun k _ => writeBuf k j (s.cell c i)) (reaches_writeBuf (by simpa using hj) _)

/-- The downward shuffle does what `ShuffledFrom` says. -/
theorem reaches_shuffleDown {c : Chan} {base n : Nat} {s t : State} (h : ShuffledFrom c base n s t)
    (hn : n < 2 ^ 32 - 1) (hb : base + n < s.cfg.maxElems) : Reaches c (fun k => shuffleDown k base n) s () t := by
  induction n generalizing s with
  | zero =>
    obtain rfl : t = s := h
    exact reaches_ret _ _ _
  | succ n ih =>
    obtain ⟨v, u, hv, ht⟩ := h
    have hlt : v < BitVec.ofNat 32 (n + 2) := hv.lt (by
      intro e
      have := congrArg BitVec.toNat e
      simp at this
      omega)
    rw [BitVec.lt_def, BitVec.toNat_ofNat, Nat.mod_eq_of_lt (by omega)] at hlt
    obtain ⟨m, hu⟩ := hv.draws
    have hcfg : u.cfg = s.cfg := by rw [hu]; simp
    refine (reaches_boundedSample hv).bind (f := fun k j =>
      andThen (swapCells k (base + (n + 1)) (base + j.toNat)) fun _ => shuffleDown k base n) ?_
    refine (reaches_swapCells (by rw [hcfg]; omega) (by rw [hcfg]; omega)).bind (f := fun k _ => shuffleDown k base n) ?_
    exact ih ht (by omega) (by simp only [State.swapped_cfg]; rw [hcfg]; omega)

/-- The dice loop adds what `DiceRolled` says. -/
theorem reaches_diceSum {c : Chan} {sides : W32} {n : Nat} {s t : State} {sum acc : W32}
    (h : DiceRolled c sides n s sum t) : Reaches c (fun k => diceSum k sides n acc) s (acc + sum) t := by
  induction n generalizing s sum acc with
  | zero =>
    obtain ⟨rfl, rfl⟩ := h
    rw [BitVec.add_zero]
    exact reaches_ret c t acc
  | succ n ih =>
    obtain ⟨v, u, rest, hv, ht, rfl⟩ := h
    refine (reaches_boundedSample hv).bind (f := fun k v => diceSum k sides n (acc + v + 1#32)) ?_
    have := ih (acc := acc + v + 1#32) ht
    rwa [show acc + v + 1#32 + rest = acc + (v + 1#32 + rest) by simp [BitVec.add_assoc]] at this

theorem reaches_drawWords (c : Chan) (n : Nat) (s : State) :
    Reaches c (fun k => drawWords k n) s ((List.range n).map (s.wordAt c)) (s.advanceBy c n) := by
  induction n generalizing s with
  | zero => exact reaches_ret _ _ _
  | succ n ih =>
    refine (reaches_draw32 c s).bind (f := fun k x => andThen (drawWords k n) fun xs => ret (x :: xs)) ?_
    rw [← State.advance_advanceBy]
    have h := (ih (s.advance c)).bind (f := fun _ xs => ret (s.word c :: xs)) (reaches_ret c _ _)
    have hw : (s.advance c).wordAt c = fun i => s.wordAt c (i + 1) := funext (State.wordAt_advance s c)
    rw [hw] at h
    rw [List.range_succ_eq_map]
    simpa [Function.comp_def, State.wordAt_zero] using h

@[simp] theorem State.setOuts_cfg (s : State) (c : Chan) (i : Nat) (bs : List Byte) :
    (s.setOuts c i bs).cfg = s.cfg := by
  induction bs generalizing s i with
  | nil => rfl
  | cons b bs ih => rw [State.setOuts, ih, State.setOut_cfg]

theorem reaches_writeOuts {c : Chan} {s : State} {i : Nat} {bs : List Byte} (h : i + bs.length ≤ s.cfg.maxBytes) :
    Reaches c (fun k => writeOuts k i bs) s () (s.setOuts c i bs) := by
  induction bs generalizing s i with
  | nil => exact reaches_ret _ _ _
  | cons b bs ih =>
    simp only [List.length_cons] at h
    exact (reaches_writeOut (by omega) b).bind (f := fun k _ => writeOuts k (i + 1) bs)
      (ih (by simp only [State.setOut_cfg]; omega))

/-- The bytes written, read back. -/
theorem State.outByte_setOuts (s : State) (c : Chan) (i : Nat) (bs : List Byte) (a : Nat) :
    (s.setOuts c i bs).outByte c a = if h : i ≤ a ∧ a < i + bs.length then bs[a - i] else s.outByte c a := by
  induction bs generalizing s i with
  | nil => simp [State.setOuts, show ¬ (i ≤ a ∧ a < i) by omega]
  | cons b bs ih =>
    rw [State.setOuts, ih, State.outByte_setOut]
    by_cases ha : a = i
    · subst ha; simp
    · by_cases hb : i + 1 ≤ a ∧ a < i + 1 + bs.length
      · rw [dif_pos hb, dif_pos (by simp only [List.length_cons]; omega)]
        obtain ⟨m, rfl⟩ : ∃ m, a = i + 1 + m := ⟨a - (i + 1), by omega⟩
        simp [show i + 1 + m - i = m + 1 by omega]
      · rw [dif_neg hb, if_neg ha, dif_neg (by simp only [List.length_cons]; omega)]

/-- Storing bytes leaves the engines and environments alone. -/
@[simp] theorem State.setOuts_engine (s : State) (c d : Chan) (i : Nat) (bs : List Byte) :
    (s.setOuts c i bs).engine d = s.engine d := by
  induction bs generalizing s i with
  | nil => rfl
  | cons b bs ih => rw [State.setOuts, ih, State.setOut_engine]

@[simp] theorem State.setOuts_env (s : State) (c d : Chan) (i : Nat) (bs : List Byte) :
    (s.setOuts c i bs).env d = s.env d := by
  induction bs generalizing s i with
  | nil => rfl
  | cons b bs ih => rw [State.setOuts, ih, State.setOut_env]

end Sys2Proof.Machine
end

