-- ==== Sys2Proof/Laws/Frames.lean ====
section
/-! SUPPORT. The frame of every command's pseudocode, said once for each: what it changes besides its reply is a number
of draws and the memory elements it may store to; it faults only under a configuration that breaks 00_scope.md R7. -/

namespace Sys2Proof.Machine

/-! ### Draws of an engine -/

/-- An engine and its environment after `n` draws. -/
def drawsFrom (k : Cfg) : Nat → Engine × Env → Engine × Env
  | 0, p => p
  | n + 1, p => (drawEngine k (drawsFrom k n p).1 (drawsFrom k n p).2).2

theorem drawsFrom_add (k : Cfg) (m n : Nat) (p : Engine × Env) :
    drawsFrom k m (drawsFrom k n p) = drawsFrom k (n + m) p := by
  induction m with
  | zero => rfl
  | succ m ih => rw [drawsFrom, ih]; rfl

/-- The draws of a channel, in the words of the statements. -/
theorem State.advanceBy_drawsFrom (s : State) (c : Chan) (n : Nat) :
    ((s.advanceBy c n).engine c, (s.advanceBy c n).env c) = drawsFrom s.cfg n (s.engine c, s.env c) := by
  induction n with
  | zero => rfl
  | succ n ih =>
    rw [drawsFrom, ← ih, State.advanceBy_succ, State.advance, State.putWork_env, State.advanceBy_cfg,
      State.putWork_engine _ _ _ (drawEngine_fits _ _ _ _ (by simp))]

/-! ### What a piece of a command keeps -/

/-- From `w` to `w'` engine and environment made draws, `BUF` changed at most where `B` holds and `OBUF` at most where
`O` holds, and both kept their canonical form and their size. -/
structure Moved (k : Ctx) (B O : Nat → Prop) (w w' : Work) : Prop where
  draws : ∃ n, (w'.engine, w'.env) = drawsFrom k.cfg n (w.engine, w.env)
  buf : ∀ a, ¬ B a → Mem.written w'.buf a = Mem.written w.buf a
  obuf : ∀ a, ¬ O a → Mem.written w'.obuf a = Mem.written w.obuf a
  bufForm : Mem.wf w.buf = true → Mem.within k.cfg.maxElems w.buf = true →
    Mem.wf w'.buf = true ∧ Mem.within k.cfg.maxElems w'.buf = true
  obufForm : Mem.wf w.obuf = true → Mem.within k.cfg.maxBytes w.obuf = true →
    Mem.wf w'.obuf = true ∧ Mem.within k.cfg.maxBytes w'.obuf = true

theorem Moved.refl (k : Ctx) (B O : Nat → Prop) (w : Work) : Moved k B O w w :=
  ⟨⟨0, rfl⟩, fun _ _ => rfl, fun _ _ => rfl, fun h h' => ⟨h, h'⟩, fun h h' => ⟨h, h'⟩⟩

theorem Moved.trans {k : Ctx} {B O : Nat → Prop} {w w' w'' : Work} (h : Moved k B O w w') (h' : Moved k B O w' w'') :
    Moved k B O w w'' where
  draws := by
    obtain ⟨n, hn⟩ := h.draws
    obtain ⟨m, hm⟩ := h'.draws
    exact ⟨n + m, by rw [hm, hn, drawsFrom_add]⟩
  buf a ha := (h'.buf a ha).trans (h.buf a ha)
  obuf a ha := (h'.obuf a ha).trans (h.obuf a ha)
  bufForm h1 h2 := h'.bufForm (h.bufForm h1 h2).1 (h.bufForm h1 h2).2
  obufForm h1 h2 := h'.obufForm (h.obufForm h1 h2).1 (h.obufForm h1 h2).2

/-- The run that ended as `r` moved as `Moved` says; its answer satisfies `P`; it faulted only where `Cfg.wf` fails. -/
def KeptTo {α : Type} (k : Ctx) (B O : Nat → Prop) (P : α → Prop) (w : Work) (r : Res α) : Prop :=
  match r with
  | .ok a w' => Moved k B O w w' ∧ P a
  | .stuck w' => Moved k B O w w'
  | .fault _ => k.cfg.wf = false

/-- Every run of `m` ends as `KeptTo` says. -/
def Keeps {α : Type} (k : Ctx) (B O : Nat → Prop) (P : α → Prop) (m : Cmd α) : Prop := ∀ w, KeptTo k B O P w (m w)

theorem keeps_ret {α : Type} {k : Ctx} {B O : Nat → Prop} {P : α → Prop} {a : α} (h : P a) : Keeps k B O P (ret a) :=
  fun w => ⟨Moved.refl k B O w, h⟩

theorem keeps_andThen {α β : Type} {k : Ctx} {B O : Nat → Prop} {P : α → Prop} {Q : β → Prop} {m : Cmd α}
    {f : α → Cmd β} (hm : Keeps k B O P m) (hf : ∀ a, P a → Keeps k B O Q (f a)) : Keeps k B O Q (andThen m f) := by
  intro w
  have h := hm w
  unfold andThen
  cases hw : m w with
  | ok a w' =>
    rw [hw] at h
    have h' := hf a h.2 w'
    show KeptTo k B O Q w (f a w')
    cases hf' : f a w' with
    | ok b w'' => rw [hf'] at h'; exact ⟨h.1.trans h'.1, h'.2⟩
    | stuck w'' => rw [hf'] at h'; exact h.1.trans h'
    | fault e => rw [hf'] at h'; exact h'
  | stuck w' => rw [hw] at h; exact h
  | fault e => rw [hw] at h; exact h

theorem Keeps.weaken {α : Type} {k : Ctx} {B O : Nat → Prop} {P Q : α → Prop} {m : Cmd α} (h : Keeps k B O P m)
    (hq : ∀ a, P a → Q a) : Keeps k B O Q m := by
  intro w
  have h' := h w
  cases hw : m w with
  | ok a w' => rw [hw] at h'; exact ⟨h'.1, hq a h'.2⟩
  | stuck w' => rw [hw] at h'; exact h'
  | fault e => rw [hw] at h'; exact h'

theorem keeps_draw32 (k : Ctx) (B O : Nat → Prop) : Keeps k B O (fun _ => True) (draw32 k) :=
  fun _ => ⟨⟨⟨1, rfl⟩, fun _ _ => rfl, fun _ _ => rfl, fun h h' => ⟨h, h'⟩, fun h h' => ⟨h, h'⟩⟩, trivial⟩

theorem keeps_drawF (k : Ctx) (B O : Nat → Prop) : Keeps k B O (fun _ => True) (drawF k) :=
  keeps_andThen (keeps_draw32 k B O) fun _ _ => keeps_ret trivial

theorem keeps_resultBits (k : Ctx) (B O : Nat → Prop) (x : F64) : Keeps k B O (fun _ => True) (resultBits k x) :=
  fun _ => ⟨⟨⟨0, rfl⟩, fun _ _ => rfl, fun _ _ => rfl, fun h h' => ⟨h, h'⟩, fun h h' => ⟨h, h'⟩⟩, trivial⟩

theorem keeps_readBuf {k : Ctx} (B O : Nat → Prop) {i : Nat} (h : k.cfg.wf = false ∨ i < k.cfg.maxElems) :
    Keeps k B O (fun _ => True) (readBuf k i) := by
  intro w
  by_cases hi : i < k.cfg.maxElems
  · rw [readBuf_ok hi]
    exact ⟨Moved.refl k B O w, trivial⟩
  · simp only [readBuf, if_neg hi]
    exact h.resolve_right hi

theorem keeps_readIn {k : Ctx} (B O : Nat → Prop) {i : Nat} (hi : i < k.cfg.maxBytes) :
    Keeps k B O (fun _ => True) (readIn k i) := by
  intro w
  rw [readIn_ok hi]
  exact ⟨Moved.refl k B O w, trivial⟩

theorem keeps_writeBuf {k : Ctx} {B : Nat → Prop} (O : Nat → Prop) {i : Nat} (hi : i < k.cfg.maxElems) (hb : B i)
    (v : W64) : Keeps k B O (fun _ => True) (writeBuf k i v) := by
  intro w
  rw [writeBuf_ok hi]
  refine ⟨⟨⟨0, rfl⟩, fun a ha => ?_, fun _ _ => rfl, fun h h' => ?_, fun h h' => ⟨h, h'⟩⟩, trivial⟩
  · exact Mem.written_write_other _ _ _ _ fun e => ha (e ▸ hb)
  · exact ⟨Mem.wf_write _ _ _ h, Mem.within_write _ _ _ _ h' hi⟩

theorem keeps_writeOut {k : Ctx} (B : Nat → Prop) {O : Nat → Prop} {i : Nat} (h : k.cfg.wf = false ∨ i < k.cfg.maxBytes)
    (ho : O i) (v : Byte) : Keeps k B O (fun _ => True) (writeOut k i v) := by
  intro w
  by_cases hi : i < k.cfg.maxBytes
  · rw [writeOut_ok hi]
    refine ⟨⟨⟨0, rfl⟩, fun _ _ => rfl, fun a ha => ?_, fun h h' => ⟨h, h'⟩, fun h h' => ?_⟩, trivial⟩
    · exact Mem.written_write_other _ _ _ _ fun e => ha (e ▸ ho)
    · exact ⟨Mem.wf_write _ _ _ h, Mem.within_write _ _ _ _ h' hi⟩
  · simp only [writeOut, if_neg hi]
    exact h.resolve_right hi

theorem keeps_readCells {k : Ctx} (B O : Nat → Prop) {start n : Nat}
    (h : k.cfg.wf = false ∨ start + n ≤ k.cfg.maxElems) : Keeps k B O (fun _ => True) (readCells k start n) := by
  induction n generalizing start with
  | zero => exact keeps_ret trivial
  | succ n ih =>
    exact keeps_andThen (keeps_readBuf B O (h.imp_right fun h => by omega)) fun _ _ =>
      keeps_andThen (ih (h.imp_right fun h => by omega)) fun _ _ => keeps_ret trivial

theorem keeps_writeOuts {k : Ctx} (B : Nat → Prop) {O : Nat → Prop} {i : Nat} {bs : List Byte}
    (h : k.cfg.wf = false ∨ i + bs.length ≤ k.cfg.maxBytes) (ho : ∀ a, i ≤ a → a < i + bs.length → O a) :
    Keeps k B O (fun _ => True) (writeOuts k i bs) := by
  induction bs generalizing i with
  | nil => exact keeps_ret trivial
  | cons b bs ih =>
    simp only [List.length_cons] at h ho
    exact keeps_andThen (keeps_writeOut B (h.imp_right fun h => by omega) (ho i (Nat.le_refl i) (by omega)) b)
      fun _ _ => ih (h.imp_right fun h => by omega) fun a h1 h2 => ho a (by omega) (by omega)

theorem keeps_drawWords (k : Ctx) (B O : Nat → Prop) (n : Nat) :
    Keeps k B O (fun ws => ws.length = n) (drawWords k n) := by
  induction n with
  | zero => exact keeps_ret rfl
  | succ n ih =>
    exact keeps_andThen (keeps_draw32 k B O) fun _ _ => keeps_andThen ih fun ws h => keeps_ret (by simp [h])

/-! ### The bounded sampler -/

/-- The result of a bounded draw is below a bound that is not 0, and 0 for 0 (40_bounded_sampler.md R123, R125). -/
def Below (b v : W32) : Prop := v.toNat < max b.toNat 1

theorem below_high32 {b : W32} (hb : b ≠ 0#32) (x : W32) : Below b (high32 (mul32x32 x b)) := by
  have hpos : 0 < b.toNat := Nat.pos_of_ne_zero fun e => hb (BitVec.eq_of_toNat_eq (by simpa using e))
  unfold Below
  rw [toNat_high32, toNat_mul32x32]
  have hx : x.toNat < 2 ^ 32 := x.isLt
  have : x.toNat * b.toNat < 2 ^ 32 * b.toNat := Nat.mul_lt_mul_of_pos_right hx hpos
  have : x.toNat * b.toNat / 2 ^ 32 < b.toNat := Nat.div_lt_of_lt_mul this
  omega

theorem keeps_redraw (k : Ctx) (B O : Nat → Prop) {b : W32} (hb : b ≠ 0#32) (fuel : Nat) (x : W32) :
    Keeps k B O (Below b) (redraw k b (rejectThreshold b) fuel (mul32x32 x b)) := by
  induction fuel generalizing x with
  | zero =>
    unfold redraw
    split
    · exact fun w => Moved.refl k B O w
    · exact keeps_ret (below_high32 hb x)
  | succ n ih =>
    unfold redraw
    split
    · exact keeps_andThen (keeps_draw32 k B O) fun y _ => ih y
    · exact keeps_ret (below_high32 hb x)

theorem keeps_boundedSample (k : Ctx) (B O : Nat → Prop) (b : W32) : Keeps k B O (Below b) (boundedSample k b) := by
  unfold boundedSample
  split
  · exact keeps_ret (by simp [Below])
  · rename_i hb
    refine keeps_andThen (keeps_draw32 k B O) fun x _ => ?_
    show Keeps k B O (Below b) (if low32 (mul32x32 x b) < b then _ else _)
    split
    · exact keeps_redraw k B O hb _ x
    · exact keeps_ret (below_high32 hb x)

theorem keeps_pickChar (k : Ctx) (B O : Nat → Prop) (set : List Byte) : Keeps k B O (fun _ => True) (pickChar k set) :=
  keeps_andThen (keeps_boundedSample k B O _) fun _ _ => keeps_ret trivial

/-! ### Replies -/

/-- The reply is a success. -/
abbrev Succeeded (r : Reply) : Prop := r.okFlag = true

theorem keeps_okFloat (k : Ctx) (B O : Nat → Prop) (x : F64) : Keeps k B O Succeeded (okFloat k x) :=
  keeps_andThen (keeps_resultBits k B O x) fun _ _ => keeps_ret rfl

theorem keeps_okPoint2 (k : Ctx) (B O : Nat → Prop) (x y : F64) : Keeps k B O Succeeded (okPoint2 k x y) :=
  keeps_andThen (keeps_resultBits k B O x) fun _ _ => keeps_andThen (keeps_resultBits k B O y) fun _ _ => keeps_ret rfl

theorem keeps_okPoint3 (k : Ctx) (B O : Nat → Prop) (x y z : F64) : Keeps k B O Succeeded (okPoint3 k x y z) :=
  keeps_andThen (keeps_resultBits k B O x) fun _ _ => keeps_andThen (keeps_resultBits k B O y) fun _ _ =>
    keeps_andThen (keeps_resultBits k B O z) fun _ _ => keeps_ret rfl

/-- How a command's pseudocode can go from `w`: it fails at once with one of `codes` and sentinel `v`, or it keeps as
`Keeps` says and its reply satisfies `P`. -/
def BodyFrame (k : Ctx) (B O : Nat → Prop) (codes : List Err) (v : W64) (P : Reply → Prop) (m : Cmd Reply) : Prop :=
  ∀ w, (∃ e, e ∈ codes ∧ m w = .ok (.fail e v) w) ∨ KeptTo k B O P w (m w)

theorem bodyFrame_of_keeps {k : Ctx} {B O : Nat → Prop} {codes : List Err} {v : W64} {P : Reply → Prop}
    {m : Cmd Reply} (h : Keeps k B O P m) : BodyFrame k B O codes v P m := fun w => .inr (h w)

theorem bodyFrame_failWith {k : Ctx} {B O : Nat → Prop} {codes : List Err} {P : Reply → Prop} {e : Err}
    (h : e ∈ codes) : BodyFrame k B O codes 0#64 P (failWith e) := fun _ => .inl ⟨e, h, rfl⟩

/-- A first part that reads and changes nothing. -/
theorem bodyFrame_after_read {α : Type} {k : Ctx} {B O : Nat → Prop} {codes : List Err} {v : W64} {P : Reply → Prop}
    {m : Cmd α} {f : α → Cmd Reply} (hm : ∀ w, (∃ a, m w = .ok a w) ∨ ∃ e, m w = .fault e ∧ k.cfg.wf = false)
    (hf : ∀ a, BodyFrame k B O codes v P (f a)) : BodyFrame k B O codes v P (andThen m f) := by
  intro w
  obtain ⟨a, ha⟩ | ⟨e, he, hk⟩ := hm w
  · rw [andThen_ok ha]
    exact hf a w
  · right
    simp only [andThen, he]
    exact hk

theorem readCells_reads {k : Ctx} {start n : Nat} (h : k.cfg.wf = false ∨ start + n ≤ k.cfg.maxElems) (w : Work) :
    (∃ l, readCells k start n w = .ok l w) ∨ ∃ e, readCells k start n w = .fault e ∧ k.cfg.wf = false := by
  by_cases hn : start + n ≤ k.cfg.maxElems
  · exact .inl ⟨_, readCells_ok k start n hn w⟩
  · have hk := h.resolve_right hn
    clear h hn
    induction n generalizing start with
    | zero => exact .inl ⟨[], rfl⟩
    | succ n ih =>
      by_cases hi : start < k.cfg.maxElems
      · rw [readCells, andThen_ok (readBuf_ok hi w)]
        obtain ⟨l, hl⟩ | ⟨e, he, -⟩ := ih (start := start + 1)
        · exact .inl ⟨_, by rw [andThen_ok hl]; rfl⟩
        · exact .inr ⟨e, by simp only [andThen, he], hk⟩
      · exact .inr ⟨.indexOutside .buf start, by simp only [readCells, andThen, readBuf, if_neg hi], hk⟩

/-! ### The commands -/

/-- No element. -/
abbrev nowhere : Nat → Prop := fun _ => False

theorem frame_nextU32Body (k : Ctx) : Keeps k nowhere nowhere Succeeded (nextU32Body k) :=
  keeps_andThen (keeps_draw32 k _ _) fun _ _ => keeps_ret rfl

theorem frame_nextFloatBody (k : Ctx) : Keeps k nowhere nowhere Succeeded (nextFloatBody k) :=
  keeps_andThen (keeps_drawF k _ _) fun _ _ => keeps_okFloat k _ _ _

theorem frame_boundedBody (k : Ctx) : Keeps k nowhere nowhere Succeeded (boundedBody k) :=
  keeps_andThen (keeps_boundedSample k _ _ _) fun _ _ => keeps_ret rfl

theorem frame_rangeBody (k : Ctx) : Keeps k nowhere nowhere Succeeded (rangeBody k) := by
  unfold rangeBody
  dsimp only
  split
  · exact keeps_ret rfl
  · exact keeps_andThen (keeps_boundedSample k _ _ _) fun _ _ => keeps_ret rfl

theorem frame_floatRangeBody (k : Ctx) : Keeps k nowhere nowhere Succeeded (floatRangeBody k) := by
  unfold floatRangeBody
  dsimp only
  split
  · exact keeps_okFloat k _ _ _
  · exact keeps_andThen (keeps_drawF k _ _) fun _ _ => keeps_okFloat k _ _ _

theorem frame_booleanBody (k : Ctx) : Keeps k nowhere nowhere Succeeded (booleanBody k) := by
  unfold booleanBody
  dsimp only
  split
  · exact keeps_ret rfl
  · split
    · exact keeps_ret rfl
    · split
      · exact keeps_ret rfl
      · exact keeps_andThen (keeps_drawF k _ _) fun _ _ => keeps_ret rfl

theorem frame_booleanWeightedBody (k : Ctx) : Keeps k nowhere nowhere Succeeded (booleanWeightedBody k) := by
  unfold booleanWeightedBody
  dsimp only
  split
  · exact keeps_ret rfl
  · split
    · exact keeps_ret rfl
    · exact keeps_andThen (keeps_boundedSample k _ _ _) fun _ _ => keeps_ret rfl

theorem frame_weightedIndexBody (k : Ctx) :
    BodyFrame k nowhere nowhere [.size, .numeric] 0#64 Succeeded (weightedIndexBody k) := by
  unfold weightedIndexBody
  dsimp only
  split
  · exact bodyFrame_failWith (by decide)
  · refine bodyFrame_after_read (readCells_reads (.inr (by omega))) fun cells => ?_
    split
    · exact bodyFrame_failWith (by decide)
    · split
      · exact bodyFrame_failWith (by decide)
      · exact bodyFrame_of_keeps (keeps_andThen (keeps_boundedSample k _ _ _) fun _ _ => keeps_ret rfl)

theorem keeps_swapCells {k : Ctx} {B : Nat → Prop} (O : Nat → Prop) {i j : Nat} (hi : i < k.cfg.maxElems)
    (hj : j < k.cfg.maxElems) (bi : B i) (bj : B j) : Keeps k B O (fun _ => True) (swapCells k i j) :=
  keeps_andThen (keeps_readBuf B O (.inr hi)) fun _ _ => keeps_andThen (keeps_readBuf B O (.inr hj)) fun _ _ =>
    keeps_andThen (keeps_writeBuf O hi bi _) fun _ _ => keeps_writeBuf O hj bj _

theorem keeps_shuffleDown {k : Ctx} {B : Nat → Prop} (O : Nat → Prop) {base n : Nat} (hn : n < 2 ^ 32 - 1)
    (he : base + n < k.cfg.maxElems) (hb : ∀ a, base ≤ a → a ≤ base + n → B a) :
    Keeps k B O (fun _ => True) (shuffleDown k base n) := by
  induction n with
  | zero => exact keeps_ret trivial
  | succ n ih =>
    refine keeps_andThen (keeps_boundedSample k B O _) fun v hv => ?_
    have hlt : v.toNat < n + 2 := by
      have h2 : (BitVec.ofNat 32 (n + 2)).toNat = n + 2 := by rw [BitVec.toNat_ofNat]; omega
      unfold Below at hv
      omega
    refine keeps_andThen (keeps_swapCells O he (by omega) (hb _ (by omega) (by omega)) (hb _ (by omega) (by omega))) ?_
    exact fun _ _ => ih (by omega) (by omega) fun a h1 h2 => hb a h1 (by omega)

/-- An `i32` argument is below `2^31` (00_scope.md R8). -/
theorem argI32_lt (k : Ctx) (i : Fin 8) : argI32 k i < 2 ^ 31 := BitVec.toInt_lt

theorem frame_shuffleBody (k : Ctx) :
    BodyFrame k (fun a => (a : Int) < argI32 k 0) nowhere [.size] 0#64 Succeeded (shuffleBody k) := by
  unfold shuffleBody
  dsimp only
  have hr := argI32_lt k 0
  split
  · exact bodyFrame_failWith (by decide)
  · refine bodyFrame_of_keeps ?_
    by_cases hz : argI32 k 0 ≤ 0
    · rw [show (argI32 k 0 - 1).toNat = 0 by omega]
      exact keeps_ret rfl
    · exact keeps_andThen (keeps_shuffleDown _ (by omega) (by omega) fun a _ _ => by omega) fun _ _ => keeps_ret rfl

theorem frame_shuffleRangeBody (k : Ctx) :
    BodyFrame k (fun a => argI32 k 0 ≤ a ∧ (a : Int) ≤ argI32 k 1) nowhere [.size] 0#64 Succeeded
      (shuffleRangeBody k) := by
  unfold shuffleRangeBody
  dsimp only
  have hr := argI32_lt k 1
  split
  · exact bodyFrame_failWith (by decide)
  · refine bodyFrame_of_keeps ?_
    by_cases hz : argI32 k 1 ≤ argI32 k 0
    · rw [show (argI32 k 1 - argI32 k 0).toNat = 0 by omega]
      exact keeps_ret rfl
    · exact keeps_andThen (keeps_shuffleDown _ (by omega) (by omega) fun a _ _ => by constructor <;> omega)
        fun _ _ => keeps_ret rfl

/-- The sentinel of `GAUSSIAN` is the truncated mean of finite operands (43_distribution.md R208). -/
theorem frame_gaussianBody (k : Ctx) :
    BodyFrame k nowhere nowhere [.numeric]
      (if isFinite (argF64 k 0) ∧ isFinite (argF64 k 1) then sext64 (truncSat (argF64 k 0)) else 0#64) Succeeded
      (gaussianBody k) := by
  unfold gaussianBody
  dsimp only
  by_cases h : isFinite (argF64 k 0) = true ∧ isFinite (argF64 k 1) = true
  · rw [if_pos h, if_neg (by simp [h])]
    split
    · exact fun w => .inl ⟨.numeric, by decide, rfl⟩
    · exact bodyFrame_of_keeps (keeps_andThen (keeps_drawF k _ _) fun _ _ =>
        keeps_andThen (keeps_drawF k _ _) fun _ _ => keeps_ret rfl)
  · rw [if_neg h, if_pos (by
      rcases Bool.eq_false_or_eq_true (isFinite (argF64 k 0)) with h0 | h0
      · simp only [h0, true_and] at h
        simp [h]
      · simp [h0])]
    exact bodyFrame_failWith (by decide)

theorem keeps_diceSum (k : Ctx) (B O : Nat → Prop) (sides : W32) (n : Nat) (t : W32) :
    Keeps k B O (fun _ => True) (diceSum k sides n t) := by
  induction n generalizing t with
  | zero => exact keeps_ret trivial
  | succ n ih => exact keeps_andThen (keeps_boundedSample k B O _) fun _ _ => ih _

theorem frame_diceBody (k : Ctx) : BodyFrame k nowhere nowhere [.numeric] 0#64 Succeeded (diceBody k) := by
  unfold diceBody
  dsimp only
  split
  · exact bodyFrame_failWith (by decide)
  · exact bodyFrame_of_keeps (keeps_andThen (keeps_diceSum k _ _ _ _ _) fun _ _ => keeps_ret rfl)

theorem frame_pickBody (k : Ctx) : BodyFrame k nowhere nowhere [.size] 0#64 Succeeded (pickBody k) := by
  unfold pickBody
  dsimp only
  have hr := argI32_lt k 0
  split
  · exact bodyFrame_failWith (by decide)
  · refine bodyFrame_of_keeps (keeps_andThen (keeps_boundedSample k _ _ _) fun v hv => ?_)
    have h2 : (asU32 (argI32 k 0)).toNat = (argI32 k 0).toNat := by
      rw [asU32, BitVec.toNat_ofInt]
      omega
    unfold Below at hv
    exact keeps_andThen (keeps_readBuf _ _ (.inr (by omega))) fun _ _ => keeps_ret rfl

/-! ### Text -/

theorem keeps_patternAt (k : Ctx) (B O : Nat → Prop) (p : Nat) : Keeps k B O (fun _ => True) (patternAt k p) := by
  unfold patternAt
  split
  · rename_i h
    exact keeps_andThen (keeps_readIn B O h) fun _ _ => keeps_ret trivial
  · exact keeps_ret trivial

theorem keeps_patternChar (k : Ctx) (B O : Nat → Prop) (ch : Byte) :
    Keeps k B O (fun _ => True) (patternChar k ch) := by
  unfold patternChar
  split
  · exact keeps_pickChar k B O _
  · exact keeps_ret trivial

/-- The pattern loop stays inside its room and says where it ended. -/
theorem keeps_patternLoop {k : Ctx} (B : Nat → Prop) {O : Nat → Prop} {room p o : Nat}
    (hb : o + room < k.cfg.maxBytes) (ho : ∀ a, o ≤ a → a < o + room → O a) :
    Keeps k B O (fun o' => o ≤ o' ∧ o' ≤ o + room) (patternLoop k room p o) := by
  induction room generalizing p o with
  | zero => exact keeps_ret ⟨Nat.le_refl o, Nat.le_refl o⟩
  | succ room ih =>
    have go : ∀ (b : Byte) (q : Nat), Keeps k B O (fun o' => o ≤ o' ∧ o' ≤ o + (room + 1))
        (andThen (writeOut k o b) fun _ => patternLoop k room q (o + 1)) := fun b q =>
      keeps_andThen (keeps_writeOut B (.inr (by omega)) (ho o (by omega) (by omega)) b) fun _ _ =>
        (ih (by omega) fun a h1 h2 => ho a (by omega) (by omega)).weaken fun o' h => by omega
    refine keeps_andThen (keeps_patternAt k B O p) fun ch _ => ?_
    cases ch with
    | none => exact keeps_ret (by omega)
    | some ch =>
      dsimp only
      split
      · refine keeps_andThen (keeps_patternAt k B O _) fun lit _ => ?_
        cases lit with
        | none => exact keeps_ret (by omega)
        | some b => exact go b _
      · exact keeps_andThen (keeps_patternChar k B O ch) fun b _ => go b _

theorem frame_patternFormatBody (k : Ctx) :
    BodyFrame k nowhere (fun a => (a : Int) ≤ argI32 k 0 - 1) [.size] 0#64 Succeeded (patternFormatBody k) := by
  unfold patternFormatBody
  dsimp only
  split
  · exact bodyFrame_failWith (by decide)
  · refine bodyFrame_of_keeps (keeps_andThen (keeps_patternLoop _ (by omega) fun a _ h => by omega) fun o ho => ?_)
    exact keeps_andThen (keeps_writeOut _ (.inr (by omega)) (by omega) _) fun _ _ => keeps_ret rfl

theorem keeps_drawBytes (k : Ctx) (B O : Nat → Prop) (n : Nat) :
    Keeps k B O (fun bs => bs.length ≤ n) (drawBytes k n) :=
  keeps_andThen (keeps_drawWords k B O _) fun _ _ => keeps_ret (by simp)

theorem frame_randomBytesBody (k : Ctx) :
    BodyFrame k nowhere (fun a => (a : Int) ≤ argI32 k 0 - 1) [.size] 0#64 Succeeded (randomBytesBody k) := by
  unfold randomBytesBody
  dsimp only
  split
  · exact bodyFrame_failWith (by decide)
  · exact bodyFrame_of_keeps (keeps_andThen (keeps_drawBytes k _ _ _) fun bs hb =>
      keeps_andThen (keeps_writeOuts _ (.inr (by omega)) fun a _ h => by omega) fun _ _ => keeps_ret rfl)

theorem uuidText_length (bs : List Byte) : (uuidText bs).length = 36 := by
  simp [uuidText, hexByte, hyphen]

/-- 00_scope.md R7 gives `UUID_V4` its room. -/
theorem maxBytes_of_wf (k : Cfg) : k.wf = false ∨ 37 ≤ k.maxBytes := by
  by_cases h : 37 ≤ k.maxBytes
  · exact .inr h
  · left
    simp [Cfg.wf, h]

/-- 00_scope.md R7 gives `POINT_IN_POLYGON` its room. -/
theorem maxElems_of_wf (k : Cfg) : k.wf = false ∨ 2 * k.maxVertices ≤ k.maxElems := by
  by_cases h : 2 * k.maxVertices ≤ k.maxElems
  · exact .inr h
  · left
    simp [Cfg.wf, h]

theorem frame_uuidV4Body (k : Ctx) : Keeps k nowhere (fun a => a ≤ 36) Succeeded (uuidV4Body k) := by
  have hm := maxBytes_of_wf k.cfg
  refine keeps_andThen (keeps_drawBytes k _ _ _) fun bs _ => ?_
  refine keeps_andThen (keeps_writeOuts _ (hm.imp_right fun h => ?_) fun a _ h => ?_) fun _ _ => ?_
  · rw [uuidText_length]
    omega
  · rw [uuidText_length] at h
    omega
  · exact keeps_andThen (keeps_writeOut (O := fun a => a ≤ 36) _ (hm.imp_right fun h => by omega) (Nat.le_refl 36) _)
      fun _ _ => keeps_ret rfl

/-! ### Geometry -/

theorem keeps_drawAngle (k : Ctx) (B O : Nat → Prop) : Keeps k B O (fun _ => True) (drawAngle k) :=
  keeps_andThen (keeps_drawF k B O) fun _ _ => keeps_ret trivial

theorem keeps_triSample (k : Ctx) (B O : Nat → Prop) (x1 y1 x2 y2 x3 y3 : F64) :
    Keeps k B O (fun _ => True) (triSample k x1 y1 x2 y2 x3 y3) :=
  keeps_andThen (keeps_drawF k B O) fun _ _ => keeps_andThen (keeps_drawF k B O) fun _ _ => keeps_ret trivial

/-- A command whose tests fail with `ERR_NUMERIC` or that draws and returns. -/
theorem bodyFrame_ite {k : Ctx} {B O : Nat → Prop} {P : Reply → Prop} {p : Prop} [Decidable p] {m : Cmd Reply}
    (h : BodyFrame k B O [.numeric] 0#64 P m) : BodyFrame k B O [.numeric] 0#64 P (if p then failWith .numeric else m) := by
  split
  · exact bodyFrame_failWith (by decide)
  · exact h

theorem frame_pointInCircleBody (k : Ctx) :
    BodyFrame k nowhere nowhere [.numeric] 0#64 Succeeded (pointInCircleBody k) := by
  unfold pointInCircleBody
  dsimp only
  exact bodyFrame_ite (bodyFrame_ite (bodyFrame_of_keeps (keeps_andThen (keeps_drawAngle k _ _) fun _ _ =>
    keeps_andThen (keeps_drawF k _ _) fun _ _ => keeps_okPoint2 k _ _ _ _)))

theorem frame_pointOnCircleBody (k : Ctx) :
    BodyFrame k nowhere nowhere [.numeric] 0#64 Succeeded (pointOnCircleBody k) := by
  unfold pointOnCircleBody
  dsimp only
  exact bodyFrame_ite (bodyFrame_ite (bodyFrame_of_keeps (keeps_andThen (keeps_drawAngle k _ _) fun _ _ =>
    keeps_okPoint2 k _ _ _ _)))

theorem frame_pointInRectBody (k : Ctx) :
    BodyFrame k nowhere nowhere [.numeric] 0#64 Succeeded (pointInRectBody k) := by
  unfold pointInRectBody
  dsimp only
  exact bodyFrame_ite (bodyFrame_of_keeps (keeps_andThen (keeps_drawF k _ _) fun _ _ =>
    keeps_andThen (keeps_drawF k _ _) fun _ _ => keeps_okPoint2 k _ _ _ _))

theorem frame_pointInRingBody (k : Ctx) :
    BodyFrame k nowhere nowhere [.numeric] 0#64 Succeeded (pointInRingBody k) := by
  unfold pointInRingBody
  dsimp only
  exact bodyFrame_ite (bodyFrame_ite (bodyFrame_of_keeps (keeps_andThen (keeps_drawAngle k _ _) fun _ _ =>
    keeps_andThen (keeps_drawF k _ _) fun _ _ => keeps_okPoint2 k _ _ _ _)))

theorem frame_pointInEllipseBody (k : Ctx) :
    BodyFrame k nowhere nowhere [.numeric] 0#64 Succeeded (pointInEllipseBody k) := by
  unfold pointInEllipseBody
  dsimp only
  exact bodyFrame_ite (bodyFrame_ite (bodyFrame_of_keeps (keeps_andThen (keeps_drawAngle k _ _) fun _ _ =>
    keeps_andThen (keeps_drawF k _ _) fun _ _ => keeps_okPoint2 k _ _ _ _)))

theorem frame_pointInTriangleBody (k : Ctx) :
    BodyFrame k nowhere nowhere [.numeric] 0#64 Succeeded (pointInTriangleBody k) := by
  unfold pointInTriangleBody
  dsimp only
  exact bodyFrame_ite (bodyFrame_of_keeps (keeps_andThen (keeps_triSample k _ _ _ _ _ _ _ _) fun _ _ =>
    keeps_okPoint2 k _ _ _ _))

theorem frame_pointInArcBody (k : Ctx) :
    BodyFrame k nowhere nowhere [.numeric] 0#64 Succeeded (pointInArcBody k) := by
  unfold pointInArcBody
  dsimp only
  exact bodyFrame_ite (bodyFrame_ite (bodyFrame_ite (bodyFrame_of_keeps (keeps_andThen (keeps_drawF k _ _) fun _ _ =>
    keeps_andThen (keeps_drawF k _ _) fun _ _ => keeps_okPoint2 k _ _ _ _))))

theorem pairCells_ne_nil (x y : W64) (l : List W64) : pairCells (x :: y :: l) ≠ [] := by simp [pairCells]

theorem frame_pointInPolygonBody (k : Ctx) :
    BodyFrame k nowhere nowhere [.size, .numeric] 0#64 Succeeded (pointInPolygonBody k) := by
  unfold pointInPolygonBody
  dsimp only
  split
  · exact bodyFrame_failWith (by decide)
  · refine bodyFrame_after_read (readCells_reads ((maxElems_of_wf k.cfg).imp_right fun h => by omega)) fun cells => ?_
    unfold polygonSample
    split
    · exact bodyFrame_failWith (by decide)
    · split
      · exact bodyFrame_failWith (by decide)
      · dsimp only
        split
        · exact bodyFrame_failWith (by decide)
        · exact bodyFrame_of_keeps (keeps_andThen (keeps_drawF k _ _) fun _ _ =>
            keeps_andThen (keeps_triSample k _ _ _ _ _ _ _ _) fun _ _ => keeps_okPoint2 k _ _ _ _)

theorem keeps_drawSigned (k : Ctx) (B O : Nat → Prop) : Keeps k B O (fun _ => True) (drawSigned k) :=
  keeps_andThen (keeps_drawF k B O) fun _ _ => keeps_ret trivial

theorem keeps_ballLoop (k : Ctx) (B O : Nat → Prop) (n : Nat) : Keeps k B O (fun _ => True) (ballLoop k n) := by
  induction n with
  | zero => exact keeps_ret trivial
  | succ n ih =>
    refine keeps_andThen (keeps_drawSigned k B O) fun _ _ => keeps_andThen (keeps_drawSigned k B O) fun _ _ =>
      keeps_andThen (keeps_drawSigned k B O) fun _ _ => ?_
    dsimp only
    split
    · exact keeps_ret trivial
    · exact ih

theorem keeps_diskLoop (k : Ctx) (B O : Nat → Prop) (n : Nat) : Keeps k B O (fun _ => True) (diskLoop k n) := by
  induction n with
  | zero => exact keeps_ret trivial
  | succ n ih =>
    refine keeps_andThen (keeps_drawSigned k B O) fun _ _ => keeps_andThen (keeps_drawSigned k B O) fun _ _ => ?_
    dsimp only
    split
    · exact keeps_ret trivial
    · exact ih

/-- The reply of a sphere command that has passed its tests: a success, or `ERR_RETRY` (44_geometry.md R264). -/
abbrev SucceededOrRetry (r : Reply) : Prop := r.okFlag = true ∨ r = .fail .retry 0#64

theorem frame_pointInSphereBody (k : Ctx) :
    BodyFrame k nowhere nowhere [.numeric] 0#64 SucceededOrRetry (pointInSphereBody k) := by
  unfold pointInSphereBody
  dsimp only
  refine bodyFrame_ite (bodyFrame_ite (bodyFrame_of_keeps (keeps_andThen (keeps_ballLoop k _ _ _) fun found _ => ?_)))
  cases found with
  | none => exact keeps_ret (.inr rfl)
  | some q => exact keeps_andThen (keeps_drawF k _ _) fun _ _ => (keeps_okPoint3 k _ _ _ _ _).weaken fun _ h => .inl h

theorem frame_pointOnSphereBody (k : Ctx) :
    BodyFrame k nowhere nowhere [.numeric] 0#64 SucceededOrRetry (pointOnSphereBody k) := by
  unfold pointOnSphereBody
  dsimp only
  refine bodyFrame_ite (bodyFrame_ite (bodyFrame_of_keeps (keeps_andThen (keeps_diskLoop k _ _ _) fun found _ => ?_)))
  cases found with
  | none => exact keeps_ret (.inr rfl)
  | some q => exact (keeps_okPoint3 k _ _ _ _ _).weaken fun _ h => .inl h

theorem frame_pointInBoxBody (k : Ctx) :
    BodyFrame k nowhere nowhere [.numeric] 0#64 Succeeded (pointInBoxBody k) := by
  unfold pointInBoxBody
  dsimp only
  exact bodyFrame_ite (bodyFrame_of_keeps (keeps_andThen (keeps_drawF k _ _) fun _ _ =>
    keeps_andThen (keeps_drawF k _ _) fun _ _ => keeps_andThen (keeps_drawF k _ _) fun _ _ =>
      keeps_okPoint3 k _ _ _ _ _))

/-! ### All commands at once -/

/-- A reply a command gives once its tests have passed: a success, or `ERR_RETRY` where R302 lists it. -/
abbrev ReplyOf (i : Instr) (r : Reply) : Prop :=
  r.okFlag = true ∨ (.retry ∈ failureCodes i ∧ r = .fail .retry 0#64)

theorem BodyFrame.mono {k : Ctx} {B B' O O' : Nat → Prop} {codes codes' : List Err} {v : W64} {P P' : Reply → Prop}
    {m : Cmd Reply} (h : BodyFrame k B O codes v P m) (hb : ∀ a, B a → B' a) (ho : ∀ a, O a → O' a)
    (hc : ∀ e, e ∈ codes → e ∈ codes') (hp : ∀ r, P r → P' r) : BodyFrame k B' O' codes' v P' m := by
  have hm : ∀ w w', Moved k B O w w' → Moved k B' O' w w' := fun w w' g =>
    ⟨g.draws, fun a ha => g.buf a fun x => ha (hb a x), fun a ha => g.obuf a fun x => ha (ho a x), g.bufForm, g.obufForm⟩
  intro w
  obtain ⟨e, he, hw⟩ | hw := h w
  · exact .inl ⟨e, hc e he, hw⟩
  · right
    unfold KeptTo at hw ⊢
    split at hw
    · exact ⟨hm _ _ hw.1, hp _ hw.2⟩
    · exact hm _ _ hw
    · exact hw

/-- The frame of `exec` for every command but those that write an engine (`SEED`, `ZEROIZE` on `S`): an S-only command
on `F` reports `ERR_ILLEGAL`; any other is its pseudocode, which fails at once with one of its codes and its sentinel,
or moves as `Moved` says within the elements R86 lets it store to. -/
theorem exec_frame (i : Instr) (s : State) (hs : ∀ c, i ≠ .seed c) (hz : i ≠ .zeroize .S) :
    (i.wellFormed = false ∧ exec i s = .next (s.complete i.chan (.fail .illegal 0#64))) ∨
    ∃ body, exec i s = runCommand i.chan body s ∧
      BodyFrame (s.ctx i.chan) (bufStores i s) (outStores i s) ((failureCodes i).erase .retry) (sentinel i s)
        (ReplyOf i) (body (s.ctx i.chan)) := by
  have nb : ∀ a, nowhere a → bufStores i s a := fun _ h => h.elim
  have no : ∀ a, nowhere a → outStores i s a := fun _ h => h.elim
  have plain : ∀ {m : Cmd Reply}, Keeps (s.ctx i.chan) nowhere nowhere Succeeded m →
      BodyFrame (s.ctx i.chan) (bufStores i s) (outStores i s) ((failureCodes i).erase .retry) (sentinel i s)
        (ReplyOf i) m := fun h => (bodyFrame_of_keeps (codes := []) h).mono nb no (fun _ h => by cases h) fun _ h => .inl h
  have reads : ∀ {codes : List Err} {m : Cmd Reply},
      BodyFrame (s.ctx i.chan) nowhere nowhere codes (sentinel i s) Succeeded m →
      (∀ e, e ∈ codes → e ∈ (failureCodes i).erase .retry) →
      BodyFrame (s.ctx i.chan) (bufStores i s) (outStores i s) ((failureCodes i).erase .retry) (sentinel i s)
        (ReplyOf i) m := fun h hc => h.mono nb no hc fun _ h => .inl h
  cases i with
  | seed c => exact absurd rfl (hs c)
  | zeroize c =>
    cases c with
    | F => exact .inl ⟨rfl, rfl⟩
    | S => exact absurd rfl hz
  | nextU32 c => exact .inr ⟨nextU32Body, rfl, plain (frame_nextU32Body _)⟩
  | nextFloat c => exact .inr ⟨nextFloatBody, rfl, plain (frame_nextFloatBody _)⟩
  | bounded c => exact .inr ⟨boundedBody, rfl, plain (frame_boundedBody _)⟩
  | range c => exact .inr ⟨rangeBody, rfl, plain (frame_rangeBody _)⟩
  | floatRange c => exact .inr ⟨floatRangeBody, rfl, plain (frame_floatRangeBody _)⟩
  | boolean c => exact .inr ⟨booleanBody, rfl, plain (frame_booleanBody _)⟩
  | booleanWeighted c => exact .inr ⟨booleanWeightedBody, rfl, plain (frame_booleanWeightedBody _)⟩
  | weightedIndex c => exact .inr ⟨weightedIndexBody, rfl, reads (frame_weightedIndexBody _) (by simp [failureCodes])⟩
  | shuffle c =>
    exact .inr ⟨shuffleBody, rfl, (frame_shuffleBody _).mono (fun _ h => h) no (by simp [failureCodes]) fun _ h => .inl h⟩
  | shuffleRange c =>
    exact .inr ⟨shuffleRangeBody, rfl, (frame_shuffleRangeBody _).mono (fun _ h => h) no (by simp [failureCodes]) fun _ h => .inl h⟩
  | gaussian c => exact .inr ⟨gaussianBody, rfl, reads (frame_gaussianBody _) (by simp [failureCodes])⟩
  | dice c => exact .inr ⟨diceBody, rfl, reads (frame_diceBody _) (by simp [failureCodes])⟩
  | pick c => exact .inr ⟨pickBody, rfl, reads (frame_pickBody _) (by simp [failureCodes])⟩
  | patternFormat c =>
    exact .inr ⟨patternFormatBody, rfl, (frame_patternFormatBody _).mono nb (fun _ h => h) (by simp [failureCodes])
      fun _ h => .inl h⟩
  | randomBytes c =>
    cases c with
    | F => exact .inl ⟨rfl, rfl⟩
    | S =>
      exact .inr ⟨randomBytesBody, rfl, (frame_randomBytesBody _).mono nb (fun _ h => h) (by simp [failureCodes])
        fun _ h => .inl h⟩
  | uuidV4 c =>
    cases c with
    | F => exact .inl ⟨rfl, rfl⟩
    | S =>
      exact .inr ⟨uuidV4Body, rfl, (bodyFrame_of_keeps (codes := []) (frame_uuidV4Body _)).mono nb (fun _ h => h)
        (fun _ h => by cases h) fun _ h => .inl h⟩
  | pointInCircle c => exact .inr ⟨pointInCircleBody, rfl, reads (frame_pointInCircleBody _) (by simp [failureCodes])⟩
  | pointOnCircle c => exact .inr ⟨pointOnCircleBody, rfl, reads (frame_pointOnCircleBody _) (by simp [failureCodes])⟩
  | pointInRect c => exact .inr ⟨pointInRectBody, rfl, reads (frame_pointInRectBody _) (by simp [failureCodes])⟩
  | pointInRing c => exact .inr ⟨pointInRingBody, rfl, reads (frame_pointInRingBody _) (by simp [failureCodes])⟩
  | pointInEllipse c => exact .inr ⟨pointInEllipseBody, rfl, reads (frame_pointInEllipseBody _) (by simp [failureCodes])⟩
  | pointInTriangle c => exact .inr ⟨pointInTriangleBody, rfl, reads (frame_pointInTriangleBody _) (by simp [failureCodes])⟩
  | pointInArc c => exact .inr ⟨pointInArcBody, rfl, reads (frame_pointInArcBody _) (by simp [failureCodes])⟩
  | pointInPolygon c => exact .inr ⟨pointInPolygonBody, rfl, reads (frame_pointInPolygonBody _) (by simp [failureCodes])⟩
  | pointInSphere c =>
    exact .inr ⟨pointInSphereBody, rfl, (frame_pointInSphereBody _).mono nb no (by simp [failureCodes])
      fun _ h => h.imp_right fun h => ⟨by simp [failureCodes], h⟩⟩
  | pointOnSphere c =>
    exact .inr ⟨pointOnSphereBody, rfl, (frame_pointOnSphereBody _).mono nb no (by simp [failureCodes])
      fun _ h => h.imp_right fun h => ⟨by simp [failureCodes], h⟩⟩
  | pointInBox c => exact .inr ⟨pointInBoxBody, rfl, reads (frame_pointInBoxBody _) (by simp [failureCodes])⟩

end Sys2Proof.Machine
end

