-- ==== Sys2Proof/Laws/PerInstr.lean ====
section
/-! SUPPORT. Per-instruction family: the word an encoder gives decodes to the command it stands for. -/

namespace Sys2Proof.Laws.EncodingRoundTrip

/-- The word of a well-formed command, written to its channel's `CMD`, decodes to it. -/
def Statement (i : Instr) : Prop := i.wellFormed = true → decode (encode i).1 (encode i).2 = .ok i

theorem seed (c : Chan) : Statement (.seed c) := by
  intro h
  cases c
  · rfl
  · rfl

theorem nextU32 (c : Chan) : Statement (.nextU32 c) := by
  intro h
  cases c
  · rfl
  · rfl

theorem nextFloat (c : Chan) : Statement (.nextFloat c) := by
  intro h
  cases c
  · rfl
  · rfl

theorem bounded (c : Chan) : Statement (.bounded c) := by
  intro h
  cases c
  · rfl
  · rfl

theorem zeroize (c : Chan) : Statement (.zeroize c) := by
  intro h
  cases c
  · cases h
  · rfl

theorem range (c : Chan) : Statement (.range c) := by
  intro h
  cases c
  · rfl
  · rfl

theorem floatRange (c : Chan) : Statement (.floatRange c) := by
  intro h
  cases c
  · rfl
  · rfl

theorem boolean (c : Chan) : Statement (.boolean c) := by
  intro h
  cases c
  · rfl
  · rfl

theorem booleanWeighted (c : Chan) : Statement (.booleanWeighted c) := by
  intro h
  cases c
  · rfl
  · rfl

theorem weightedIndex (c : Chan) : Statement (.weightedIndex c) := by
  intro h
  cases c
  · rfl
  · rfl

theorem shuffle (c : Chan) : Statement (.shuffle c) := by
  intro h
  cases c
  · rfl
  · rfl

theorem shuffleRange (c : Chan) : Statement (.shuffleRange c) := by
  intro h
  cases c
  · rfl
  · rfl

theorem gaussian (c : Chan) : Statement (.gaussian c) := by
  intro h
  cases c
  · rfl
  · rfl

theorem dice (c : Chan) : Statement (.dice c) := by
  intro h
  cases c
  · rfl
  · rfl

theorem pick (c : Chan) : Statement (.pick c) := by
  intro h
  cases c
  · rfl
  · rfl

theorem patternFormat (c : Chan) : Statement (.patternFormat c) := by
  intro h
  cases c
  · rfl
  · rfl

theorem randomBytes (c : Chan) : Statement (.randomBytes c) := by
  intro h
  cases c
  · cases h
  · rfl

theorem uuidV4 (c : Chan) : Statement (.uuidV4 c) := by
  intro h
  cases c
  · cases h
  · rfl

theorem pointInCircle (c : Chan) : Statement (.pointInCircle c) := by
  intro h
  cases c
  · rfl
  · rfl

theorem pointOnCircle (c : Chan) : Statement (.pointOnCircle c) := by
  intro h
  cases c
  · rfl
  · rfl

theorem pointInRect (c : Chan) : Statement (.pointInRect c) := by
  intro h
  cases c
  · rfl
  · rfl

theorem pointInRing (c : Chan) : Statement (.pointInRing c) := by
  intro h
  cases c
  · rfl
  · rfl

theorem pointInEllipse (c : Chan) : Statement (.pointInEllipse c) := by
  intro h
  cases c
  · rfl
  · rfl

theorem pointInTriangle (c : Chan) : Statement (.pointInTriangle c) := by
  intro h
  cases c
  · rfl
  · rfl

theorem pointInArc (c : Chan) : Statement (.pointInArc c) := by
  intro h
  cases c
  · rfl
  · rfl

theorem pointInPolygon (c : Chan) : Statement (.pointInPolygon c) := by
  intro h
  cases c
  · rfl
  · rfl

theorem pointInSphere (c : Chan) : Statement (.pointInSphere c) := by
  intro h
  cases c
  · rfl
  · rfl

theorem pointOnSphere (c : Chan) : Statement (.pointOnSphere c) := by
  intro h
  cases c
  · rfl
  · rfl

theorem pointInBox (c : Chan) : Statement (.pointInBox c) := by
  intro h
  cases c
  · rfl
  · rfl

end Sys2Proof.Laws.EncodingRoundTrip
end

