-- ==== Sys2Proof/Tests/Slice0.lean ====
section
/-! SUPPORT. Tests of the model. Expected values are those of 95_test_vectors.md (named V-..) or of the rule cited. -/

namespace Sys2Proof.Tests

open Sys2Proof Sys2Proof.Machine

/-! Theorems checked one after another: each waits for the kernel's check of those before it, and as many waiting
threads as this file has theorems would exhaust the memory limit of the check. -/
set_option Elab.async false

/-! ### Well-formedness and decoding -/

/-- The three S-only commands are ill formed on `F` (30_encoding.md R103). -/
theorem test_wellFormed_refuses_secure_only_on_F :
    Instr.wellFormed (.zeroize .F) = false ∧ Instr.wellFormed (.randomBytes .F) = false ∧
    Instr.wellFormed (.uuidV4 .F) = false := by decide

theorem test_wellFormed_admits :
    Instr.wellFormed (.zeroize .S) = true ∧ Instr.wellFormed (.randomBytes .S) = true ∧
    Instr.wellFormed (.uuidV4 .S) = true ∧ Instr.wellFormed (.range .F) = true := by decide

/-! Every row of the opcode map, its word written out (30_encoding.md R102). -/

theorem test_decode_seed : decode .F 0x00000001#32 = .ok (.seed .F) ∧ decode .S 0x00000001#32 = .ok (.seed .S) := by decide

theorem test_decode_nextU32 : decode .F 0x00000002#32 = .ok (.nextU32 .F) ∧ decode .S 0x00000002#32 = .ok (.nextU32 .S) := by decide

theorem test_decode_nextFloat : decode .F 0x00000003#32 = .ok (.nextFloat .F) ∧ decode .S 0x00000003#32 = .ok (.nextFloat .S) := by decide

theorem test_decode_bounded : decode .F 0x00000004#32 = .ok (.bounded .F) ∧ decode .S 0x00000004#32 = .ok (.bounded .S) := by decide

theorem test_decode_zeroize : decode .S 0x00000005#32 = .ok (.zeroize .S) ∧ decode .F 0x00000005#32 = .error .wrongChannel := by decide

theorem test_decode_range : decode .F 0x00000010#32 = .ok (.range .F) ∧ decode .S 0x00000010#32 = .ok (.range .S) := by decide

theorem test_decode_floatRange : decode .F 0x00000011#32 = .ok (.floatRange .F) ∧ decode .S 0x00000011#32 = .ok (.floatRange .S) := by decide

theorem test_decode_boolean : decode .F 0x00000012#32 = .ok (.boolean .F) ∧ decode .S 0x00000012#32 = .ok (.boolean .S) := by decide

theorem test_decode_booleanWeighted : decode .F 0x00000013#32 = .ok (.booleanWeighted .F) ∧ decode .S 0x00000013#32 = .ok (.booleanWeighted .S) := by decide

theorem test_decode_weightedIndex : decode .F 0x00000014#32 = .ok (.weightedIndex .F) ∧ decode .S 0x00000014#32 = .ok (.weightedIndex .S) := by decide

theorem test_decode_shuffle : decode .F 0x00000015#32 = .ok (.shuffle .F) ∧ decode .S 0x00000015#32 = .ok (.shuffle .S) := by decide

theorem test_decode_shuffleRange : decode .F 0x00000016#32 = .ok (.shuffleRange .F) ∧ decode .S 0x00000016#32 = .ok (.shuffleRange .S) := by decide

theorem test_decode_gaussian : decode .F 0x00000017#32 = .ok (.gaussian .F) ∧ decode .S 0x00000017#32 = .ok (.gaussian .S) := by decide

theorem test_decode_dice : decode .F 0x00000018#32 = .ok (.dice .F) ∧ decode .S 0x00000018#32 = .ok (.dice .S) := by decide

theorem test_decode_pick : decode .F 0x00000019#32 = .ok (.pick .F) ∧ decode .S 0x00000019#32 = .ok (.pick .S) := by decide

theorem test_decode_patternFormat : decode .F 0x0000001A#32 = .ok (.patternFormat .F) ∧ decode .S 0x0000001A#32 = .ok (.patternFormat .S) := by decide

theorem test_decode_randomBytes : decode .S 0x0000001B#32 = .ok (.randomBytes .S) ∧ decode .F 0x0000001B#32 = .error .wrongChannel := by decide

theorem test_decode_uuidV4 : decode .S 0x0000001C#32 = .ok (.uuidV4 .S) ∧ decode .F 0x0000001C#32 = .error .wrongChannel := by decide

theorem test_decode_pointInCircle : decode .F 0x00000020#32 = .ok (.pointInCircle .F) ∧ decode .S 0x00000020#32 = .ok (.pointInCircle .S) := by decide

theorem test_decode_pointOnCircle : decode .F 0x00000021#32 = .ok (.pointOnCircle .F) ∧ decode .S 0x00000021#32 = .ok (.pointOnCircle .S) := by decide

theorem test_decode_pointInRect : decode .F 0x00000022#32 = .ok (.pointInRect .F) ∧ decode .S 0x00000022#32 = .ok (.pointInRect .S) := by decide

theorem test_decode_pointInRing : decode .F 0x00000023#32 = .ok (.pointInRing .F) ∧ decode .S 0x00000023#32 = .ok (.pointInRing .S) := by decide

theorem test_decode_pointInEllipse : decode .F 0x00000024#32 = .ok (.pointInEllipse .F) ∧ decode .S 0x00000024#32 = .ok (.pointInEllipse .S) := by decide

theorem test_decode_pointInTriangle : decode .F 0x00000025#32 = .ok (.pointInTriangle .F) ∧ decode .S 0x00000025#32 = .ok (.pointInTriangle .S) := by decide

theorem test_decode_pointInArc : decode .F 0x00000026#32 = .ok (.pointInArc .F) ∧ decode .S 0x00000026#32 = .ok (.pointInArc .S) := by decide

theorem test_decode_pointInPolygon : decode .F 0x00000027#32 = .ok (.pointInPolygon .F) ∧ decode .S 0x00000027#32 = .ok (.pointInPolygon .S) := by decide

theorem test_decode_pointInSphere : decode .F 0x00000028#32 = .ok (.pointInSphere .F) ∧ decode .S 0x00000028#32 = .ok (.pointInSphere .S) := by decide

theorem test_decode_pointOnSphere : decode .F 0x00000029#32 = .ok (.pointOnSphere .F) ∧ decode .S 0x00000029#32 = .ok (.pointOnSphere .S) := by decide

theorem test_decode_pointInBox : decode .F 0x0000002A#32 = .ok (.pointInBox .F) ∧ decode .S 0x0000002A#32 = .ok (.pointInBox .S) := by decide

/-- V-E2: words that are illegal on both channels. -/
theorem test_decode_illegal :
    decode .F 0x00000000#32 = .error .unassignedOpcode ∧ decode .S 0x00000006#32 = .error .unassignedOpcode ∧
    decode .F 0x0000000F#32 = .error .unassignedOpcode ∧ decode .S 0x0000001D#32 = .error .unassignedOpcode ∧
    decode .S 0x0000001F#32 = .error .unassignedOpcode ∧ decode .F 0x0000002B#32 = .error .unassignedOpcode ∧
    decode .S 0x000000FF#32 = .error .unassignedOpcode ∧ decode .F 0x00000110#32 = .error .reservedBits ∧
    decode .S 0x80000001#32 = .error .reservedBits := by decide

/-- A word of the opcode table read as the host numbers its bits. -/
theorem test_decodeTableWord :
    decodeTableWord 32 0x1B = some (.randomBytes .S) ∧ decodeTableWord 32 0x2A = some (.pointInBox .S) ∧
    decodeTableWord 32 0x110 = none := by decide

/-! ### States the tests start from -/

/-- Arguments from a list, the rest 0. -/
def args (l : List W64) : Vector W64 8 := Vector.ofFn fun i => l.getD i.val 0#64

/-- A memory holding a list of elements from index 0 on. -/
def filled {w : Nat} (l : List (BitVec w)) : Mem w := (List.range l.length).zip l

/-- After `F.SEED 42` (V-F1), with arguments and cells. -/
def fState (l : List W64) (cells : List W64) : State :=
  { State.reset with
    fast := ⟨0x185706B82C2E03F8#64, 0x6D#64, true⟩
    portF := { State.reset.portF with arg := args l, buf := filled cells } }

/-- The secure engine after `S.SEED 42` (V-S2). -/
def seeded42 : Secure where
  sm := #v[0x61707865#32, 0x3320646E#32, 0x79622D32#32, 0x6B206574#32, 0x26E5761F#32, 0x6AE30A51#32, 0x5C8B5C62#32,
    0xB4EB7F59#32, 0xCE2C0416#32, 0xB389B53D#32, 0xF7A882DC#32, 0x2666A8A4#32, 0x284160EB#32, 0xD8D10F71#32,
    0x1A4F2604#32, 0x600A085B#32]
  blk := Vector.replicate 16 0#32
  cur := 16
  bytes := 0#64
  seeded := true

/-- After `S.SEED 42`, with arguments. -/
def sState (l : List W64) : State :=
  { State.reset with secure := seeded42, portS := { State.reset.portS with arg := args l } }

/-- `RES`, `OK`, `ERR` and `FS` after a command on channel `F`. -/
def outF : Host.Outcome State Fault Refusal → Option (Vector W64 4 × Bool × Err × W64)
  | .next t => some (t.portF.res, t.portF.ok, t.portF.err, t.fast.fs)
  | .fault _ => none
  | .refused _ => none

/-- `OK`, `ERR` and `FS` after a command on channel `F`, for results the spec leaves to `CFG.NUM`. -/
def flagsF : Host.Outcome State Fault Refusal → Option (Bool × Err × W64)
  | .next t => some (t.portF.ok, t.portF.err, t.fast.fs)
  | .fault _ => none
  | .refused _ => none

/-- `RES0`, `OK`, `CUR` and `BYTES` after a command on channel `S`. -/
def outS : Host.Outcome State Fault Refusal → Option (W64 × Bool × Fin 17 × W64)
  | .next t => some (t.portS.res[0], t.portS.ok, t.secure.cur, t.secure.bytes)
  | .fault _ => none
  | .refused _ => none

/-- The cells of `BUF[F]` below `n` after a command. -/
def cellsF (n : Nat) : Host.Outcome State Fault Refusal → List W64
  | .next t => (List.range n).map (t.cell .F)
  | .fault _ => []
  | .refused _ => []

/-- The bytes of `OBUF[c]` below `n` after a command. -/
def bytesOut (c : Chan) (n : Nat) : Host.Outcome State Fault Refusal → List Byte
  | .next t => (List.range n).map (t.outByte c)
  | .fault _ => []
  | .refused _ => []

/-- `FS` after 0 to 4 draws of `F.SEED 42` (V-F1). -/
def fs0 : W64 := 0x185706B82C2E03F8#64
def fs1 : W64 := 0x2B47FED88766BB05#64
def fs2 : W64 := 0x8B33296D19BF5B4E#64
def fs3 : W64 := 0xF7079824C154BF23#64
def fs4 : W64 := 0xEBBF9E97AA16F694#64

/-! ### Engine commands -/

/-- V-F1. -/
theorem test_seed_fast : ∃ t, exec (.seed .F) { State.reset with
    portF := { State.reset.portF with arg := args [42#64] } } = .next t ∧
    t.fast = ⟨0x185706B82C2E03F8#64, 0x6D#64, true⟩ ∧ t.portF.ok = true := ⟨_, rfl, by decide +kernel, by decide +kernel⟩

/-- V-S2. -/
theorem test_seed_secure : ∃ t, exec (.seed .S) { State.reset with
    portS := { State.reset.portS with arg := args [42#64] } } = .next t ∧ t.secure = seeded42 :=
  ⟨_, rfl, by decide +kernel⟩

/-- V-S4: the requests of `S.SEED 0` and where the expansion goes. -/
theorem test_seed_secure_zero : (match exec (.seed .S) { State.reset with
    envS := { Env.fresh with entropies := [some 0x0123456789ABCDEF#64], timestamps := [0x1122334455667788#64] } } with
      | .next t => some (t.secure.sm[4], t.secure.sm[15], t.envS.log)
      | .fault _ => none
      | .refused _ => none) = some (0xFA8289FF#32, 0xCC4D7966#32,
    [.entropy (some 0x0123456789ABCDEF#64), .timestamp 0x1122334455667788#64]) := by decide +kernel

/-- V-F1. -/
theorem test_nextU32_fast : outF (exec (.nextU32 .F) (fState [] [])) =
    some (#v[0xA15C02B7#64, 0#64, 0#64, 0#64], true, .none, fs1) := by decide +kernel

/-- V-S2. -/
theorem test_nextU32_secure : outS (exec (.nextU32 .S) (sState [])) = some (0xD42C8A4A#64, true, 1, 4#64) := by
  decide +kernel

/-- V-F2. -/
theorem test_nextFloat : outF (exec (.nextFloat .F) (fState [] [])) =
    some (#v[0x3FE42B8056E00000#64, 0#64, 0#64, 0#64], true, .none, fs1) := by decide +kernel

/-- V-B3. -/
theorem test_bounded : outF (exec (.bounded .F) (fState [7#64] [])) =
    some (#v[4#64, 0#64, 0#64, 0#64], true, .none, fs1) := by decide +kernel

/-- V-B2 for bound 7 and the words 0x24924925, 0xFFFFFFFF: the first is rejected, the second gives 6. -/
theorem test_bounded_rejects : low32 (mul32x32 0x24924925#32 7#32) < rejectThreshold 7#32 ∧
    ¬ low32 (mul32x32 0xFFFFFFFF#32 7#32) < rejectThreshold 7#32 ∧ high32 (mul32x32 0xFFFFFFFF#32 7#32) = 6#32 := by
  decide

/-- V-S8 on channel `S`. -/
theorem test_zeroize : ∃ t, exec (.zeroize .S) (sState []) = .next t ∧ t.secure = Secure.afterReset ∧
    t.portS.ok = true := ⟨_, rfl, by decide +kernel, by decide +kernel⟩

/-- V-S8 on channel `F`. -/
theorem test_zeroize_on_F : outF (exec (.zeroize .F) (fState [] [])) =
    some (Vector.replicate 4 0#64, false, .illegal, fs0) := by decide +kernel

/-- V-S1: the quarter-round of RFC 8439. -/
theorem test_quarterRound :
    let x := quarterRound ((((Vector.replicate 16 0#32).set 0 0x11111111#32).set 1 0x01020304#32).set 2 0x9B8D6F43#32
      |>.set 3 0x01234567#32) 0 1 2 3
    x[0] = 0xEA2A92F4#32 ∧ x[1] = 0xCB1CF8CE#32 ∧ x[2] = 0x4581472E#32 ∧ x[3] = 0x5881C4BB#32 := by decide +kernel

/-- V-S6: the fifth draw of a threshold of 16 reseeds from `ENTROPY()`. -/
theorem test_reseed : (match exec (.nextU32 .S) { sState [] with
    cfg := { referenceCfg with reseedThreshold := 16#64 }
    secure := { seeded42 with cur := 4, bytes := 16#64 }
    envS := { Env.fresh with entropies := [some 0x1111111122222222#64] } } with
      | .next t => some (t.portS.res[0], t.secure.bytes, t.secure.sm[4], t.secure.sm[12])
      | .fault _ => none
      | .refused _ => none) = some (0xC60F78EA#64, 4#64, 0x5DF52134#32, 0x4F170DF1#32) := by decide +kernel

/-! ### Distribution commands -/

/-- V-D1. -/
theorem test_range : outF (exec (.range .F) (fState [10#64, 0xFFFFFFFF00000001#64] [])) =
    some (#v[7#64, 0#64, 0#64, 0#64], true, .none, fs1) := by decide +kernel

/-- V-D1, the full span. -/
theorem test_range_full : outF (exec (.range .F) (fState [0x80000000#64, 0x7FFFFFFF#64] [])) =
    some (#v[0xFFFFFFFF80000000#64, 0#64, 0#64, 0#64], true, .none, fs0) := by decide +kernel

/-- V-D2, bounds exchanged. -/
theorem test_floatRange : outF (exec (.floatRange .F) (fState [0x4008000000000000#64, 0x3FF0000000000000#64] [])) =
    some (#v[0x400215C02B700000#64, 0#64, 0#64, 0#64], true, .none, fs1) := by decide +kernel

/-- V-D2, equal bounds draw nothing. -/
theorem test_floatRange_equal : outF (exec (.floatRange .F) (fState [0x4004000000000000#64, 0x4004000000000000#64] [])) =
    some (#v[0x4004000000000000#64, 0#64, 0#64, 0#64], true, .none, fs0) := by decide +kernel

/-- V-D3: 0.7 is above the float 0.6303 drawn, 0.5 is not. -/
theorem test_boolean : outF (exec (.boolean .F) (fState [0x3FE6666666666666#64] [])) =
      some (#v[1#64, 0#64, 0#64, 0#64], true, .none, fs1) ∧
    outF (exec (.boolean .F) (fState [0x3FE0000000000000#64] [])) =
      some (#v[0#64, 0#64, 0#64, 0#64], true, .none, fs1) := by decide +kernel

/-- V-D3: an infinite probability gives 0 with no draw. -/
theorem test_boolean_infinite : outF (exec (.boolean .F) (fState [0x7FF0000000000000#64] [])) =
    some (#v[0#64, 0#64, 0#64, 0#64], true, .none, fs0) := by decide +kernel

/-- V-D4. -/
theorem test_booleanWeighted : outF (exec (.booleanWeighted .F) (fState [3#64, 1#64] [])) =
    some (#v[1#64, 0#64, 0#64, 0#64], true, .none, fs1) := by decide +kernel

/-- V-D4, halved weights. -/
theorem test_booleanWeighted_halved : outF (exec (.booleanWeighted .F) (fState [1#64, 0x7FFFFFFF#64] [])) =
    some (#v[0#64, 0#64, 0#64, 0#64], true, .none, fs1) := by decide +kernel

/-- V-D6. -/
theorem test_weightedIndex :
    outF (exec (.weightedIndex .F) (fState [5#64] [0#64, 7#64, 0xFFFFFFFD#64, 0#64, 9#64])) =
    some (#v[4#64, 0#64, 0#64, 0#64], true, .none, fs1) := by decide +kernel

/-- V-D6, a sum above `2^31 - 1`. -/
theorem test_weightedIndex_overflow : outF (exec (.weightedIndex .F) (fState [2#64] [0x7FFFFFFF#64, 1#64])) =
    some (#v[0#64, 0#64, 0#64, 0#64], false, .numeric, fs0) := by decide +kernel

/-- V-D7. -/
theorem test_shuffle : cellsF 5 (exec (.shuffle .F) (fState [5#64] [10#64, 20#64, 30#64, 40#64, 50#64])) =
    [10#64, 50#64, 30#64, 20#64, 40#64] := by decide +kernel

/-- V-D7, a count above `MAX_ELEMS`. -/
theorem test_shuffle_size : outF (exec (.shuffle .F) (fState [1025#64] [])) =
    some (#v[0#64, 0#64, 0#64, 0#64], false, .size, fs0) := by decide +kernel

/-- V-D7. -/
theorem test_shuffleRange :
    cellsF 6 (exec (.shuffleRange .F) (fState [1#64, 4#64] [10#64, 20#64, 30#64, 40#64, 50#64, 60#64])) =
    [10#64, 20#64, 50#64, 30#64, 40#64, 60#64] := by decide +kernel

/-- V-D7, an index outside the memory. -/
theorem test_shuffleRange_size : outF (exec (.shuffleRange .F) (fState [0#64, 1024#64] [])) =
    some (#v[0#64, 0#64, 0#64, 0#64], false, .size, fs0) := by decide +kernel

/-- V-D8, two draws (the sample passes through `CFG.NUM`). -/
theorem test_gaussian : flagsF (exec (.gaussian .F) (fState [0x4059000000000000#64, 0x402E000000000000#64] [])) =
    some (true, .none, fs2) := by decide +kernel

/-- V-D9: (-3.7, -1.0) fails with the truncated mean. -/
theorem test_gaussian_fails : outF (exec (.gaussian .F) (fState [0xC00D99999999999A#64, 0xBFF0000000000000#64] [])) =
    some (#v[0xFFFFFFFFFFFFFFFD#64, 0#64, 0#64, 0#64], false, .numeric, fs0) := by decide +kernel

/-- V-D10. -/
theorem test_dice : outF (exec (.dice .F) (fState [6#64, 3#64] [])) =
    some (#v[12#64, 0#64, 0#64, 0#64], true, .none, fs3) := by decide +kernel

/-- V-D10. -/
theorem test_dice_fails : outF (exec (.dice .F) (fState [0xFFFFFFFE#64, 3#64] [])) =
    some (#v[0#64, 0#64, 0#64, 0#64], false, .numeric, fs0) := by decide +kernel

/-- V-D11. -/
theorem test_pick : outF (exec (.pick .F) (fState [4#64] [111#64, 222#64, 333#64, 444#64])) =
    some (#v[333#64, 0#64, 0#64, 0#64], true, .none, fs1) := by decide +kernel

/-- V-D11. -/
theorem test_pick_fails : outF (exec (.pick .F) (fState [0#64] [])) =
    some (#v[0#64, 0#64, 0#64, 0#64], false, .size, fs0) := by decide +kernel

/-- After `F.SEED 42` with a pattern in `IBUF[F]`. -/
def patternState (cap : W64) (pattern : List Byte) : State :=
  { fState [cap] [] with portF := { (fState [cap] []).portF with ibuf := filled pattern } }

/-- The pattern of V-D12, `X9-x!\XA\` with its terminator. -/
def patternX9 : List Byte :=
  [0x58#8, 0x39#8, 0x2D#8, 0x78#8, 0x21#8, 0x5C#8, 0x58#8, 0x41#8, 0x5C#8, 0x00#8]

/-- V-D12. -/
theorem test_patternFormat :
    bytesOut .F 8 (exec (.patternFormat .F) (patternState 32#64 patternX9)) =
      [0x51#8, 0x34#8, 0x2D#8, 0x73#8, 0x2B#8, 0x58#8, 0x75#8, 0x00#8] ∧
    outF (exec (.patternFormat .F) (patternState 32#64 patternX9)) =
      some (#v[1#64, 7#64, 0#64, 0#64], true, .none, 0x8303569FBE80C471#64) := by decide +kernel

/-- V-D12: `ID-9999` with capacity 6 draws two digits only. -/
theorem test_patternFormat_full :
    outF (exec (.patternFormat .F) (patternState 6#64 [0x49#8, 0x44#8, 0x2D#8, 0x39#8, 0x39#8, 0x39#8, 0x39#8, 0#8])) =
      some (#v[1#64, 5#64, 0#64, 0#64], true, .none, fs2) := by decide +kernel

/-- V-D13. -/
theorem test_randomBytes : bytesOut .S 6 (exec (.randomBytes .S) (sState [6#64])) =
      [0x4A#8, 0x8A#8, 0x2C#8, 0xD4#8, 0x47#8, 0x41#8] ∧
    outS (exec (.randomBytes .S) (sState [6#64])) = some (1#64, true, 2, 8#64) := by decide +kernel

/-- V-D13 on channel `F`. -/
theorem test_randomBytes_on_F : outF (exec (.randomBytes .F) (fState [6#64] [])) =
    some (Vector.replicate 4 0#64, false, .illegal, fs0) := by decide +kernel

/-- V-D14: `4a8a2cd4-4741-4c84-819a-c03d61292f47` and a terminator. -/
theorem test_uuidV4 : bytesOut .S 37 (exec (.uuidV4 .S) (sState [])) =
    [0x34#8, 0x61#8, 0x38#8, 0x61#8, 0x32#8, 0x63#8, 0x64#8, 0x34#8, 0x2D#8, 0x34#8, 0x37#8, 0x34#8, 0x31#8, 0x2D#8,
     0x34#8, 0x63#8, 0x38#8, 0x34#8, 0x2D#8, 0x38#8, 0x31#8, 0x39#8, 0x61#8, 0x2D#8, 0x63#8, 0x30#8, 0x33#8, 0x64#8,
     0x36#8, 0x31#8, 0x32#8, 0x39#8, 0x32#8, 0x66#8, 0x34#8, 0x37#8, 0x00#8] := by decide +kernel

/-- V-D14 on channel `F`. -/
theorem test_uuidV4_on_F : outF (exec (.uuidV4 .F) (fState [] [])) =
    some (Vector.replicate 4 0#64, false, .illegal, fs0) := by decide +kernel

/-- V-D5. -/
theorem test_truncSat : truncSat 0x401F99999999999A#64 = 7#32 ∧ truncSat 0xC00D99999999999A#64 = 0xFFFFFFFD#32 ∧
    truncSat 0xBFE0000000000000#64 = 0#32 ∧ truncSat 0x41E0000000000000#64 = 0x7FFFFFFF#32 ∧
    truncSat 0xFFF0000000000000#64 = 0x80000000#32 ∧ truncSat 0x7FF8000000000000#64 = 0#32 := by decide +kernel

/-! ### Geometry commands -/

/-- V-G1, two draws. -/
theorem test_pointInCircle : flagsF (exec (.pointInCircle .F) (fState [0#64, 0#64, 0x4024000000000000#64] [])) =
    some (true, .none, fs2) := by decide +kernel

/-- V-G1, radius 0. -/
theorem test_pointInCircle_fails : outF (exec (.pointInCircle .F) (fState [0#64, 0#64, 0#64] [])) =
    some (#v[0#64, 0#64, 0#64, 0#64], false, .numeric, fs0) := by decide +kernel

/-- V-G2, one draw. -/
theorem test_pointOnCircle : flagsF (exec (.pointOnCircle .F)
    (fState [0x3FF0000000000000#64, 0x4000000000000000#64, 0x4014000000000000#64] [])) = some (true, .none, fs1) := by
  decide +kernel

/-- V-G3, corners exchanged. -/
theorem test_pointInRect : outF (exec (.pointInRect .F)
    (fState [0x4010000000000000#64, 0x4000000000000000#64, 0#64, 0#64] [])) =
    some (#v[0x40042B8056E00000#64, 0x3FEED1FD02400000#64, 0#64, 0#64], true, .none, fs2) := by decide +kernel

/-- V-G4, two draws. -/
theorem test_pointInRing : flagsF (exec (.pointInRing .F)
    (fState [0#64, 0#64, 0x3FF0000000000000#64, 0x4000000000000000#64] [])) = some (true, .none, fs2) := by
  decide +kernel

/-- V-G4, equal radii. -/
theorem test_pointInRing_fails : flagsF (exec (.pointInRing .F)
    (fState [0#64, 0#64, 0x4000000000000000#64, 0x4000000000000000#64] [])) = some (false, .numeric, fs0) := by
  decide +kernel

/-- V-G5, two draws. -/
theorem test_pointInEllipse : flagsF (exec (.pointInEllipse .F)
    (fState [0#64, 0#64, 0x4010000000000000#64, 0x3FF0000000000000#64] [])) = some (true, .none, fs2) := by
  decide +kernel

/-- V-G6. -/
theorem test_pointInTriangle : outF (exec (.pointInTriangle .F)
    (fState [0#64, 0#64, 0x4010000000000000#64, 0#64, 0#64, 0x4010000000000000#64] [])) =
    some (#v[0x400097017EE00000#64, 0x3FDCA3F6C0000000#64, 0#64, 0#64], true, .none, fs2) := by decide +kernel

/-- V-G7, two draws. -/
theorem test_pointInArc : flagsF (exec (.pointInArc .F)
    (fState [0#64, 0#64, 0x4024000000000000#64, 0#64, 0x3FF921FB54442D18#64] [])) = some (true, .none, fs2) := by
  decide +kernel

/-- V-G7: from 0 to `TWO_PI` the normalised span is 0. -/
theorem test_pointInArc_fails : flagsF (exec (.pointInArc .F)
    (fState [0#64, 0#64, 0x4024000000000000#64, 0#64, fTwoPi] [])) = some (false, .numeric, fs0) := by decide +kernel

/-- The square of V-G8. -/
def square : List W64 :=
  [0#64, 0#64, 0x4010000000000000#64, 0#64, 0x4010000000000000#64, 0x4010000000000000#64, 0#64, 0x4010000000000000#64]

/-- V-G8. -/
theorem test_pointInPolygon : outF (exec (.pointInPolygon .F) (fState [4#64] square)) =
    some (#v[0x3FF178B334000000#64, 0x3FFED1FD02400000#64, 0#64, 0#64], true, .none, fs3) := by decide +kernel

/-- V-G8, collinear vertices. -/
theorem test_pointInPolygon_degenerate : flagsF (exec (.pointInPolygon .F) (fState [3#64]
    [0#64, 0#64, 0x3FF0000000000000#64, 0x3FF0000000000000#64, 0x4000000000000000#64, 0x4000000000000000#64])) =
    some (false, .numeric, fs0) := by decide +kernel

/-- V-G9, four draws. -/
theorem test_pointInSphere : flagsF (exec (.pointInSphere .F) (fState [0#64, 0#64, 0#64, 0x4000000000000000#64] [])) =
    some (true, .none, fs4) := by decide +kernel

/-- A source whose every word is 0xFFFFFFFF: multiplier 1 and increment 0 keep `FS` as it is. -/
def stuckSource (l : List W64) (cap : Nat) : State :=
  { fState l [] with
    cfg := { referenceCfg with multiplier := 1#64, retryCap := cap }
    fast := ⟨0x7FFFE0000000000#64, 0#64, true⟩ }

/-- V-G9 with a draw source that always returns 0xFFFFFFFF (two candidates). -/
theorem test_pointInSphere_retry :
    (stuckSource [] 2).word .F = 0xFFFFFFFF#32 ∧
    outF (exec (.pointInSphere .F) (stuckSource [0#64, 0#64, 0#64, 0x3FF0000000000000#64] 2)) =
    some (#v[0#64, 0#64, 0#64, 0#64], false, .retry, 0x7FFFE0000000000#64) := by decide +kernel

/-- V-G10. -/
theorem test_pointOnSphere : outF (exec (.pointOnSphere .F) (fState [0#64, 0#64, 0#64, 0x3FF0000000000000#64] [])) =
    some (#v[0x3FE0176ED217BE3F#64, 0xBFB235CA59DE2C6A#64, 0x3FEB90E189F2D179#64, 0#64], true, .none, fs2) := by
  decide +kernel

/-- V-G10 with a draw source that always returns 0xFFFFFFFF (two candidates). -/
theorem test_pointOnSphere_retry :
    outF (exec (.pointOnSphere .F) (stuckSource [0#64, 0#64, 0#64, 0x3FF0000000000000#64] 2)) =
    some (#v[0#64, 0#64, 0#64, 0#64], false, .retry, 0x7FFFE0000000000#64) := by decide +kernel

/-- V-G11. -/
theorem test_pointInBox : outF (exec (.pointInBox .F)
    (fState [0#64, 0#64, 0#64, 0x3FF0000000000000#64, 0x4000000000000000#64, 0x4008000000000000#64] [])) =
    some (#v[0x3FE42B8056E00000#64, 0x3FEED1FD02400000#64, 0x400172BCCC800000#64, 0#64], true, .none, fs3) := by
  decide +kernel

/-! ### The host -/

/-- V-R1: after reset `STATUS` reads 0, and after `S.BOUNDED 0` it reads 2 with the engine still unseeded. -/
theorem test_status : hostRead .F (.reg 1) State.reset = 0#64 ∧
    (match exec (.bounded .S) State.reset with
      | .next t => some (hostRead .S (.reg 1) t, t.secure.seeded)
      | .fault _ => none
      | .refused _ => none) = some (2#64, false) := by decide +kernel

/-- 20_memory.md R87, 70_reset_and_hazards.md R333: a write outside a memory is dropped and reads 0. -/
theorem test_host_outside : (match hostWrite .F (.buf 1024) 5#64 State.reset with
      | .next t => some (t.portF.buf, hostRead .F (.buf 1024) t)
      | .fault _ => none
      | .refused _ => none) = some ([], 0#64) := by decide +kernel

/-- The word of a table row placed by `withFetchWord` is the command the next step runs. -/
theorem test_step_runs_placed_word : (match step (State.reset.withFetchWord 32 0x04) with
      | .next t => some (t.portS.ok, t.portS.res[0], t.secure.seeded)
      | .fault _ => none
      | .refused _ => none) = some (true, 0#64, false) := by decide +kernel

/-! ### Witnesses: for each statement with hypotheses, states and operands that meet them, at boundary values -/

/-- An outcome that is a next state of which `P` holds. -/
def answers (o : Host.Outcome State Fault Refusal) (p : State → Bool) : Bool :=
  match o with
  | .next t => p t
  | .fault _ => false
  | .refused _ => false

theorem exists_next {o : Host.Outcome State Fault Refusal} {P : State → Prop} [DecidablePred P]
    (h : answers o (fun t => decide (P t)) = true) : ∃ t, o = .next t ∧ P t := by
  cases o with
  | next t => exact ⟨t, rfl, of_decide_eq_true h⟩
  | fault f => cases h
  | refused r => cases h

/-- A bounded draw whose first word is accepted. -/
theorem sampled_first {c : Chan} {b : W32} {s : State} (hb : b ≠ 0#32)
    (ha : 2 ^ 32 % b.toNat ≤ (s.wordAt c 0).toNat * b.toNat % 2 ^ 32) : ∃ v u, Sampled c b s v u :=
  ⟨_, _, .inr ⟨hb, 0, Nat.zero_le _, fun j h => absurd h (Nat.not_lt_zero j), ha, rfl, rfl⟩⟩

/-- A bounded draw whose first word is rejected and whose second is accepted. -/
theorem sampled_second {c : Chan} {b : W32} {s : State} (hb : b ≠ 0#32) (hf : 1 ≤ s.cfg.fuel)
    (hr : ¬ 2 ^ 32 % b.toNat ≤ (s.wordAt c 0).toNat * b.toNat % 2 ^ 32)
    (ha : 2 ^ 32 % b.toNat ≤ (s.wordAt c 1).toNat * b.toNat % 2 ^ 32) : ∃ v, Sampled c b s v (s.advanceBy c 2) := by
  refine ⟨_, .inr ⟨hb, 1, hf, fun j h => ?_, ha, rfl, rfl⟩⟩
  obtain rfl : j = 0 := by omega
  exact hr

theorem shuffled_one {c : Chan} {base n : Nat} {s : State} (hn : n = 1)
    (ha : 2 ^ 32 % 2 ≤ (s.wordAt c 0).toNat * 2 % 2 ^ 32) : ∃ t, ShuffledFrom c base n s t := by
  subst hn
  obtain ⟨v, u, h⟩ := sampled_first (c := c) (b := 2#32) (s := s) (by decide) ha
  exact ⟨_, v, u, h, rfl⟩

theorem dice_one {c : Chan} {b : W32} {n : Nat} {s : State} (hn : n = 1) (hb : b ≠ 0#32)
    (ha : 2 ^ 32 % b.toNat ≤ (s.wordAt c 0).toNat * b.toNat % 2 ^ 32) : ∃ sum t, DiceRolled c b n s sum t := by
  subst hn
  obtain ⟨v, u, h⟩ := sampled_first hb ha
  exact ⟨_, _, v, u, 0#32, h, ⟨rfl, rfl⟩, rfl⟩

/-- `fState` with other memory sizes, so that small counts are boundary values. -/
def smallState (elems : Nat) (l cells : List W64) : State :=
  { fState l cells with cfg := { referenceCfg with maxElems := elems, maxVertices := 3 } }

/-- A host about to do one thing to `fState`. -/
def hosted (a : HostAction) : State := { fState [] [] with host := [a] }

/-- `fState` with channel `F` busy and a host about to do one thing. -/
def busyHosted (a : HostAction) : State :=
  { hosted a with portF := { (hosted a).portF with busy := true } }

theorem witness_IllegalWordOnlyReports :
    (∃ v rest, (hosted (.write .F (.reg 0) 0xFFFFFFFF00000005#64)).host = .write .F (.reg 0x00) v :: rest ∧
      ((hosted (.write .F (.reg 0) 0xFFFFFFFF00000005#64)).port .F).busy = false ∧ IllegalWord .F (low32 v)) ∧
    (IllegalWord .S 0#32 ∧ IllegalWord .S 6#32 ∧ IllegalWord .S 0x0F#32 ∧ IllegalWord .S 0x1D#32 ∧
      IllegalWord .S 0x1F#32 ∧ IllegalWord .S 0x2B#32 ∧ IllegalWord .S 0xFF#32 ∧ IllegalWord .S 0x100#32 ∧
      IllegalWord .S 0xFFFFFFFF#32 ∧ IllegalWord .F 0x1C#32) ∧ Instr.wellFormed (.uuidV4 .F) = false := by
  refine ⟨⟨_, _, rfl, rfl, ?_⟩, ?_, rfl⟩
  · unfold IllegalWord
    decide
  · unfold IllegalWord
    refine ⟨?_, ?_, ?_, ?_, ?_, ?_, ?_, ?_, ?_, ?_⟩ <;> decide

theorem witness_StepRunsDecodedCommand :
    (∃ v rest, (hosted (.write .F (.reg 0) 0x10#64)).host = .write .F (.reg 0x00) v :: rest ∧
      ((hosted (.write .F (.reg 0) 0x10#64)).port .F).busy = false ∧ decode .F (low32 v) = .ok (.range .F)) ∧
    decode .S 0x1C#32 = .ok (.uuidV4 .S) := ⟨⟨_, _, rfl, rfl, by decide⟩, by decide⟩

/-- The largest finite float, the smallest subnormal, and a zero divisor excluded. -/
theorem witness_FloatOpsCorrectlyRounded :
    isFinite 0x7FEFFFFFFFFFFFFF#64 = true ∧ isFinite 1#64 = true ∧ units 1#64 ≠ 0 ∧
    0 ≤ units 0x7FEFFFFFFFFFFFFF#64 ∧ 0 ≤ units 0x8000000000000000#64 := by decide +kernel

/-- NaN, both infinities, both zeros, 1.0 and -1.0, for each clause. -/
theorem witness_FloatSpecialOperands :
    isNaN 0xFFF0000000000001#64 = true ∧ isInf 0x7FF0000000000000#64 = true ∧ isInf 0xFFF0000000000000#64 = true ∧
    signBit 0x7FF0000000000000#64 ≠ signBit 0xFFF0000000000000#64 ∧ isFinite fOne = true ∧ units fOne ≠ 0 ∧
    units fZero = 0 ∧ units 0x8000000000000000#64 = 0 ∧ units fOne + units fMinusOne = 0 ∧ units fMinusOne < 0 ∧
    isNaN 0x7FF0000000000000#64 = false := by decide +kernel

/-- `x = 1` and the smallest positive float, and `y` the smallest positive float. -/
theorem witness_NumFunctionsKeepTheirProperties :
    isFinite fOne = true ∧ flt fZero fOne = true ∧ fle fOne fOne = true ∧ flt fZero 1#64 = true ∧
    fle 1#64 fOne = true ∧ fle fZero fZero = true ∧ fle fZero fOne = true ∧ isFinite 1#64 = true := by decide +kernel

theorem witness_ResetLeavesTableValues :
    (busyHosted .reset).host = .reset :: [] ∧ ((busyHosted .reset).port .F).busy = true := by decide

/-- A host about to start `UUID_V4` on a seeded secure channel. -/
theorem witness_StepKeepsGood : ∃ s t, Good s ∧ step s = .next t ∧ t.secure.cur = 4 := by
  have h : Good { sState [] with host := [.write .S (.reg 0) 0x1C#64] } := by decide +kernel
  obtain ⟨t, ht, hc⟩ := exists_next (o := step { sState [] with host := [.write .S (.reg 0) 0x1C#64] })
    (P := fun t => t.secure.cur = 4) (by decide +kernel)
  exact ⟨_, t, h, ht, hc⟩

theorem witness_EveryStepGoesOn : (smallState 6 [] []).cfg.wf = true ∧ State.reset.cfg.wf = true := by decide +kernel

/-- A failure before any draw, and a sphere command whose candidates are all rejected. -/
theorem witness_FailureLeavesEverythingElse :
    (∃ t, exec (.dice .F) (fState [] []) = .next t ∧
      (t.port .F).busy = false ∧ (t.port .F).ok = false ∧ (t.port .F).err ≠ .retry) ∧
    (∃ t, exec (.pointInSphere .F) (stuckSource [0#64, 0#64, 0#64, 0x3FF0000000000000#64] 1) = .next t ∧
      (t.port .F).busy = false ∧ (t.port .F).ok = false ∧ (t.port .F).err = .retry) ∧
    (∃ t, exec (.pointOnSphere .F) (stuckSource [0#64, 0#64, 0#64, 0x3FF0000000000000#64] 1) = .next t ∧
      (t.port .F).busy = false ∧ (t.port .F).ok = false ∧ (t.port .F).err = .retry) :=
  ⟨exists_next (by decide +kernel), exists_next (by decide +kernel), exists_next (by decide +kernel)⟩

theorem witness_FailureCodesOfEachCommand :
    ∃ t, exec (.weightedIndex .F) (fState [1025#64] []) = .next t ∧ (t.port .F).busy = false ∧
      (t.port .F).ok = false := exists_next (by decide +kernel)

theorem witness_FrameOutsideChannelAndInputs :
    ∃ t, exec (.shuffle .F) (fState [2#64] [1#64, 2#64]) = .next t ∧ (t.port .F).ok = true :=
  exists_next (by decide +kernel)

/-- A completed `PATTERN_FORMAT`, with bytes above its terminator, and cells outside a shuffled range. -/
theorem witness_StoresStayWithinNamedElements :
    (∃ t, exec (.patternFormat .F) (patternState 6#64 [0x39#8, 0#8]) = .next t ∧ (t.port .F).busy = false ∧
      (t.port .F).res[1].toNat < 2) ∧
    ¬ bufStores (.shuffleRange .F) (fState [1#64, 4#64] []) 0 ∧
    ¬ bufStores (.shuffleRange .F) (fState [1#64, 4#64] []) 5 ∧
    ¬ bufStores (.shuffle .F) (fState [5#64] []) 5 ∧ ¬ outStores (.uuidV4 .S) (sState []) 37 ∧
    ¬ outStores (.randomBytes .S) (sState [6#64]) 6 := by
  refine ⟨exists_next (by decide +kernel), ?_, ?_, ?_, ?_, ?_⟩ <;>
    simp only [bufStores, outStores] <;> decide +kernel

theorem witness_EngineChangesOnlyByDraws :
    ∃ t, exec (.dice .F) (fState [6#64, 3#64] []) = .next t ∧ t.fast.fs = fs3 := exists_next (by decide +kernel)

theorem witness_ChannelsCommute : ∃ t u, Instr.chan (.nextU32 .F) ≠ Instr.chan (.nextU32 .S) ∧
    exec (.nextU32 .F) { sState [] with fast := (fState [] []).fast } = .next t ∧ exec (.nextU32 .S) t = .next u :=
  ⟨_, _, by decide, rfl, rfl⟩

/-- Seeded and unseeded engines, below, at and with no threshold; `SEED` with both kinds of argument. -/
theorem witness_EnvironmentRequests :
    (fState [] []).fast.seeded = true ∧ State.reset.fast.seeded = false ∧
    ((sState []).secure.seeded = true ∧ (sState []).secure.bytes < (sState []).cfg.reseedThreshold) ∧
    (seeded42.seeded = true ∧ ({ referenceCfg with reseedThreshold := 0#64 } : Cfg).reseedThreshold ≤ seeded42.bytes) ∧
    State.reset.secure.seeded = false ∧ 0#64 < State.reset.cfg.reseedThreshold ∧
    ((fState [1#64] []).argU64 .F 0 ≠ 0#64 ∧ ∃ t, exec (.seed .F) (fState [1#64] []) = .next t) ∧
    (State.reset.argU64 .F 0 = 0#64 ∧ ∃ t, exec (.seed .F) State.reset = .next t) ∧
    (State.reset.argU64 .S 0 = 0#64 ∧ ∃ t, exec (.seed .S) State.reset = .next t) ∧
    (∃ t, exec (.bounded .S) State.reset = .next t) :=
  ⟨rfl, rfl, by decide, by decide, rfl, by decide, ⟨by decide, _, rfl⟩, ⟨by decide, _, rfl⟩, ⟨by decide, _, rfl⟩, _, rfl⟩

theorem witness_LazyDrawSeedsFirst :
    (State.reset.engine .F).seededFlag = false ∧ (State.reset.engine .S).seededFlag = false := by decide

theorem witness_FastWordsDeterminedBySeed :
    (fState [] []).cfg = referenceCfg ∧ (fState [] []).fast = fSeedInternal referenceCfg 42#64 Fast.afterReset := by
  decide +kernel

/-- The last draw number below the reference threshold. -/
theorem witness_SecureWordsDeterminedBySeed :
    42#64 ≠ 0#64 ∧ (sState []).secure = (sSeed (sState []).cfg 42#64 Env.fresh).1 ∧
    4 * (2 ^ 28 - 1) < (sState []).cfg.reseedThreshold.toNat := by decide +kernel

theorem witness_SeedFastSetsState :
    (fState [1#64] []).argU64 .F 0 ≠ 0#64 ∧ State.reset.argU64 .F 0 = 0#64 := by decide

theorem witness_SeedSecureSetsState :
    (sState [1#64]).argU64 .S 0 ≠ 0#64 ∧ State.reset.argU64 .S 0 = 0#64 := by decide

/-- The last word of a block, a used-up block, and `BYTES` just below the threshold. -/
theorem witness_SecureDrawBelowThreshold :
    (∃ e : Secure, e = { seeded42 with cur := 15, bytes := 0x3FFFFFFF#64 } ∧ e.seeded = true ∧
      e.bytes < referenceCfg.reseedThreshold ∧ e.cur.val < 16) ∧
    ((sState []).secure.seeded = true ∧ (sState []).secure.bytes < (sState []).cfg.reseedThreshold ∧
      (sState []).secure.cur = 16) := ⟨⟨_, rfl, by decide⟩, by decide⟩

/-- The secure engine with `BYTES` at the threshold and one answer of `ENTROPY()`. -/
def dueState (a : Option W64) : State :=
  { sState [] with
    secure := { seeded42 with bytes := 0x40000000#64 }
    envS := { Env.fresh with entropies := [a] } }

/-- `BYTES` at the threshold, with an entropy answer and with a failure. -/
theorem witness_ReseedAtThreshold :
    ((dueState (some 5#64)).secure.seeded = true ∧
      (dueState (some 5#64)).cfg.reseedThreshold ≤ (dueState (some 5#64)).secure.bytes ∧
      ∃ x env, askEntropy (dueState (some 5#64)).envS = (some x, env)) ∧
    ((dueState none).secure.seeded = true ∧
      (dueState none).cfg.reseedThreshold ≤ (dueState none).secure.bytes ∧
      ∃ env, askEntropy (dueState none).envS = (none, env)) :=
  ⟨⟨rfl, by decide, _, _, rfl⟩, rfl, by decide, _, rfl⟩

theorem witness_QuarterRoundsOnDisjointWordsCommute :
    ([0, 4, 8, 12] : List (Fin 16)).Nodup ∧ (15 : Fin 16) ∉ ([0, 4, 8, 12] : List (Fin 16)) ∧
    ([0, 4, 8, 12, 1, 5, 9, 13] : List (Fin 16)).Nodup := by decide

theorem witness_BoundZeroAndBoundOne :
    (fState [0xFFFFFFFF00000000#64] []).argU32 .F 0 = 0#32 ∧ (fState [1#64] []).argU32 .F 0 = 1#32 := by decide

/-- Bound 0; a first word accepted; and, with the words 0 and 5 in a row, a first word rejected. -/
theorem witness_BoundedReturnsFirstAccepted :
    (∃ v u, Sampled .F ((fState [] []).argU32 .F 0) (fState [] []) v u) ∧
    (∃ v u, Sampled .F ((fState [7#64] []).argU32 .F 0) (fState [7#64] []) v u ∧
      (fState [7#64] []).argU32 .F 0 ≠ 0#32) ∧
    (∃ s : State, ∃ v, Sampled .F 0xC0000000#32 s v (s.advanceBy .F 2)) := by
  refine ⟨⟨_, _, .inl ⟨by decide, rfl, rfl⟩⟩, ?_, ⟨{ State.reset with
      secure := State.reset.secure
      fast := ⟨0#64, 0x185706B82C2E03F8#64, true⟩ }, sampled_second (by decide) (by decide) (by decide +kernel)
        (by decide +kernel)⟩⟩
  obtain ⟨v, u, h⟩ := sampled_first (c := .F) (b := (fState [7#64] []).argU32 .F 0) (s := fState [7#64] []) (by decide)
    (by decide +kernel)
  exact ⟨v, u, h, by decide⟩

/-- The smallest and the largest bound, the last result of each, and the largest power of two. -/
theorem witness_NoModuloBias :
    1#32 ≠ 0#32 ∧ 0 < (1#32).toNat ∧ 0xFFFFFFFF#32 ≠ 0#32 ∧ 0xFFFFFFFE < (0xFFFFFFFF#32).toNat ∧
    (1#32).toNat = 2 ^ 0 ∧ (0x80000000#32).toNat = 2 ^ 31 ∧
    (∃ t, exec (.bounded .F) (fState [7#64] []) = .next t ∧ t.fast.fs = fs1) ∧
    (∃ t, exec (.bounded .F) (fState [] []) = .next t ∧ t.fast.fs = fs0) :=
  ⟨by decide, by decide, by decide, by decide, by decide, by decide, exists_next (by decide +kernel),
    exists_next (by decide +kernel)⟩

/-- A fast engine that stands at 0, where every word it delivers is 0; no seeding gives it (10_state.md R48). -/
def standingSource : State := { fState [7#64] [] with fast := ⟨0#64, 0#64, true⟩ }

/-- The hypothesis of FastHangIsExact holds; there is a state whose every word is rejected, with bound 7, and one whose
first word is accepted. -/
theorem witness_FastHangIsExact : 2 ^ 64 ≤ standingSource.cfg.fuel ∧ 2 ^ 64 ≤ (fState [7#64] []).cfg.fuel ∧
    (standingSource.argU32 .F 0 ≠ 0#32 ∧
      ∀ n, ¬ Accepts (standingSource.argU32 .F 0).toNat (standingSource.wordAt .F n).toNat) ∧
    Accepts ((fState [7#64] []).argU32 .F 0).toNat ((fState [7#64] []).wordAt .F 0).toNat := by
  have stands : ∀ n, standingSource.advanceBy .F n = standingSource := fun n => by
    induction n with
    | zero => rfl
    | succ n ih => rw [State.advanceBy, ih]; decide +kernel
  refine ⟨by decide +kernel, by decide +kernel, ⟨by decide +kernel, fun n => ?_⟩, ?_⟩
  · rw [State.wordAt, stands]; unfold Accepts; decide +kernel
  · unfold Accepts; decide +kernel

/-- Equal bounds, the full span, and the spans 2 and `2^32 - 1`. -/
theorem witness_RangeSamplesInclusive :
    ((fState [5#64, 5#64] []).argI32 .F 0 = (fState [5#64, 5#64] []).argI32 .F 1) ∧
    ((fState [0x7FFFFFFF#64, 0x80000000#64] []).argI32 .F 0 - (fState [0x7FFFFFFF#64, 0x80000000#64] []).argI32 .F 1 + 1 =
      2 ^ 32) ∧
    (∃ v u, Sampled .F (asU32 ((fState [0#64, 1#64] []).argI32 .F 1 - (fState [0#64, 1#64] []).argI32 .F 0 + 1))
      (fState [0#64, 1#64] []) v u) ∧
    (∃ v u, Sampled .F (asU32 ((fState [0x80000000#64, 0x7FFFFFFE#64] []).argI32 .F 1 -
      (fState [0x80000000#64, 0x7FFFFFFE#64] []).argI32 .F 0 + 1)) (fState [0x80000000#64, 0x7FFFFFFE#64] []) v u) :=
  ⟨by decide, by decide, sampled_first (by decide) (by decide +kernel), sampled_first (by decide) (by decide +kernel)⟩

theorem witness_FloatRangeScales :
    ((fOne, fTwo) = (if flt ((fState [fTwo, fOne] []).argF64 .F 1) ((fState [fTwo, fOne] []).argF64 .F 0)
      then ((fState [fTwo, fOne] []).argF64 .F 1, (fState [fTwo, fOne] []).argF64 .F 0)
      else ((fState [fTwo, fOne] []).argF64 .F 0, (fState [fTwo, fOne] []).argF64 .F 1)) ∧ feq fOne fTwo = false) ∧
    ((fOne, fOne) = (if flt ((fState [fOne, fOne] []).argF64 .F 1) ((fState [fOne, fOne] []).argF64 .F 0)
      then ((fState [fOne, fOne] []).argF64 .F 1, (fState [fOne, fOne] []).argF64 .F 0)
      else ((fState [fOne, fOne] []).argF64 .F 0, (fState [fOne, fOne] []).argF64 .F 1)) ∧ feq fOne fOne = true) := by
  decide +kernel

/-- An infinity; 0; 1; the smallest positive float and the largest below 1. -/
theorem witness_BooleanCompares :
    isFinite ((fState [0x7FF0000000000000#64] []).argF64 .F 0) = false ∧
    (isFinite ((fState [] []).argF64 .F 0) = true ∧ fle ((fState [] []).argF64 .F 0) fZero = true) ∧
    (isFinite ((fState [fOne] []).argF64 .F 0) = true ∧ fle fOne ((fState [fOne] []).argF64 .F 0) = true) ∧
    ([1#64, 0x3FEFFFFFFFFFFFFF#64].all fun p => isFinite ((fState [p] []).argF64 .F 0) &&
      flt fZero ((fState [p] []).argF64 .F 0) && flt ((fState [p] []).argF64 .F 0) fOne) = true := by
  decide +kernel

/-- A weight of 0 on either side, a sum of `2^31 - 1`, and one of `2^31`. -/
theorem witness_BooleanWeightedChooses :
    (fState [0#64, 5#64] []).argI32 .F 0 ≤ 0 ∧
    (0 < (fState [1#64, 0#64] []).argI32 .F 0 ∧ (fState [1#64, 0#64] []).argI32 .F 1 ≤ 0) ∧
    (0 < (fState [1#64, 0x7FFFFFFE#64] []).argI32 .F 0 ∧ 0 < (fState [1#64, 0x7FFFFFFE#64] []).argI32 .F 1 ∧
      ¬ (2 ^ 31 ≤ (fState [1#64, 0x7FFFFFFE#64] []).argI32 .F 0 + (fState [1#64, 0x7FFFFFFE#64] []).argI32 .F 1) ∧
      ∃ v u, Sampled .F (asU32 ((fState [1#64, 0x7FFFFFFE#64] []).argI32 .F 0 / 1 +
        (fState [1#64, 0x7FFFFFFE#64] []).argI32 .F 1 / 1)) (fState [1#64, 0x7FFFFFFE#64] []) v u) ∧
    (2 ^ 31 ≤ (fState [1#64, 0x7FFFFFFF#64] []).argI32 .F 0 + (fState [1#64, 0x7FFFFFFF#64] []).argI32 .F 1 ∧
      ∃ v u, Sampled .F (asU32 ((fState [1#64, 0x7FFFFFFF#64] []).argI32 .F 0 / 2 +
        (fState [1#64, 0x7FFFFFFF#64] []).argI32 .F 1 / 2)) (fState [1#64, 0x7FFFFFFF#64] []) v u) :=
  ⟨by decide, by decide, ⟨by decide, by decide, by decide, sampled_first (by decide +kernel) (by decide +kernel)⟩,
    by decide, sampled_first (by decide +kernel) (by decide +kernel)⟩

/-- Counts 0 and `MAX_ELEMS + 1`; weights summing to 0, to `2^31`, to 1 and to `2^31 - 1`. -/
theorem witness_WeightedIndexChooses :
    (fState [0#64] []).argI32 .F 0 ≤ 0 ∧ (1024 : Int) < (fState [1025#64] []).argI32 .F 0 ∧
    (fState [1#64] [0#64]).weightBelow .F 1 = 0 ∧
    2 ^ 31 ≤ (fState [2#64] [0x7FFFFFFF#64, 1#64]).weightBelow .F 2 ∧
    (0 < (fState [1#64] [1#64]).weightBelow .F 1 ∧ (fState [1#64] [1#64]).weightBelow .F 1 < 2 ^ 31) ∧
    (0 < (fState [1#64] [0x7FFFFFFF#64]).weightBelow .F 1 ∧
      (fState [1#64] [0x7FFFFFFF#64]).weightBelow .F 1 < 2 ^ 31) ∧
    (∃ v u, Sampled .F (asU32 ((fState [1#64] [1#64]).weightBelow .F 1)) (fState [1#64] [1#64]) v u) ∧
    (∃ v u, Sampled .F (asU32 ((fState [1#64] [0x7FFFFFFF#64]).weightBelow .F 1)) (fState [1#64] [0x7FFFFFFF#64]) v u) :=
  ⟨by decide, by decide, by decide +kernel, by decide +kernel, by decide +kernel,
    by decide +kernel, sampled_first (by decide +kernel) (by decide +kernel),
    sampled_first (by decide +kernel) (by decide +kernel)⟩

/-- With `MAX_ELEMS = 2`: counts 3, 1 and 2, index ranges past the end, reversed, and 0 to 1. -/
theorem witness_ShufflesSwapDownward :
    ((smallState 2 [3#64] []).cfg.maxElems : Int) < (smallState 2 [3#64] []).argI32 .F 0 ∧
    ((smallState 2 [1#64] []).argI32 .F 0 ≤ (smallState 2 [1#64] []).cfg.maxElems ∧
      ∃ t, ShuffledFrom .F 0 ((smallState 2 [1#64] []).argI32 .F 0 - 1).toNat (smallState 2 [1#64] []) t) ∧
    ((smallState 2 [2#64] []).argI32 .F 0 ≤ (smallState 2 [2#64] []).cfg.maxElems ∧
      ∃ t, ShuffledFrom .F 0 ((smallState 2 [2#64] []).argI32 .F 0 - 1).toNat (smallState 2 [2#64] []) t) ∧
    ((smallState 2 [0#64, 2#64] []).cfg.maxElems : Int) ≤ (smallState 2 [0#64, 2#64] []).argI32 .F 1 ∧
    (smallState 2 [0xFFFFFFFF#64] []).argI32 .F 0 < 0 ∧
    (0 ≤ (smallState 2 [0#64, 1#64] []).argI32 .F 0 ∧ 0 ≤ (smallState 2 [0#64, 1#64] []).argI32 .F 1 ∧
      (smallState 2 [0#64, 1#64] []).argI32 .F 0 < (smallState 2 [0#64, 1#64] []).cfg.maxElems ∧
      (smallState 2 [0#64, 1#64] []).argI32 .F 1 < (smallState 2 [0#64, 1#64] []).cfg.maxElems ∧
      ∃ t, ShuffledFrom .F ((smallState 2 [0#64, 1#64] []).argI32 .F 0).toNat
        ((smallState 2 [0#64, 1#64] []).argI32 .F 1 - (smallState 2 [0#64, 1#64] []).argI32 .F 0).toNat
        (smallState 2 [0#64, 1#64] []) t) :=
  ⟨by decide, ⟨by decide, _, rfl⟩, ⟨by decide, shuffled_one (by decide) (by decide +kernel)⟩, by decide, by decide,
    by decide, by decide, by decide, by decide, shuffled_one (by decide) (by decide +kernel)⟩

theorem witness_ShufflesPermute :
    (∃ t, exec (.shuffle .F) (fState [2#64] [1#64, 2#64]) = .next t ∧ (t.port .F).ok = true) ∧
    (∃ t, exec (.shuffleRange .F) (fState [0#64, 1#64] [1#64, 2#64]) = .next t ∧ (t.port .F).ok = true) :=
  ⟨exists_next (by decide +kernel), exists_next (by decide +kernel)⟩

/-- A mean that is not finite, a deviation that is not finite, a deviation of 0, and the smallest positive one. -/
theorem witness_GaussianSamples :
    isFinite ((fState [0x7FF8000000000000#64] []).argF64 .F 0) = false ∧
    isFinite ((fState [fOne, 0x7FF0000000000000#64] []).argF64 .F 1) = false ∧
    (isFinite ((fState [fOne, 0#64] []).argF64 .F 0) = true ∧ isFinite ((fState [fOne, 0#64] []).argF64 .F 1) = true ∧
      fle ((fState [fOne, 0#64] []).argF64 .F 1) fZero = true) ∧
    (isFinite ((fState [fOne, 1#64] []).argF64 .F 0) = true ∧ isFinite ((fState [fOne, 1#64] []).argF64 .F 1) = true ∧
      flt fZero ((fState [fOne, 1#64] []).argF64 .F 1) = true) := by decide +kernel

/-- A NaN, `2^31`, `-2^31`, and the floats next to them inside the range. -/
theorem witness_TruncSatConverts :
    isNaN 0x7FF8000000000000#64 = true ∧ fle 0x41E0000000000000#64 0x41E0000000000000#64 = true ∧
    fle 0xC1E0000000000000#64 0xC1E0000000000000#64 = true ∧
    ([0x41DFFFFFFFFFFFFF#64, 0xC1DFFFFFFFFFFFFF#64, 0x8000000000000000#64].all fun r =>
      flt 0xC1E0000000000000#64 r && flt r 0x41E0000000000000#64) = true := by decide +kernel

theorem witness_DiceSums :
    (fState [0#64, 1#64] []).argI32 .F 0 ≤ 0 ∧ (fState [1#64, 0#64] []).argI32 .F 1 ≤ 0 ∧
    (∃ sum t, DiceRolled .F (asU32 ((fState [1#64, 1#64] []).argI32 .F 0)) ((fState [1#64, 1#64] []).argI32 .F 1).toNat
      (fState [1#64, 1#64] []) sum t) ∧
    (∃ sum t, DiceRolled .F (asU32 ((fState [0x7FFFFFFF#64, 1#64] []).argI32 .F 0))
      ((fState [0x7FFFFFFF#64, 1#64] []).argI32 .F 1).toNat (fState [0x7FFFFFFF#64, 1#64] []) sum t) :=
  ⟨by decide, by decide, dice_one (by decide) (by decide) (by decide +kernel),
    dice_one (by decide) (by decide) (by decide +kernel)⟩

/-- Counts 0, `MAX_ELEMS + 1`, 1 and `MAX_ELEMS`. -/
theorem witness_PickReturnsCell :
    (fState [0#64] []).argI32 .F 0 ≤ 0 ∧ ((fState [] []).cfg.maxElems : Int) < (fState [1025#64] []).argI32 .F 0 ∧
    (∃ v u, Sampled .F (asU32 ((fState [1#64] []).argI32 .F 0)) (fState [1#64] []) v u) ∧
    ((fState [1024#64] []).argI32 .F 0 ≤ (fState [1024#64] []).cfg.maxElems ∧
      ∃ v u, Sampled .F (asU32 ((fState [1024#64] []).argI32 .F 0)) (fState [1024#64] []) v u) :=
  ⟨by decide, by decide, sampled_first (by decide) (by decide +kernel), by decide,
    sampled_first (by decide) (by decide +kernel)⟩

/-- Capacities 0, `MAX_BYTES + 1`, 1 (no room), `MAX_BYTES` with an empty pattern, and 2 with one placeholder. -/
theorem witness_PatternFormatWrites :
    (patternState 0#64 []).argI32 .F 0 ≤ 0 ∧
    ((patternState 257#64 []).cfg.maxBytes : Int) < (patternState 257#64 []).argI32 .F 0 ∧
    (∃ t o, Formatted .F ((patternState 1#64 []).argI32 .F 0 - 1).toNat 0 0 (patternState 1#64 []) t o) ∧
    (∃ t o, Formatted .F ((patternState 256#64 [0#8]).argI32 .F 0 - 1).toNat 0 0 (patternState 256#64 [0#8]) t o) ∧
    (∃ t, Formatted .F ((patternState 2#64 [0x39#8, 0#8]).argI32 .F 0 - 1).toNat 0 0 (patternState 2#64 [0x39#8, 0#8])
      t 1) := by
  refine ⟨by decide, by decide, ⟨_, _, .full 0 0 _⟩, ⟨_, _, .ended 254 0 0 _ (.inr (by decide +kernel))⟩, ?_⟩
  obtain ⟨v, u, h⟩ := sampled_first (c := .F) (b := BitVec.ofNat 32 referenceDigit.length)
    (s := patternState 2#64 [0x39#8, 0#8]) (by decide +kernel) (by decide +kernel)
  refine ⟨_, .drawn 0 0 0 _ _ u 1 referenceDigit v ?_ ?_ h (.full 1 1 _)⟩
  · rintro (h | h)
    · exact absurd h (by decide)
    · exact absurd h (by decide +kernel)
  · exact .tail _ (.tail _ (.head _))

/-- Lengths 0, `MAX_BYTES + 1`, 1 and `MAX_BYTES`. -/
theorem witness_RandomBytesWrites :
    (sState [0#64]).argI32 .S 0 ≤ 0 ∧ ((sState [257#64]).cfg.maxBytes : Int) < (sState [257#64]).argI32 .S 0 ∧
    (0 < (sState [1#64]).argI32 .S 0 ∧ (sState [1#64]).argI32 .S 0 ≤ (sState [1#64]).cfg.maxBytes) ∧
    (sState [256#64]).argI32 .S 0 ≤ (sState [256#64]).cfg.maxBytes := by decide

/-- The smallest `MAX_BYTES` allowed. -/
theorem witness_UuidWritesText : 37 ≤ ({ referenceCfg with maxBytes := 37 } : Cfg).maxBytes := by decide

/-- A NaN centre, radius 0, and the smallest positive radius. -/
theorem witness_CirclesSample :
    (isFinite ((fState [0x7FF8000000000000#64, 0#64, fOne] []).argF64 .F 0) = false) ∧
    fle ((fState [0#64, 0#64, 0#64] []).argF64 .F 2) fZero = true ∧
    ((∀ i : Fin 3, isFinite ((fState [0#64, 0#64, 1#64] []).argF64 .F (i.castLE (by decide))) = true) ∧
      flt fZero ((fState [0#64, 0#64, 1#64] []).argF64 .F 2) = true) := by decide +kernel

/-- A negative inner radius, an outer radius of 0, equal radii, a semi-axis of 0, and an inner radius of 0. -/
theorem witness_RingAndEllipseSample :
    isFinite ((fState [0#64, 0x7FF0000000000000#64] []).argF64 .F 1) = false ∧
    flt ((fState [0#64, 0#64, fMinusOne, fOne] []).argF64 .F 2) fZero = true ∧
    fle ((fState [0#64, 0#64, fMinusOne, 0#64] []).argF64 .F 3) fZero = true ∧
    fle ((fState [0#64, 0#64, fOne, fOne] []).argF64 .F 3) ((fState [0#64, 0#64, fOne, fOne] []).argF64 .F 2) = true ∧
    fle ((fState [0#64, 0#64, 0#64, fOne] []).argF64 .F 2) fZero = true ∧
    ((∀ i : Fin 8, isFinite ((fState [0#64, 0#64, 0#64, 1#64] []).argF64 .F i) = true) ∧
      fle fZero ((fState [0#64, 0#64, 0#64, 1#64] []).argF64 .F 2) = true ∧
      flt fZero ((fState [0#64, 0#64, 0#64, 1#64] []).argF64 .F 3) = true ∧
      flt ((fState [0#64, 0#64, 0#64, 1#64] []).argF64 .F 2) ((fState [0#64, 0#64, 0#64, 1#64] []).argF64 .F 3) = true) ∧
    (flt fZero ((fState [0#64, 0#64, 1#64, 1#64] []).argF64 .F 2) = true ∧
      flt fZero ((fState [0#64, 0#64, 1#64, 1#64] []).argF64 .F 3) = true) := by decide +kernel

/-- The last operand of each not finite, and all finite. -/
theorem witness_RectAndBoxSample :
    (∃ i : Fin 8, i < 4 ∧ isFinite ((fState [0#64, 0#64, 0#64, 0x7FF0000000000000#64] []).argF64 .F i) = false) ∧
    (∃ i : Fin 8, i < 6 ∧
      isFinite ((fState [0#64, 0#64, 0#64, 0#64, 0#64, 0x7FF0000000000000#64] []).argF64 .F i) = false) ∧
    (∀ i : Fin 8, isFinite ((fState [fOne, fOne, 0#64, fTwo, fOne, fOne] []).argF64 .F i) = true) := by decide +kernel

/-- An operand that is not finite; finite vertices; radius 0; equal angles; and a positive span. -/
theorem witness_TriangleAndArcSample :
    (∃ i : Fin 8, i < 6 ∧ isFinite ((fState [0#64, 0#64, 0#64, 0#64, 0#64, 0x7FF0000000000000#64] []).argF64 .F i) =
      false) ∧
    (∃ i : Fin 8, i < 5 ∧ isFinite ((fState [0#64, 0#64, fOne, 0#64, 0x7FF0000000000000#64] []).argF64 .F i) = false) ∧
    (∀ i : Fin 8, isFinite ((fState [0#64, 0#64, fOne, fOne, fOne] []).argF64 .F i) = true) ∧
    fle ((fState [] []).argF64 .F 2) fZero = true ∧
    flt fZero ((fState [0#64, 0#64, 1#64, fOne, fOne] []).argF64 .F 2) = true ∧
    flt fZero (fsub (arcNorm fOne) (arcNorm fOne)) = false ∧
    flt fZero (fsub (arcNorm fOne) (arcNorm fZero)) = true := by decide +kernel

/-- -0, 0, the largest angle below `TWO_PI`, and a negative angle. -/
theorem witness_AnglesStayBelowTwoPi :
    ([0x8000000000000000#64, fZero, 0x401921FB54442D17#64].all fun a => isFinite a && fle fZero a &&
      flt a fTwoPi) = true ∧
    isFinite fMinusOne = true ∧ (isFinite 0x7FEFFFFFFFFFFFFF#64 = true ∧ fle fZero 0x7FEFFFFFFFFFFFFF#64 = true) := by
  decide +kernel

/-- Two words that fold and two that do not. -/
theorem witness_TriangleWeightsSumToOne :
    flt fOne (fadd (uniformOf 0xFFFFFFFF#32) (uniformOf 0xFFFFFFFF#32)) = true ∧
    flt fOne (fadd (uniformOf 0x80000000#32) (uniformOf 0x80000000#32)) = false ∧
    (∃ r1 r2, (r1, r2) = foldWeights (uniformOf 0xFFFFFFFF#32) (uniformOf 0xFFFFFFFF#32)) :=
  ⟨by decide +kernel, by decide +kernel, _, _, Prod.mk.eta⟩

/-- With `MAX_VERTICES = 3`: counts 2 and 4, a coordinate that is not finite, collinear vertices, and a triangle. -/
theorem witness_PolygonSamples :
    2 * (smallState 6 [] []).cfg.maxVertices ≤ (smallState 6 [] []).cfg.maxElems ∧
    (smallState 6 [2#64] []).argI32 .F 0 < 3 ∧
    ((smallState 6 [4#64] []).cfg.maxVertices : Int) < (smallState 6 [4#64] []).argI32 .F 0 ∧
    (3 ≤ (smallState 6 [3#64] []).argI32 .F 0 ∧
      (smallState 6 [3#64] []).argI32 .F 0 ≤ (smallState 6 [3#64] []).cfg.maxVertices) ∧
    (isFinite ((smallState 6 [3#64] [0#64, 0#64, 0#64, 0#64, 0#64, 0x7FF0000000000000#64]).cell .F 5) = false) ∧
    flt fZero ((smallState 6 [3#64] [0#64, 0#64, fOne, fOne, fTwo, fTwo]).fanSum .F 1) = false ∧
    ((∀ j : Fin 6, isFinite ((smallState 6 [3#64] [0#64, 0#64, fOne, 0#64, 0#64, fOne]).cell .F j.val) = true) ∧
      flt fZero ((smallState 6 [3#64] [0#64, 0#64, fOne, 0#64, 0#64, fOne]).fanSum .F 1) = true ∧
      isFinite ((smallState 6 [3#64] [0#64, 0#64, fOne, 0#64, 0#64, fOne]).fanSum .F 1) = true) ∧
    (flt (fmul ((fState [4#64] square).uniformAt .F 0) ((fState [4#64] square).fanSum .F 2))
        ((fState [4#64] square).fanSum .F 1) = false ∧
      flt (fmul ((fState [4#64] square).uniformAt .F 0) ((fState [4#64] square).fanSum .F 2))
        ((fState [4#64] square).fanSum .F 2) = true) := by decide +kernel

/-- Radius 0; all candidates rejected; and the last candidate allowed accepted. -/
theorem witness_BallRejectionSamples :
    isFinite ((fState [0x7FF0000000000000#64] []).argF64 .F 0) = false ∧
    fle ((fState [] []).argF64 .F 3) fZero = true ∧ flt fZero ((fState [0#64, 0#64, 0#64, 1#64] []).argF64 .F 3) = true ∧
    (∀ i : Fin 8, isFinite ((fState [0#64, 0#64, 0#64, 1#64] []).argF64 .F i) = true) ∧
    (∀ i : Fin 1, (stuckSource [0#64, 0#64, 0#64, fOne] 1).ballAccepts .F i.val = false) ∧
    (0 < 1 ∧ ({ fState [0#64, 0#64, 0#64, fOne] [] with cfg := { referenceCfg with retryCap := 1 } } : State).ballAccepts
      .F 0 = true) := by decide +kernel

/-- Radius 0; all candidates rejected; and the last candidate allowed accepted. -/
theorem witness_DiskRejectionSamples :
    isFinite ((fState [0x7FF0000000000000#64] []).argF64 .F 0) = false ∧
    fle ((fState [] []).argF64 .F 3) fZero = true ∧ flt fZero ((fState [0#64, 0#64, 0#64, 1#64] []).argF64 .F 3) = true ∧
    (∀ i : Fin 8, isFinite ((fState [0#64, 0#64, 0#64, 1#64] []).argF64 .F i) = true) ∧
    (∀ i : Fin 1, flt ((stuckSource [0#64, 0#64, 0#64, fOne] 1).diskNorm .F i.val) fOne = false) ∧
    (0 < 1 ∧ flt (({ fState [0#64, 0#64, 0#64, fOne] [] with cfg := { referenceCfg with retryCap := 1 } } : State).diskNorm
      .F 0) fOne = true) := by decide +kernel

/-- No action, a write, a read, and an idle channel; register numbers at the ends of the reserved ranges. -/
theorem witness_HostReadsAndWrites :
    (fState [] []).host = [] ∧
    (hosted (.write .F (.buf 1023) 7#64)).host = .write .F (.buf 1023) 7#64 :: [] ∧
    (hosted (.read .F (.reg 0x13))).host = .read .F (.reg 0x13) :: [] ∧ ((fState [] []).port .F).busy = false ∧
    (∀ n ∈ [2, 7, 0x14], (2 ≤ n ∧ n < 0x08) ∨ 0x14 ≤ n) ∧ (∀ n ∈ [1, 7, 0x10], (1 ≤ n ∧ n < 0x08) ∨ 0x10 ≤ n) := by
  decide

theorem witness_BusyHostAccessRefused :
    ((busyHosted (.write .F (.reg 0) 1#64)).port .F).busy = true ∧
    (busyHosted (.write .F (.reg 0) 1#64)).host = .write .F (.reg 0) 1#64 :: [] ∧
    ((busyHosted (.read .F (.reg 1))).port .F).busy = true ∧
    (busyHosted (.read .F (.reg 1))).host = .read .F (.reg 1) :: [] := by decide

/-- A busy channel while the other takes a command, and while reset is given. -/
theorem witness_BusyChannelStaysUntilReset :
    (((busyHosted (.write .S (.reg 0) 2#64)).port .F).busy = true ∧
      (∃ t, step (busyHosted (.write .S (.reg 0) 4#64)) = .next t) ∧
      (∀ rest, (busyHosted (.write .S (.reg 0) 4#64)).host ≠ .reset :: rest)) ∧
    (((busyHosted .reset).port .F).busy = true ∧ (∃ t, step (busyHosted .reset) = .next t) ∧
      ∃ rest, (busyHosted .reset).host = .reset :: rest) :=
  ⟨⟨by decide, ⟨_, rfl⟩, fun _ h => by cases h⟩, by decide, ⟨_, rfl⟩, _, rfl⟩

end Sys2Proof.Tests
end

section
/-! SUPPORT. Binary64 patterns as a sign and a magnitude: the three classes, the value in units and its order
(00_scope.md R11, R13). -/

namespace Sys2Proof.Machine

/-! ### The sign and the magnitude of a pattern -/

theorem magBits_lt (x : F64) : magBits x < 2 ^ 63 := Nat.mod_lt _ (by decide)

theorem infMag_lt : infMag < 2 ^ 63 := by decide

/-- Every magnitude in range, for each sign, is that of a pattern; `packFloat` builds it. -/
theorem toNat_packFloat (s : Bool) {m : Nat} (hm : m < 2 ^ 63) :
    (packFloat s m).toNat = (if s then 2 ^ 63 else 0) + m := by
  rw [packFloat, BitVec.toNat_ofNat, Nat.mod_eq_of_lt]
  split <;> omega

theorem signBit_packFloat (s : Bool) {m : Nat} (hm : m < 2 ^ 63) : signBit (packFloat s m) = s := by
  rw [signBit, BitVec.msb_eq_decide, toNat_packFloat s hm]
  cases s
  · simpa using hm
  · simp

theorem magBits_packFloat (s : Bool) {m : Nat} (hm : m < 2 ^ 63) : magBits (packFloat s m) = m := by
  rw [magBits, toNat_packFloat s hm]
  split <;> omega

/-- A pattern is its sign and its magnitude. -/
theorem packFloat_signBit_magBits (x : F64) : packFloat (signBit x) (magBits x) = x := by
  apply BitVec.eq_of_toNat_eq
  rw [toNat_packFloat _ (magBits_lt x), signBit, BitVec.msb_eq_decide, magBits]
  have hx := x.isLt
  simp only [decide_eq_true_eq]
  split <;> omega

theorem expField_eq (x : F64) : expField x = magBits x / 2 ^ 52 := by
  rw [expField, magBits, BitVec.extractLsb'_toNat, Nat.shiftRight_eq_div_pow]
  omega

theorem fracField_eq (x : F64) : fracField x = magBits x % 2 ^ 52 := by
  rw [fracField, magBits, BitVec.extractLsb'_toNat, Nat.shiftRight_zero]
  omega

/-! ### The three classes -/

theorem isFinite_iff {x : F64} : isFinite x = true ↔ magBits x < infMag := by
  have := magBits_lt x
  rw [isFinite, decide_eq_true_eq, expField_eq, infMag]
  omega

theorem isInf_iff {x : F64} : isInf x = true ↔ magBits x = infMag := by
  rw [isInf, Bool.and_eq_true, decide_eq_true_eq, decide_eq_true_eq, expField_eq, fracField_eq, infMag]
  omega

theorem isNaN_iff {x : F64} : isNaN x = true ↔ infMag < magBits x := by
  have := magBits_lt x
  rw [isNaN, Bool.and_eq_true, decide_eq_true_eq, decide_eq_true_eq, expField_eq, fracField_eq, infMag]
  omega

theorem isNaN_of_isFinite {x : F64} (h : isFinite x = true) : isNaN x = false :=
  Bool.eq_false_iff.2 fun hn => Nat.lt_asymm (isFinite_iff.1 h) (isNaN_iff.1 hn)

theorem isInf_of_isFinite {x : F64} (h : isFinite x = true) : isInf x = false :=
  Bool.eq_false_iff.2 fun hi => (isFinite_iff.1 h).ne (isInf_iff.1 hi)

theorem isNaN_of_isInf {x : F64} (h : isInf x = true) : isNaN x = false :=
  Bool.eq_false_iff.2 fun hn => (isNaN_iff.1 hn).ne' (isInf_iff.1 h)

theorem isNaN_someNaN : isNaN someNaN = true := by decide

/-! ### Changing the sign -/

@[simp] theorem signBit_fneg (x : F64) : signBit (fneg x) = !signBit x := by
  simp [signBit, fneg, BitVec.msb_xor, show (0x8000000000000000#64).msb = true by decide]

@[simp] theorem magBits_fneg (x : F64) : magBits (fneg x) = magBits x := by
  rw [magBits, magBits, fneg, BitVec.toNat_xor, Nat.xor_mod_two_pow]
  exact Nat.xor_zero _

@[simp] theorem signBit_fabs (x : F64) : signBit (fabs x) = false := by
  simp [signBit, fabs, BitVec.msb_and, show (0x7FFFFFFFFFFFFFFF#64).msb = false by decide]

@[simp] theorem magBits_fabs (x : F64) : magBits (fabs x) = magBits x := by
  rw [magBits, fabs, BitVec.toNat_and, magBits]
  exact (congrArg (· % 2 ^ 63) (Nat.and_two_pow_sub_one_eq_mod x.toNat 63)).trans (Nat.mod_mod _ _)

theorem isNaN_fneg (x : F64) : isNaN (fneg x) = isNaN x := by
  rw [Bool.eq_iff_iff, isNaN_iff, isNaN_iff, magBits_fneg]

theorem isInf_fneg (x : F64) : isInf (fneg x) = isInf x := by
  rw [Bool.eq_iff_iff, isInf_iff, isInf_iff, magBits_fneg]

theorem isFinite_fneg (x : F64) : isFinite (fneg x) = isFinite x := by
  rw [Bool.eq_iff_iff, isFinite_iff, isFinite_iff, magBits_fneg]

/-! ### The value in units -/

/-- The factor a sign bit stands for. -/
def signOf (s : Bool) : Int := if s then -1 else 1

theorem units_eq (x : F64) : units x = signOf (signBit x) * magUnits (magBits x) := by
  rw [units, signOf]; split <;> simp

theorem signOf_not (s : Bool) : signOf (!s) = -signOf s := by cases s <;> rfl

theorem signOf_bne (s t : Bool) : signOf (s != t) = signOf s * signOf t := by cases s <;> cases t <;> rfl

theorem natAbs_signOf_mul (s : Bool) (n : Nat) : (signOf s * n).natAbs = n := by cases s <;> simp [signOf]

theorem natAbs_units (x : F64) : (units x).natAbs = magUnits (magBits x) := by rw [units_eq, natAbs_signOf_mul]

theorem units_packFloat (s : Bool) {m : Nat} (hm : m < 2 ^ 63) : units (packFloat s m) = signOf s * magUnits m := by
  rw [units_eq, signBit_packFloat s hm, magBits_packFloat s hm]

theorem units_fneg (x : F64) : units (fneg x) = -units x := by
  rw [units_eq, units_eq, signBit_fneg, magBits_fneg, signOf_not, neg_mul]

theorem magUnits_subnormal {m : Nat} (h : m < 2 ^ 52) : magUnits m = m := by
  rw [magUnits, if_pos (Nat.div_eq_of_lt h)]

/-- A magnitude with exponent field `k + 1` and fraction `f`. -/
theorem magUnits_normal (k : Nat) {f : Nat} (hf : f < 2 ^ 52) :
    magUnits ((k + 1) * 2 ^ 52 + f) = (2 ^ 52 + f) * 2 ^ k := by
  have hdiv : ((k + 1) * 2 ^ 52 + f) / 2 ^ 52 = k + 1 := by omega
  have hmod : ((k + 1) * 2 ^ 52 + f) % 2 ^ 52 = f := by omega
  rw [magUnits, hdiv, hmod, if_neg k.succ_ne_zero, Nat.add_sub_cancel]

/-- Magnitudes are subnormal or normal. -/
theorem magnitude_cases (m : Nat) : m < 2 ^ 52 ∨ ∃ k f, f < 2 ^ 52 ∧ m = (k + 1) * 2 ^ 52 + f := by
  by_cases h : m < 2 ^ 52
  · exact .inl h
  · exact .inr ⟨m / 2 ^ 52 - 1, m % 2 ^ 52, Nat.mod_lt _ (by decide), by omega⟩

/-- With `k` above the exponent's offset, `k * 2^52 + e` is the magnitude of `e * 2^k` units; `e = 2^53` carries into
the exponent. -/
theorem magUnits_scaled {k e : Nat} (he : e ≤ 2 ^ 53) (hk : k = 0 ∨ 2 ^ 52 ≤ e) :
    magUnits (k * 2 ^ 52 + e) = e * 2 ^ k := by
  by_cases hsub : e < 2 ^ 52
  · obtain rfl : k = 0 := by omega
    simpa using magUnits_subnormal hsub
  obtain ⟨f, rfl⟩ : ∃ f, e = 2 ^ 52 + f := ⟨e - 2 ^ 52, by omega⟩
  by_cases hf : f < 2 ^ 52
  · rw [show k * 2 ^ 52 + (2 ^ 52 + f) = (k + 1) * 2 ^ 52 + f by ring, magUnits_normal k hf]
  · obtain rfl : f = 2 ^ 52 := by omega
    rw [show k * 2 ^ 52 + (2 ^ 52 + 2 ^ 52) = (k + 1 + 1) * 2 ^ 52 + 0 by ring, magUnits_normal (k + 1) (by decide)]
    ring

theorem magUnits_strictMono : StrictMono magUnits := by
  refine strictMono_nat_of_lt_succ fun m => ?_
  obtain h | ⟨k, f, hf, rfl⟩ := magnitude_cases m
  · have hs : magUnits (m + 1) = m + 1 := by simpa using magUnits_scaled (k := 0) (e := m + 1) (by omega) (.inl rfl)
    rw [magUnits_subnormal h, hs]
    exact Nat.lt_succ_self m
  · have hs : magUnits ((k + 1) * 2 ^ 52 + f + 1) = (2 ^ 52 + f + 1) * 2 ^ k := by
      have h := magUnits_scaled (k := k) (e := 2 ^ 52 + f + 1) (by omega) (.inr (by omega))
      rwa [show k * 2 ^ 52 + (2 ^ 52 + f + 1) = (k + 1) * 2 ^ 52 + f + 1 by ring] at h
    rw [magUnits_normal k hf, hs]
    exact Nat.mul_lt_mul_of_pos_right (Nat.lt_succ_self _) (Nat.two_pow_pos k)

theorem magUnits_eq_zero {m : Nat} : magUnits m = 0 ↔ m = 0 := by
  have h0 : magUnits 0 = 0 := magUnits_subnormal (Nat.two_pow_pos 52)
  exact ⟨fun h => magUnits_strictMono.injective (h.trans h0.symm), fun h => h ▸ h0⟩

theorem units_eq_zero {x : F64} : units x = 0 ↔ magBits x = 0 := by
  rw [← Int.natAbs_eq_zero, natAbs_units, magUnits_eq_zero]

/-! ### The order of values -/

/-- The value in units of the patterns at place `z` of the order. -/
def unitsOfKey (z : Int) : Int := z.sign * magUnits z.natAbs

theorem unitsOfKey_natCast (m : Nat) : unitsOfKey m = magUnits m := by
  cases m with
  | zero => simp [unitsOfKey, magUnits_eq_zero.2]
  | succ m => rw [unitsOfKey, Int.natAbs_natCast, Int.sign_natCast_of_ne_zero m.succ_ne_zero, one_mul]

theorem unitsOfKey_neg (z : Int) : unitsOfKey (-z) = -unitsOfKey z := by
  rw [unitsOfKey, unitsOfKey, Int.sign_neg, Int.natAbs_neg, neg_mul]

theorem unitsOfKey_strictMono : StrictMono unitsOfKey := by
  refine strictMono_of_odd_strictMonoOn_nonneg unitsOfKey_neg fun y hy z hz hyz => ?_
  lift y to Nat using hy
  lift z to Nat using hz
  rw [unitsOfKey_natCast, unitsOfKey_natCast]
  exact_mod_cast magUnits_strictMono (by exact_mod_cast hyz)

theorem units_eq_unitsOfKey (x : F64) : units x = unitsOfKey (orderKey x) := by
  rw [units, orderKey]
  split
  · rw [unitsOfKey_neg, unitsOfKey_natCast]
  · rw [unitsOfKey_natCast]

theorem flt_iff {a b : F64} (ha : isNaN a = false) (hb : isNaN b = false) : flt a b = true ↔ units a < units b := by
  rw [units_eq_unitsOfKey, units_eq_unitsOfKey, unitsOfKey_strictMono.lt_iff_lt]
  simp [flt, ha, hb]

theorem fle_iff {a b : F64} (ha : isNaN a = false) (hb : isNaN b = false) : fle a b = true ↔ units a ≤ units b := by
  rw [units_eq_unitsOfKey, units_eq_unitsOfKey, unitsOfKey_strictMono.le_iff_le]
  simp [fle, ha, hb]

theorem feq_iff {a b : F64} (ha : isNaN a = false) (hb : isNaN b = false) : feq a b = true ↔ units a = units b := by
  rw [units_eq_unitsOfKey, units_eq_unitsOfKey, unitsOfKey_strictMono.injective.eq_iff]
  simp [feq, ha, hb]

/-- Every comparison with a NaN is false (00_scope.md R13). -/
theorem compare_of_isNaN {a b : F64} (h : (isNaN a || isNaN b) = true) :
    flt a b = false ∧ fle a b = false ∧ feq a b = false := by
  obtain h | h := Bool.or_eq_true_iff.1 h <;> simp [flt, fle, feq, h]

end Sys2Proof.Machine
end

section
/-! SUPPORT. What the rounding of the model finds: the binade, the number of last places, the nearest float
(00_scope.md R12). -/

namespace Sys2Proof.Machine

/-! ### Rounding to a whole number -/

/-- `e` is the whole number nearest to `t`, of two equally near ones the even one. -/
def HalfEven (t : ℝ) (e : Nat) : Prop := |(e : ℝ) - t| ≤ 1 / 2 ∧ (|(e : ℝ) - t| = 1 / 2 → e % 2 = 0)

theorem roundEven_halfEven (p : Nat) {d : Nat} (hd : 0 < d) : HalfEven ((p : ℝ) / d) (roundEven p d) := by
  have hd' : (0 : ℝ) < d := by exact_mod_cast hd
  have ht : (p : ℝ) / d = (p / d : Nat) + (p % d : Nat) / (d : ℝ) := by
    rw [div_eq_iff hd'.ne', add_mul, div_mul_cancel₀ _ hd'.ne']
    exact_mod_cast (Nat.div_add_mod' p d).symm
  rw [HalfEven, ht, roundEven]
  have hle : ((p % d : Nat) : ℝ) / d ≤ 1 / 2 ↔ p % d * 2 ≤ d := by
    rw [div_le_div_iff₀ hd' two_pos, one_mul]; exact_mod_cast Iff.rfl
  have heq : ((p % d : Nat) : ℝ) / d = 1 / 2 ↔ p % d * 2 = d := by
    rw [div_eq_div_iff hd'.ne' two_ne_zero, one_mul]; exact_mod_cast Iff.rfl
  have hpos : 0 ≤ ((p % d : Nat) : ℝ) / d := by positivity
  have hlt : ((p % d : Nat) : ℝ) / d < 1 := (div_lt_one hd').2 (by exact_mod_cast Nat.mod_lt p hd)
  generalize ((p % d : Nat) : ℝ) / d = f at hle heq hpos hlt ⊢
  split
  next hup =>
    have hhalf : 1 / 2 ≤ f := by
      by_contra hbelow
      have hne := mt heq.2 (not_le.1 hbelow).ne
      have := hle.1 (not_le.1 hbelow).le
      omega
    rw [Nat.cast_succ, add_sub_add_left_eq_sub, abs_of_pos (by linarith)]
    refine ⟨by linarith, fun htie => ?_⟩
    have := heq.1 (by linarith)
    omega
  next hdown =>
    rw [sub_add_cancel_left, abs_neg, abs_of_nonneg hpos]
    refine ⟨hle.2 (by omega), fun htie => ?_⟩
    have := heq.1 htie
    omega

/-- A whole number rounds to itself. -/
theorem HalfEven.eq_of_natCast {n e : Nat} (h : HalfEven n e) : e = n := by
  obtain ⟨hnear, -⟩ := h
  have : |(e : Int) - n| < 1 := by
    have : |(e : ℝ) - n| < 1 := hnear.trans_lt (by norm_num)
    exact_mod_cast this
  have := Int.abs_lt_one_iff.1 this
  omega

/-- No whole number is nearer than the rounded one, and another is as near only where the rounded one is even. -/
theorem HalfEven.nearest {t : ℝ} {e : Nat} (h : HalfEven t e) (b : Int) :
    |(e : ℝ) - t| ≤ |(b : ℝ) - t| ∧ (|(e : ℝ) - t| = |(b : ℝ) - t| → b ≠ e → e % 2 = 0) := by
  obtain ⟨hnear, heven⟩ := h
  by_cases hb : b = e
  · subst hb
    exact ⟨by simp, fun _ hne => absurd rfl hne⟩
  have hgap : (1 : ℝ) ≤ |(b : ℝ) - e| := by
    exact_mod_cast Int.one_le_abs (sub_ne_zero.2 hb)
  have htri : |(b : ℝ) - e| ≤ |(b : ℝ) - t| + |(e : ℝ) - t| := abs_sub_comm (e : ℝ) t ▸ abs_sub_le _ _ _
  exact ⟨by linarith, fun htie _ => heven (by linarith)⟩

/-! ### The binade -/

/-- The last place of the floats around `x` units is worth `2^k` units: `x` has at most 53 bits above it, and exactly
53 unless that place is one unit (00_scope.md R11). -/
def LastPlace (x : ℝ) (k : Nat) : Prop := x < 2 ^ (53 + k) ∧ (k = 0 ∨ (2 : ℝ) ^ (52 + k) ≤ x)

/-- Only the whole part of `x` decides the binade. -/
theorem lastPlace_iff_floor {x : ℝ} (hx : 0 ≤ x) (k : Nat) :
    LastPlace x k ↔ ⌊x⌋₊ < 2 ^ (53 + k) ∧ (k = 0 ∨ 2 ^ (52 + k) ≤ ⌊x⌋₊) := by
  rw [LastPlace, Nat.floor_lt hx, Nat.le_floor_iff hx]
  push_cast
  rfl

theorem roundScale_lastPlace (p q : Nat) : LastPlace ((p : ℝ) / q) (roundScale p q) := by
  rw [lastPlace_iff_floor (by positivity), Nat.floor_div_eq_div, roundScale]
  split
  next h => exact ⟨h, .inl rfl⟩
  next h =>
    have hne : p / q ≠ 0 := by omega
    have hlog : 53 ≤ (p / q).log2 := (Nat.le_log2 hne).2 (by omega)
    rw [show 53 + ((p / q).log2 - 52) = (p / q).log2 + 1 by omega,
      show 52 + ((p / q).log2 - 52) = (p / q).log2 by omega]
    exact ⟨Nat.lt_log2_self, .inr (Nat.log2_self_le hne)⟩

/-- Every float is a multiple of the last place `2^k`, or lies below the numbers that have 53 bits above it. -/
theorem dvd_magUnits_or_lt (k m : Nat) : 2 ^ k ∣ magUnits m ∨ magUnits m < 2 ^ (52 + k) := by
  obtain h | ⟨j, f, hf, rfl⟩ := magnitude_cases m
  · rw [magUnits_subnormal h]
    exact .inr (h.trans_le (Nat.pow_le_pow_right two_pos (by omega)))
  · rw [magUnits_normal j hf]
    obtain hkj | hjk := le_or_gt k j
    · exact .inl ((pow_dvd_pow 2 hkj).mul_left _)
    · refine .inr ?_
      calc (2 ^ 52 + f) * 2 ^ j < 2 ^ 53 * 2 ^ j := Nat.mul_lt_mul_of_pos_right (by omega) (Nat.two_pow_pos j)
        _ = 2 ^ (53 + j) := (pow_add 2 53 j).symm
        _ ≤ 2 ^ (52 + k) := Nat.pow_le_pow_right two_pos (by omega)

theorem dvd_units_or_lt (k : Nat) (y : F64) : (2 : Int) ^ k ∣ units y ∨ units y < 2 ^ (52 + k) := by
  obtain h | h := dvd_magUnits_or_lt k (magBits y)
  · left
    rw [units_eq]
    exact (by exact_mod_cast h : (2 : Int) ^ k ∣ magUnits (magBits y)).mul_left _
  · right
    have hle : units y ≤ magUnits (magBits y) := natAbs_units y ▸ Int.le_natAbs
    exact hle.trans_lt (by exact_mod_cast h)

/-! ### Rounding to a float -/

/-- `e` last places of `2^k` units each are what `x` rounds to, the exponent range left aside. -/
structure RoundsTo (x : ℝ) (k e : Nat) : Prop where
  lastPlace : LastPlace x k
  halfEven : HalfEven (x / 2 ^ k) e

/-- The model rounds in the binade of the exact value. -/
theorem roundMag_roundsTo (p : Nat) {q : Nat} (hq : 0 < q) :
    ∃ k e, RoundsTo ((p : ℝ) / q) k e ∧ roundMag p q = min infMag (k * 2 ^ 52 + e) := by
  refine ⟨roundScale p q, roundEven p (q * 2 ^ roundScale p q), ⟨roundScale_lastPlace p q, ?_⟩, ?_⟩
  · have h := roundEven_halfEven p (Nat.mul_pos hq (Nat.two_pow_pos (roundScale p q)))
    rw [div_div]
    exact_mod_cast h
  · rw [roundMag, min_def]

namespace RoundsTo

variable {x : ℝ} {k e : Nat}

theorem scaled_lt (h : RoundsTo x k e) : x / 2 ^ k < 2 ^ 53 := by
  rw [div_lt_iff₀ (by positivity), ← pow_add]
  exact h.lastPlace.1

theorem le_scaled (h : RoundsTo x k e) : k = 0 ∨ (2 : ℝ) ^ 52 ≤ x / 2 ^ k := by
  rw [le_div_iff₀ (by positivity), ← pow_add]
  exact h.lastPlace.2

/-- Rounding up to `2^53` last places is possible, to more is not. -/
theorem le (h : RoundsTo x k e) : e ≤ 2 ^ 53 := by
  have hnear := abs_le.1 h.halfEven.1
  have hlt : (e : ℝ) < 2 ^ 53 + 1 := by linarith [h.scaled_lt]
  exact Nat.lt_succ_iff.1 (by exact_mod_cast hlt)

theorem normal (h : RoundsTo x k e) : k = 0 ∨ 2 ^ 52 ≤ e := by
  refine h.le_scaled.imp_right fun hx => ?_
  have hnear := abs_le.1 h.halfEven.1
  have hlt : (2 : ℝ) ^ 52 < e + 1 := by linarith
  exact Nat.lt_succ_iff.1 (by exact_mod_cast hlt)

theorem magUnits_eq (h : RoundsTo x k e) : magUnits (k * 2 ^ 52 + e) = e * 2 ^ k := magUnits_scaled h.le h.normal

/-- The rounded magnitude reaches that of an infinity exactly from `2^1024 - 2^970` on (00_scope.md R12). -/
theorem overflows_iff (h : RoundsTo x k e) : infMag ≤ k * 2 ^ 52 + e ↔ overflowUnits ≤ x := by
  have hle := h.le
  obtain ⟨hhalf, heven⟩ := h.halfEven
  have hnear := abs_le.1 hhalf
  obtain hk | rfl | hk := lt_trichotomy k 2045
  · have hx : x < overflowUnits :=
      calc x < 2 ^ (53 + k) := h.lastPlace.1
        _ ≤ 2 ^ (53 + 2044) := pow_le_pow_right₀ one_le_two (by omega)
        _ = 2 ^ 53 * 2 ^ 2044 := pow_add _ _ _
        _ ≤ overflowUnits := mul_le_mul_of_nonneg_right (by norm_num) (by positivity)
    exact iff_of_false (by rw [infMag]; omega) hx.not_ge
  · have hover : overflowUnits = (2 ^ 53 - 1 / 2) * 2 ^ 2045 := by
      rw [overflowUnits, pow_succ (2 : ℝ) 2044, ← mul_assoc, mul_right_comm]
      exact congrArg (· * _) (by norm_num)
    rw [hover, ← le_div_iff₀ (by positivity)]
    generalize x / 2 ^ 2045 = t at hnear heven ⊢
    constructor
    · intro hinf
      rw [infMag] at hinf
      have he : (2 : ℝ) ^ 53 ≤ e := by exact_mod_cast (by omega : 2 ^ 53 ≤ e)
      linarith
    · intro hx
      suffices he : 2 ^ 53 ≤ e by rw [infMag]; omega
      by_contra hlt
      have he : (e : ℝ) ≤ 2 ^ 53 - 1 := by
        have : (e : ℝ) + 1 ≤ 2 ^ 53 := by exact_mod_cast (by omega : e + 1 ≤ 2 ^ 53)
        linarith
      have heq : (e : ℝ) = 2 ^ 53 - 1 := by linarith
      have := heven (by rw [abs_of_nonpos] <;> linarith)
      have : e + 1 = 2 ^ 53 := by exact_mod_cast (by linarith : (e : ℝ) + 1 = 2 ^ 53)
      omega
  · have hk0 : k ≠ 0 := by omega
    have hx : overflowUnits ≤ x :=
      calc overflowUnits ≤ 2 ^ 54 * 2 ^ 2044 := mul_le_mul_of_nonneg_right (by norm_num) (by positivity)
        _ = 2 ^ (54 + 2044) := (pow_add _ _ _).symm
        _ ≤ 2 ^ (52 + k) := pow_le_pow_right₀ one_le_two (by omega)
        _ ≤ x := h.lastPlace.2.resolve_left hk0
    have he := h.normal.resolve_left hk0
    exact iff_of_true (by rw [infMag]; omega) hx

/-- Among the multiples of the last place none is nearer, and another is as near only where `e` is even. -/
theorem nearest_multiple (h : RoundsTo x k e) (b : Int) :
    |(e : ℝ) * 2 ^ k - x| ≤ |(b : ℝ) * 2 ^ k - x| ∧
    (|(e : ℝ) * 2 ^ k - x| = |(b : ℝ) * 2 ^ k - x| → b ≠ e → e % 2 = 0) := by
  have hpos : (0 : ℝ) < 2 ^ k := by positivity
  have hscale (z : ℝ) : |z * 2 ^ k - x| = |z - x / 2 ^ k| * 2 ^ k := by
    rw [← abs_of_pos hpos, ← abs_mul, abs_of_pos hpos, sub_mul, div_mul_cancel₀ _ hpos.ne']
  rw [hscale, hscale, mul_le_mul_iff_left₀ hpos, mul_left_inj' hpos.ne']
  exact h.halfEven.nearest b

/-- Among the values of all floats none is nearer, and another is as near only where `e` is even. -/
theorem nearest_units (h : RoundsTo x k e) (y : F64) :
    |(e : ℝ) * 2 ^ k - x| ≤ |(units y : ℝ) - x| ∧
    (|(e : ℝ) * 2 ^ k - x| = |(units y : ℝ) - x| → units y ≠ e * 2 ^ k → e % 2 = 0) := by
  by_cases hdvd : (2 : Int) ^ k ∣ units y
  · obtain ⟨b, hb⟩ := hdvd
    have hcast : (units y : ℝ) = b * 2 ^ k := by rw [hb, mul_comm]; push_cast; rfl
    rw [hcast]
    refine (h.nearest_multiple b).imp_right fun htie heq hne => htie heq ?_
    rintro rfl
    exact hne (by rw [hb, mul_comm])
  · -- `y` lies below the binade of `x`, whose least number `2^(52 + k)` is a multiple and nearer than `y`.
    have hlt : (units y : ℝ) < 2 ^ (52 + k) := by exact_mod_cast (dvd_units_or_lt k y).resolve_left hdvd
    have hk : k ≠ 0 := by
      rintro rfl
      exact hdvd (by simp)
    have hx := h.lastPlace.2.resolve_left hk
    have hleast := (h.nearest_multiple (2 ^ 52)).1
    rw [Int.cast_pow, Int.cast_ofNat, ← pow_add, abs_of_nonpos (by linarith : (2 : ℝ) ^ (52 + k) - x ≤ 0)] at hleast
    rw [abs_of_nonpos (by linarith : (units y : ℝ) - x ≤ 0)]
    exact ⟨by linarith, fun htie => by linarith⟩

end RoundsTo

end Sys2Proof.Machine
end

section
/-! PROOF. The five rounded operations on finite operands (00_scope.md R12). -/

namespace Sys2Proof.Machine

theorem abs_signOf_mul (s : Bool) (z : ℝ) : |(signOf s : ℝ) * z| = |z| := by cases s <;> simp [signOf]

theorem signOf_mul_self (s : Bool) (z : ℝ) : (signOf s : ℝ) * (signOf s * z) = z := by cases s <;> simp [signOf]

/-- The floats are closed under a change of sign. -/
theorem exists_units_eq_signOf_mul (s : Bool) (y : F64) : ∃ z : F64, units z = signOf s * units y := by
  cases s
  · exact ⟨y, (one_mul _).symm⟩
  · exact ⟨fneg y, by rw [units_fneg]; exact (neg_one_mul _).symm⟩

theorem getLsbD_packFloat_zero (s : Bool) {m : Nat} (hm : m < 2 ^ 63) (heven : m % 2 = 0) :
    (packFloat s m).getLsbD 0 = false := by
  rw [BitVec.getLsbD, Nat.testBit_zero, toNat_packFloat s hm]
  split <;> simp <;> omega

theorem roundMag_le (p q : Nat) : roundMag p q ≤ infMag := by
  rw [roundMag]
  split
  · exact le_rfl
  · omega

theorem roundMag_lt (p q : Nat) : roundMag p q < 2 ^ 63 := (roundMag_le p q).trans_lt infMag_lt

/-- The magnitude of `e` last places with a sign is the rounded result of the value of that sign. -/
theorem RoundsTo.rounds {x : ℝ} {k e : Nat} (h : RoundsTo x k e) (hx : 0 ≤ x) (s : Bool) :
    Rounds (signOf s * x) (packFloat s (min infMag (k * 2 ^ 52 + e))) := by
  rw [Rounds, abs_signOf_mul, abs_of_nonneg hx]
  constructor
  · intro hsmall
    have hm : k * 2 ^ 52 + e < infMag := not_le.1 (mt h.overflows_iff.1 hsmall.not_ge)
    have hm63 := hm.trans infMag_lt
    rw [min_eq_right hm.le, isFinite_iff, magBits_packFloat s hm63]
    refine ⟨hm, fun y _ => ?_⟩
    obtain ⟨z, hz⟩ := exists_units_eq_signOf_mul s y
    have hy : (units y : ℝ) = signOf s * units z := by rw [hz]; push_cast; rw [signOf_mul_self]
    have hr : (units (packFloat s (k * 2 ^ 52 + e)) : ℝ) = signOf s * (e * 2 ^ k) := by
      rw [units_packFloat s hm63, h.magUnits_eq]; push_cast; rfl
    rw [hy, hr, ← mul_sub, ← mul_sub, abs_signOf_mul, abs_signOf_mul]
    refine (h.nearest_units z).imp_right fun htie heq hne => ?_
    refine getLsbD_packFloat_zero s hm63 ?_
    have heven := htie heq fun hzr => hne ?_
    · omega
    · have : (units y : ℝ) = units (packFloat s (k * 2 ^ 52 + e)) := by rw [hy, hr, hzr]; push_cast; rfl
      exact_mod_cast this
  · intro hover
    have hpos : 0 < x := lt_of_lt_of_le (mul_pos (by norm_num) (by positivity)) hover
    rw [min_eq_left (h.overflows_iff.2 hover), isInf_iff, magBits_packFloat s infMag_lt, signBit_packFloat s infMag_lt]
    cases s <;> simp [signOf, hpos, hpos.le]

/-- The rounding of the model is correct (00_scope.md R12). -/
theorem rounds_roundMag (s : Bool) (p : Nat) {q : Nat} (hq : 0 < q) :
    Rounds (signOf s * ((p : ℝ) / q)) (packFloat s (roundMag p q)) := by
  obtain ⟨k, e, h, hmag⟩ := roundMag_roundsTo p hq
  exact hmag ▸ h.rounds (by positivity) s

theorem cast_two_pow (n : Nat) : ((2 ^ n : Nat) : ℝ) = 2 ^ n := by push_cast; rfl

theorem rounds_roundMag_two_pow (s : Bool) (p n : Nat) :
    Rounds (signOf s * ((p : ℝ) / 2 ^ n)) (packFloat s (roundMag p (2 ^ n))) :=
  cast_two_pow n ▸ rounds_roundMag s p (Nat.two_pow_pos n)

theorem roundMag_zero : roundMag 0 1 = 0 := by decide

/-! ### The operations on finite operands -/

/-- The sign of a sum is that of the exact value; of a zero sum it is negative for two negative zeros. -/
theorem fadd_of_isFinite {a b : F64} (ha : isFinite a = true) (hb : isFinite b = true) :
    fadd a b = if units a + units b = 0 then packFloat (signBit a && signBit b) 0
      else packFloat (decide (units a + units b < 0)) (roundMag (units a + units b).natAbs 1) := by
  simp [fadd, isNaN_of_isFinite ha, isNaN_of_isFinite hb, isInf_of_isFinite ha, isInf_of_isFinite hb]

theorem fmul_of_isFinite {a b : F64} (ha : isFinite a = true) (hb : isFinite b = true) :
    fmul a b = packFloat (signBit a != signBit b) (roundMag ((units a).natAbs * (units b).natAbs) (2 ^ 1074)) := by
  rw [fmul, isNaN_of_isFinite ha, isNaN_of_isFinite hb, isInf_of_isFinite ha, isInf_of_isFinite hb]
  rfl

theorem fdiv_of_isFinite {a b : F64} (ha : isFinite a = true) (hb : isFinite b = true) (hb0 : units b ≠ 0) :
    fdiv a b = packFloat (signBit a != signBit b) (roundMag ((units a).natAbs * 2 ^ 1074) (units b).natAbs) := by
  rw [fdiv, isNaN_of_isFinite ha, isNaN_of_isFinite hb, isInf_of_isFinite ha, isInf_of_isFinite hb,
    if_neg (mt units_eq_zero.2 hb0)]
  rfl

/-- Of a whole number written as a sign and a magnitude. -/
theorem int_cast_eq_signOf_mul (n : Int) : (n : ℝ) = signOf (decide (n < 0)) * (n.natAbs : ℝ) := by
  rw [Nat.cast_natAbs, Int.cast_abs]
  obtain h | h := lt_or_ge n 0
  · rw [abs_of_neg (by exact_mod_cast h)]
    simp [signOf, h]
  · rw [abs_of_nonneg (by exact_mod_cast h)]
    simp [signOf, h.not_gt]

theorem units_cast_eq_signOf_mul (a : F64) : (units a : ℝ) = signOf (signBit a) * ((units a).natAbs : ℝ) := by
  rw [natAbs_units, units_eq, Int.cast_mul, Int.cast_natCast]

theorem rounds_fadd {a b : F64} (ha : isFinite a = true) (hb : isFinite b = true) :
    Rounds ((units a : ℝ) + units b) (fadd a b) := by
  rw [fadd_of_isFinite ha hb, ← Int.cast_add]
  split
  next h0 =>
    have h := rounds_roundMag (signBit a && signBit b) 0 one_pos
    rw [roundMag_zero] at h
    simpa [h0] using h
  next h0 =>
    have h := rounds_roundMag (decide (units a + units b < 0)) (units a + units b).natAbs one_pos
    rwa [Nat.cast_one, div_one, ← int_cast_eq_signOf_mul] at h

theorem rounds_fsub {a b : F64} (ha : isFinite a = true) (hb : isFinite b = true) :
    Rounds ((units a : ℝ) - units b) (fsub a b) := by
  have h := rounds_fadd ha ((isFinite_fneg b).trans hb)
  rwa [units_fneg, Int.cast_neg, ← sub_eq_add_neg] at h

theorem rounds_fmul {a b : F64} (ha : isFinite a = true) (hb : isFinite b = true) :
    Rounds ((units a : ℝ) * units b / 2 ^ 1074) (fmul a b) := by
  have h := rounds_roundMag_two_pow (signBit a != signBit b) ((units a).natAbs * (units b).natAbs) 1074
  rw [fmul_of_isFinite ha hb]
  convert h using 1
  rw [units_cast_eq_signOf_mul a, units_cast_eq_signOf_mul b, signOf_bne,
    Int.cast_mul, Nat.cast_mul]
  generalize (2 : ℝ) ^ 1074 = z
  ring

theorem rounds_fdiv {a b : F64} (ha : isFinite a = true) (hb : isFinite b = true) (hb0 : units b ≠ 0) :
    Rounds ((units a : ℝ) / units b * 2 ^ 1074) (fdiv a b) := by
  have h := rounds_roundMag (signBit a != signBit b) ((units a).natAbs * 2 ^ 1074) (Int.natAbs_pos.2 hb0)
  rw [fdiv_of_isFinite ha hb hb0]
  convert h using 1
  rw [units_cast_eq_signOf_mul a, units_cast_eq_signOf_mul b, signOf_bne]
  have hinv : ((signOf (signBit b) : ℝ))⁻¹ = signOf (signBit b) := by cases signBit b <;> simp [signOf]
  rw [mul_div_mul_comm, div_eq_mul_inv (signOf _ : ℝ), hinv, Int.cast_mul,
    Nat.cast_mul, cast_two_pow]
  generalize (2 : ℝ) ^ 1074 = z
  ring

/-! ### The square root -/

/-- Newton's step does not pass below the root. -/
theorem sqrt_le_newton {n g : Nat} (hg : 0 < g) : n.sqrt ≤ (g + n / g) / 2 := by
  suffices h : 2 * n.sqrt - g ≤ n / g by omega
  rw [Nat.le_div_iff_mul_le hg]
  refine le_trans ?_ (Nat.sqrt_le n)
  obtain h | h := le_or_gt (2 * n.sqrt) g
  · simp [Nat.sub_eq_zero_of_le h]
  · zify [h.le]
    nlinarith [sq_nonneg ((n.sqrt : Int) - g)]

/-- From a guess above the root Newton's step at least halves the distance to it. -/
theorem newton_le {n g : Nat} (hg : n.sqrt < g) : (g + n / g) / 2 ≤ (g + n.sqrt) / 2 := by
  have hdiv : n / g < n.sqrt + 1 :=
    calc n / g ≤ n / (n.sqrt + 1) := Nat.div_le_div_left hg (Nat.succ_pos _)
      _ < n.sqrt + 1 := (Nat.div_lt_iff_lt_mul (Nat.succ_pos _)).2 (Nat.lt_succ_sqrt n)
  omega

/-- The fuel needs to cover the bits of the guess's distance to the root. -/
theorem isqrtFrom_eq_sqrt {n : Nat} (hn : 0 < n) (k : Nat) :
    ∀ g, n.sqrt ≤ g → g < n.sqrt + 2 ^ k → isqrtFrom n k g = n.sqrt := by
  induction k with
  | zero => intro g hlo hhi; rw [isqrtFrom]; omega
  | succ k ih =>
    intro g hlo hhi
    have hstep := sqrt_le_newton (n := n) ((Nat.sqrt_pos.2 hn).trans_le hlo)
    rw [isqrtFrom]
    obtain rfl | habove := hlo.eq_or_lt
    · rw [if_neg hstep.not_gt]
    · have hle := newton_le habove
      rw [if_pos (by omega)]
      exact ih _ hstep (by omega)

theorem isqrt_eq_sqrt (n : Nat) : isqrt n = n.sqrt := by
  rw [isqrt]
  split
  next h => interval_cases n <;> simp
  next h =>
    have hpow : n < (2 ^ (n.log2 / 2 + 1)) * (2 ^ (n.log2 / 2 + 1)) := by
      rw [← pow_add]
      exact Nat.lt_log2_self.trans_le (Nat.pow_le_pow_right two_pos (by omega))
    refine isqrtFrom_eq_sqrt (by omega) _ _ (Nat.sqrt_lt.2 hpow).le (Nat.lt_add_left _ ?_)
    exact Nat.pow_lt_pow_right one_lt_two (by omega)

/-- A half stands for any amount strictly between whole numbers, when the last place is worth more than one unit. -/
theorem RoundsTo.of_half {r k e : Nat} {x : ℝ} (h : RoundsTo (r + 1 / 2) k e) (hk : k ≠ 0) (hlo : r < x)
    (hhi : x < r + 1) : RoundsTo x k e := by
  have hr : (0 : ℝ) ≤ r := r.cast_nonneg
  constructor
  · have hfloor : ⌊(r : ℝ) + 1 / 2⌋₊ = ⌊x⌋₊ := by
      rw [(Nat.floor_eq_iff (by linarith)).2 ⟨hlo.le, hhi⟩, Nat.floor_eq_iff (by linarith)]
      constructor <;> linarith
    have := h.lastPlace
    rwa [lastPlace_iff_floor (by linarith), hfloor, ← lastPlace_iff_floor (by linarith)] at this
  · obtain ⟨j, rfl⟩ := Nat.exists_eq_succ_of_ne_zero hk
    have hpos : (0 : ℝ) < 2 ^ (j + 1) := by positivity
    have hscale (z : ℝ) : (e : ℝ) - z / 2 ^ (j + 1) = (e * 2 ^ (j + 1) - z) / 2 ^ (j + 1) := by
      rw [sub_div, mul_div_cancel_right₀ _ hpos.ne']
    have hhalf : (1 / 2 : ℝ) * 2 ^ (j + 1) = 2 ^ j := by rw [pow_succ]; ring
    have hnear := h.halfEven.1
    rw [hscale, abs_div, abs_of_pos hpos, div_le_iff₀ hpos, hhalf, abs_le] at hnear
    have hup : e * 2 ^ (j + 1) ≤ r + 2 ^ j := by
      have : (e * 2 ^ (j + 1) : ℝ) < r + 2 ^ j + 1 := by linarith
      exact Nat.lt_succ_iff.1 (by exact_mod_cast this)
    have hdown : r + 1 ≤ e * 2 ^ (j + 1) + 2 ^ j := by
      have : (r : ℝ) < e * 2 ^ (j + 1) + 2 ^ j := by linarith
      exact Nat.succ_le_iff.2 (by exact_mod_cast this)
    have hup' : (e * 2 ^ (j + 1) : ℝ) ≤ r + 2 ^ j := by exact_mod_cast hup
    have hdown' : (r : ℝ) + 1 ≤ e * 2 ^ (j + 1) + 2 ^ j := by exact_mod_cast hdown
    have hstrict : |(e : ℝ) - x / 2 ^ (j + 1)| < 1 / 2 := by
      rw [hscale, abs_div, abs_of_pos hpos, div_lt_iff₀ hpos, hhalf, abs_lt]
      constructor <;> linarith
    exact ⟨hstrict.le, fun htie => absurd htie hstrict.ne⟩

/-- The integer root with its sticky half rounds as the exact root does. -/
theorem rounds_sqrt {n : Nat} (hn : 2 ^ 106 ≤ n) :
    Rounds (Real.sqrt n) (packFloat false (roundMag (2 * n.sqrt + if n.sqrt * n.sqrt = n then 0 else 1) 2)) := by
  obtain ⟨k, e, h, hmag⟩ := roundMag_roundsTo (2 * n.sqrt + if n.sqrt * n.sqrt = n then 0 else 1) two_pos
  suffices hroot : RoundsTo (Real.sqrt n) k e by
    simpa [hmag, signOf] using hroot.rounds (Real.sqrt_nonneg _) false
  split at h
  next hsq =>
    have : Real.sqrt n = n.sqrt := by
      rw [Real.sqrt_eq_iff_mul_self_eq (by positivity) (by positivity)]
      exact_mod_cast hsq.symm
    rw [this]
    simpa using h
  next hsq =>
    have hhalf : ((2 * n.sqrt + 1 : Nat) : ℝ) / (2 : Nat) = n.sqrt + 1 / 2 := by push_cast; ring
    rw [hhalf] at h
    refine h.of_half ?_ ?_ ?_
    · rintro rfl
      have hroot : 2 ^ 53 ≤ n.sqrt := Nat.le_sqrt.2 (by rw [← pow_add]; exact hn)
      have : (2 : ℝ) ^ 53 ≤ n.sqrt := by exact_mod_cast hroot
      have := h.lastPlace.1
      rw [add_zero] at this
      linarith
    · rw [Real.lt_sqrt (by positivity)]
      exact_mod_cast (by rw [sq]; exact lt_of_le_of_ne (Nat.sqrt_le n) hsq : n.sqrt ^ 2 < n)
    · rw [Real.sqrt_lt' (by positivity)]
      exact_mod_cast Nat.lt_succ_sqrt' n

theorem fsqrt_of_units_eq_zero {a : F64} (h0 : units a = 0) : fsqrt a = a := by
  have hmag := units_eq_zero.1 h0
  have hn : isNaN a = false := isNaN_of_isFinite (isFinite_iff.2 (hmag ▸ by decide))
  simp [fsqrt, hn, hmag]

theorem signBit_of_units_pos {a : F64} (hpos : 0 < units a) : signBit a = false := by
  rw [units] at hpos
  split at hpos
  · omega
  · exact Bool.eq_false_iff.2 ‹_›

theorem fsqrt_of_units_pos {a : F64} (ha : isFinite a = true) (hpos : 0 < units a) {n : Nat}
    (hn : n = (units a).natAbs * 2 ^ 1074) :
    fsqrt a = packFloat false (roundMag (2 * n.sqrt + if n.sqrt * n.sqrt = n then 0 else 1) 2) := by
  rw [fsqrt, isNaN_of_isFinite ha, isInf_of_isFinite ha, signBit_of_units_pos hpos,
    if_neg (mt units_eq_zero.2 hpos.ne'), ← natAbs_units, ← hn, ← isqrt_eq_sqrt]
  rfl

theorem cast_mul_two_pow {z : Int} (hz : 0 ≤ z) (n : Nat) : (z : ℝ) * 2 ^ n = (z.natAbs * 2 ^ n : Nat) := by
  rw [Nat.cast_mul, Nat.cast_natAbs, abs_of_nonneg hz, cast_two_pow]

theorem two_pow_le_natAbs_mul {z : Int} (hz : 0 < z) {m n : Nat} (h : m ≤ n) : 2 ^ m ≤ z.natAbs * 2 ^ n :=
  (Nat.pow_le_pow_right two_pos h).trans (Nat.le_mul_of_pos_left _ (Int.natAbs_pos.2 hz.ne'))

theorem rounds_fsqrt {a : F64} (ha : isFinite a = true) (h0 : 0 ≤ units a) :
    Rounds (Real.sqrt ((units a : ℝ) * 2 ^ 1074)) (fsqrt a) := by
  obtain hz | hpos := h0.eq_or_lt
  · have hpack : packFloat (signBit a) 0 = a := units_eq_zero.1 hz.symm ▸ packFloat_signBit_magBits a
    have h := rounds_roundMag (signBit a) 0 one_pos
    rw [roundMag_zero, hpack] at h
    simpa [fsqrt_of_units_eq_zero hz.symm, ← hz] using h
  · rw [fsqrt_of_units_pos ha hpos rfl, cast_mul_two_pow hpos.le]
    exact rounds_sqrt (two_pow_le_natAbs_mul hpos (by decide))

end Sys2Proof.Machine

open Sys2Proof Sys2Proof.Machine

/-- Settles O5: each operation is `roundMag` of the magnitude of the exact value, under its sign; the square root keeps a
sticky half of what its integer root leaves over. -/
theorem floatOpsCorrectlyRounded : Obligations.FloatOpsCorrectlyRounded :=
  fun _ _ ha hb => ⟨rounds_fadd ha hb, rounds_fsub ha hb, rounds_fmul ha hb, rounds_fdiv ha hb, rounds_fsqrt ha⟩
end


section
/-! PROOF. Special operands of the float operations: NaNs, infinities, zeros and signs, and the comparisons
(00_scope.md R12, R13). -/

namespace Sys2Proof.Machine

section
variable {a b : F64}

/-! ### NaN operands -/

theorem fadd_of_isNaN (h : (isNaN a || isNaN b) = true) : fadd a b = someNaN := by rw [fadd, if_pos h]

theorem fsub_of_isNaN (h : (isNaN a || isNaN b) = true) : fsub a b = someNaN :=
  fadd_of_isNaN ((isNaN_fneg b).symm ▸ h)

theorem fmul_of_isNaN (h : (isNaN a || isNaN b) = true) : fmul a b = someNaN := by rw [fmul, if_pos h]

theorem fdiv_of_isNaN (h : (isNaN a || isNaN b) = true) : fdiv a b = someNaN := by rw [fdiv, if_pos h]

theorem fsqrt_of_isNaN (h : isNaN a = true) : fsqrt a = someNaN := by rw [fsqrt, if_pos h]

/-! ### Infinite operands -/

theorem fadd_of_isInf (ha : isInf a = true) (hb : isInf b = true) :
    fadd a b = if signBit a != signBit b then someNaN else a := by
  simp [fadd, isNaN_of_isInf ha, isNaN_of_isInf hb, ha, hb]

theorem fsub_of_isInf (ha : isInf a = true) (hb : isInf b = true) :
    fsub a b = if signBit a != signBit b then a else someNaN := by
  rw [fsub, fadd_of_isInf ha ((isInf_fneg b).trans hb), signBit_fneg]
  cases signBit a <;> cases signBit b <;> rfl

theorem fadd_isInf_isFinite (ha : isInf a = true) (hb : isFinite b = true) : fadd a b = a := by
  simp [fadd, isNaN_of_isInf ha, isNaN_of_isFinite hb, ha, isInf_of_isFinite hb]

theorem fadd_isFinite_isInf (ha : isFinite a = true) (hb : isInf b = true) : fadd a b = b := by
  simp [fadd, isNaN_of_isFinite ha, isNaN_of_isInf hb, isInf_of_isFinite ha, hb]

theorem fsub_isInf_isFinite (ha : isInf a = true) (hb : isFinite b = true) : fsub a b = a :=
  fadd_isInf_isFinite ha ((isFinite_fneg b).trans hb)

theorem fmul_isInf_isFinite (ha : isInf a = true) (hb : isFinite b = true) :
    fmul a b = if units b = 0 then someNaN else packFloat (signBit a != signBit b) infMag := by
  simp [fmul, isNaN_of_isInf ha, isNaN_of_isFinite hb, ha, units_eq_zero]

theorem fmul_isFinite_isInf (ha : isFinite a = true) (hb : isInf b = true) :
    fmul a b = if units a = 0 then someNaN else packFloat (signBit a != signBit b) infMag := by
  simp [fmul, isNaN_of_isFinite ha, isNaN_of_isInf hb, isInf_of_isFinite ha, hb, units_eq_zero]

theorem fdiv_of_isInf (ha : isInf a = true) (hb : isInf b = true) : fdiv a b = someNaN := by
  simp [fdiv, isNaN_of_isInf ha, isNaN_of_isInf hb, ha, hb]

theorem fdiv_isInf_isFinite (ha : isInf a = true) (hb : isFinite b = true) :
    fdiv a b = packFloat (signBit a != signBit b) infMag := by
  simp [fdiv, isNaN_of_isInf ha, isNaN_of_isFinite hb, ha, isInf_of_isFinite hb]

theorem fdiv_isFinite_isInf (ha : isFinite a = true) (hb : isInf b = true) :
    fdiv a b = packFloat (signBit a != signBit b) 0 := by
  simp [fdiv, isNaN_of_isFinite ha, isNaN_of_isInf hb, isInf_of_isFinite ha, hb]

theorem fsqrt_of_isInf (ha : isInf a = true) (hs : signBit a = false) : fsqrt a = a := by
  have hmag : magBits a ≠ 0 := isInf_iff.1 ha ▸ (by decide : infMag ≠ 0)
  rw [fsqrt, isNaN_of_isInf ha, hs, if_neg hmag, ha]
  rfl

/-! ### Zeros and signs -/

theorem isFinite_of_units_eq_zero (h : units a = 0) : isFinite a = true :=
  isFinite_iff.2 (units_eq_zero.1 h ▸ by decide)

theorem fdiv_by_zero (ha : isFinite a = true) (hb : units b = 0) :
    fdiv a b = if units a = 0 then someNaN else packFloat (signBit a != signBit b) infMag := by
  have hb' := isFinite_of_units_eq_zero hb
  simp [fdiv, isNaN_of_isFinite ha, isNaN_of_isFinite hb', isInf_of_isFinite ha, isInf_of_isFinite hb',
    units_eq_zero.1 hb, units_eq_zero]

theorem fadd_of_sum_eq_zero (ha : isFinite a = true) (hb : isFinite b = true) (h : units a + units b = 0) :
    fadd a b = if signBit a && signBit b then 0x8000000000000000#64 else 0#64 := by
  rw [fadd_of_isFinite ha hb, if_pos h]
  cases signBit a && signBit b <;> rfl

theorem signBit_fmul (ha : isFinite a = true) (hb : isFinite b = true) :
    signBit (fmul a b) = (signBit a != signBit b) := by
  rw [fmul_of_isFinite ha hb, signBit_packFloat _ (roundMag_lt _ _)]

theorem fsqrt_of_units_neg (h : units a < 0) : isNaN (fsqrt a) = true := by
  have hs : signBit a = true := by
    by_contra hs
    rw [units, if_neg hs] at h
    omega
  rw [fsqrt, if_neg (mt units_eq_zero.2 h.ne), hs, if_pos rfl, ite_self]
  rfl

theorem isInf_packFloat (s : Bool) : isInf (packFloat s infMag) = true :=
  isInf_iff.2 (magBits_packFloat s infMag_lt)

theorem units_packFloat_zero (s : Bool) : units (packFloat s 0) = 0 :=
  units_eq_zero.2 (magBits_packFloat s (Nat.two_pow_pos 63))

/-! ### The obligation's clauses -/

theorem nan_operand (h : (isNaN a || isNaN b) = true) :
    isNaN (fadd a b) = true ∧ isNaN (fsub a b) = true ∧ isNaN (fmul a b) = true ∧ isNaN (fdiv a b) = true ∧
      flt a b = false ∧ fle a b = false ∧ feq a b = false := by
  rw [fadd_of_isNaN h, fsub_of_isNaN h, fmul_of_isNaN h, fdiv_of_isNaN h]
  exact ⟨isNaN_someNaN, isNaN_someNaN, isNaN_someNaN, isNaN_someNaN, compare_of_isNaN h⟩

theorem two_infinities (ha : isInf a = true) (hb : isInf b = true) :
    isNaN (fdiv a b) = true ∧ (signBit a = signBit b → isNaN (fsub a b) = true ∧ fadd a b = a) ∧
      (signBit a ≠ signBit b → isNaN (fadd a b) = true ∧ fsub a b = a) := by
  rw [fdiv_of_isInf ha hb, fadd_of_isInf ha hb, fsub_of_isInf ha hb]
  refine ⟨isNaN_someNaN, fun hs => ?_, fun hs => ?_⟩ <;> simp [hs, isNaN_someNaN]

theorem infinity_and_finite (ha : isInf a = true) (hb : isFinite b = true) :
    fadd a b = a ∧ fadd b a = a ∧ fsub a b = a ∧
      (units b = 0 → isNaN (fmul a b) = true ∧ isNaN (fmul b a) = true) ∧
      (units b ≠ 0 → isInf (fmul a b) = true ∧ isInf (fmul b a) = true ∧
        signBit (fmul a b) = (signBit a != signBit b) ∧ signBit (fmul b a) = (signBit a != signBit b)) ∧
      isInf (fdiv a b) = true ∧ signBit (fdiv a b) = (signBit a != signBit b) ∧
      units (fdiv b a) = 0 ∧ signBit (fdiv b a) = (signBit a != signBit b) := by
  rw [fmul_isInf_isFinite ha hb, fmul_isFinite_isInf hb ha, fdiv_isInf_isFinite ha hb, fdiv_isFinite_isInf hb ha,
    bne_comm (a := signBit b)]
  refine ⟨fadd_isInf_isFinite ha hb, fadd_isFinite_isInf hb ha, fsub_isInf_isFinite ha hb, fun h0 => ?_, fun h0 => ?_,
    isInf_packFloat _, signBit_packFloat _ infMag_lt, units_packFloat_zero _, signBit_packFloat _ (Nat.two_pow_pos 63)⟩
  · rw [if_pos h0]
    exact ⟨isNaN_someNaN, isNaN_someNaN⟩
  · rw [if_neg h0, signBit_packFloat _ infMag_lt]
    exact ⟨isInf_packFloat _, isInf_packFloat _, rfl, rfl⟩

theorem zero_divisor (ha : isFinite a = true) (hb : units b = 0) :
    (units a = 0 → isNaN (fdiv a b) = true) ∧
      (units a ≠ 0 → isInf (fdiv a b) = true ∧ signBit (fdiv a b) = (signBit a != signBit b)) := by
  rw [fdiv_by_zero ha hb]
  refine ⟨fun h0 => ?_, fun h0 => ?_⟩
  · rw [if_pos h0, isNaN_someNaN]
  · rw [if_neg h0]
    exact ⟨isInf_packFloat _, signBit_packFloat _ infMag_lt⟩

end

end Sys2Proof.Machine

open Sys2Proof.Machine

/-- Settles O6, each clause from the equation of the operation for its class of operands. -/
theorem floatSpecialOperands : Obligations.FloatSpecialOperands := by
  unfold Obligations.FloatSpecialOperands
  intro a b
  refine ⟨nan_operand, fun h => ?_, two_infinities, infinity_and_finite, zero_divisor, fun ha hb => ?_,
    fsqrt_of_units_eq_zero, fsqrt_of_units_neg, fsqrt_of_isInf, ⟨signBit_fabs a, magBits_fabs a⟩, fun ha hb => ?_⟩
  · rw [fsqrt_of_isNaN h, isNaN_someNaN]
  · exact ⟨fadd_of_sum_eq_zero ha hb, signBit_fmul ha hb⟩
  · exact ⟨flt_iff ha hb, fle_iff ha hb, feq_iff ha hb⟩
end


section
/-! PROOF. The free functions of `CFG.NUM` are held to P1 to P4 (00_scope.md R14). -/

namespace Sys2Proof.Machine

/-! ### Functions held to an interval -/

theorem fle_trans {a b c : F64} (hab : fle a b = true) (hbc : fle b c = true) : fle a c = true := by
  simp only [fle, Bool.and_eq_true, decide_eq_true_eq] at hab hbc ⊢
  obtain ⟨⟨ha, -⟩, hab⟩ := hab
  obtain ⟨⟨-, hc⟩, hbc⟩ := hbc
  exact ⟨⟨ha, hc⟩, hab.trans hbc⟩

theorem feq_of_fle_of_fle {a b : F64} (hab : fle a b = true) (hba : fle b a = true) : feq a b = true := by
  simp only [fle, feq, Bool.and_eq_true, decide_eq_true_eq] at hab hba ⊢
  obtain ⟨hnan, hab⟩ := hab
  exact ⟨hnan, le_antisymm hab hba.2⟩

/-- A function held to an interval lies in it, whatever the free function is. -/
theorem heldTo_mem {lo hi other : F64} (raw : F64) (hlo : fle lo other = true) (hhi : fle other hi = true) :
    fle lo (heldTo lo hi other raw) = true ∧ fle (heldTo lo hi other raw) hi = true := by
  rw [heldTo]
  split
  next h => exact Bool.and_eq_true_iff.1 h
  next => exact ⟨hlo, hhi⟩

theorem fln_one : fln fOne = fZero := if_pos rfl

/-- P1: the free logarithm is taken only where it is finite and not positive. -/
theorem fln_mem {x : F64} (hx : isFinite x = true) (hpos : flt fZero x = true) (hle : fle x fOne = true) :
    isFinite (fln x) = true ∧ fle (fln x) fZero = true := by
  have hzero : isFinite fZero = true ∧ fle fZero fZero = true := by decide
  by_cases hone : x = fOne
  · rw [hone, fln_one]
    exact hzero
  · rw [fln, if_neg hone, hx, hpos, hle, Bool.and_self, Bool.and_self, if_pos rfl]
    split
    next h => exact Bool.and_eq_true_iff.1 h
    next => exact hzero

/-- P2 for the cosine. -/
theorem fcos_mem {x : F64} (hx : isFinite x = true) : fle fMinusOne (fcos x) = true ∧ fle (fcos x) fOne = true := by
  rw [fcos, if_pos hx]
  exact heldTo_mem _ (by decide) (by decide)

/-- P2 for the sine. -/
theorem fsin_mem {x : F64} (hx : isFinite x = true) : fle fMinusOne (fsin x) = true ∧ fle (fsin x) fOne = true := by
  rw [fsin, if_pos hx]
  exact heldTo_mem _ (by decide) (by decide)

/-- P3 at a zero of either sign. -/
theorem fcbrt_of_feq_zero {x : F64} (hx : feq x fZero = true) :
    fle fZero (fcbrt x) = true ∧ fle (fcbrt x) fZero = true := by
  rw [fcbrt, if_pos hx]
  exact heldTo_mem _ (by decide) (by decide)

theorem fcbrt_one : fcbrt fOne = fOne := by
  rw [fcbrt, if_neg (by decide), if_pos rfl]

/-- P3: by the operand's three cases, a zero, one, and what lies between. -/
theorem fcbrt_mem {x : F64} (h0 : fle fZero x = true) (h1 : fle x fOne = true) :
    fle fZero (fcbrt x) = true ∧ fle (fcbrt x) fOne = true := by
  by_cases hzero : feq x fZero = true
  · exact (fcbrt_of_feq_zero hzero).imp_right fun h => fle_trans h (by decide)
  by_cases hone : x = fOne
  · rw [hone, fcbrt_one]
    decide
  · rw [fcbrt, if_neg hzero, if_neg hone, h0, h1, Bool.and_self, if_pos rfl]
    exact heldTo_mem _ (by decide) (by decide)

/-! ### The remainder -/

/-- A value on the grid of its binade and not above a finite float is rounded to itself. -/
theorem magUnits_roundMag {n m : Nat} (hgrid : ∀ k, (k = 0 ∨ 2 ^ (52 + k) ≤ n) → 2 ^ k ∣ n) (hm : m < infMag)
    (hn : n ≤ magUnits m) : magUnits (roundMag n 1) = n := by
  obtain ⟨k, e, h, hmag⟩ := roundMag_roundsTo n one_pos
  rw [Nat.cast_one, div_one] at h
  obtain ⟨c, rfl⟩ := hgrid k (by exact_mod_cast h.lastPlace.2)
  have he : e = c := by
    refine HalfEven.eq_of_natCast ?_
    have := h.halfEven
    rwa [Nat.cast_mul, cast_two_pow, mul_div_cancel_left₀ _ (by positivity)] at this
  have hval := h.magUnits_eq
  have hle : k * 2 ^ 52 + e ≤ m := magUnits_strictMono.le_iff_le.1 (by rw [hval, he, mul_comm]; exact hn)
  rw [hmag, min_eq_right (hle.trans hm.le), hval, he, mul_comm]

/-- The remainder of two floats' magnitudes is on the grid of its binade: it is a multiple of every last place that
both are multiples of, and it lies above neither. -/
theorem magUnits_roundMag_mod {x y : Nat} (hx : x < infMag) (hy : 0 < y) :
    magUnits (roundMag (magUnits x % magUnits y) 1) = magUnits x % magUnits y := by
  have hypos : 0 < magUnits y := Nat.pos_of_ne_zero (mt magUnits_eq_zero.1 hy.ne')
  have hlex := Nat.mod_le (magUnits x) (magUnits y)
  have hlty := Nat.mod_lt (magUnits x) hypos
  refine magUnits_roundMag (fun k hk => ?_) hx hlex
  obtain rfl | hk := hk
  · exact one_dvd _
  have hdvdx := (dvd_magUnits_or_lt k x).resolve_right (hk.trans hlex).not_gt
  have hdvdy := (dvd_magUnits_or_lt k y).resolve_right (hk.trans hlty.le).not_gt
  exact (Nat.dvd_mod_iff hdvdy).2 hdvdx

theorem ffmod_of_isFinite {x y : F64} (hx : isFinite x = true) (hy : isFinite y = true) (h0 : units y ≠ 0) :
    ffmod x y = packFloat (signBit x) (roundMag ((units x).natAbs % (units y).natAbs) 1) := by
  rw [ffmod, hx, hy, decide_eq_true (mt units_eq_zero.2 h0)]
  rfl

/-- The truncated remainder takes its sign from the dividend. -/
theorem tmod_signOf_mul (s t : Bool) (m n : Int) : (signOf s * m).tmod (signOf t * n) = signOf s * m.tmod n := by
  cases s <;> cases t <;> simp [signOf]

theorem units_ffmod {x y : F64} (hx : isFinite x = true) (hy : isFinite y = true) (h0 : units y ≠ 0) :
    units (ffmod x y) = (units x).tmod (units y) := by
  have hmag := magUnits_roundMag_mod (isFinite_iff.1 hx) (Nat.pos_of_ne_zero (mt units_eq_zero.2 h0))
  rw [ffmod_of_isFinite hx hy h0, units_packFloat _ (roundMag_lt _ _), natAbs_units, natAbs_units, hmag, Int.ofNat_tmod,
    units_eq x, units_eq y, tmod_signOf_mul]

theorem isFinite_ffmod {x y : F64} (hx : isFinite x = true) (hy : isFinite y = true) (h0 : units y ≠ 0) :
    isFinite (ffmod x y) = true := by
  have hmag := magUnits_roundMag_mod (isFinite_iff.1 hx) (Nat.pos_of_ne_zero (mt units_eq_zero.2 h0))
  rw [ffmod_of_isFinite hx hy h0, isFinite_iff, magBits_packFloat _ (roundMag_lt _ _), natAbs_units, natAbs_units,
    ← magUnits_strictMono.lt_iff_lt, hmag]
  exact (Nat.mod_le _ _).trans_lt (magUnits_strictMono (isFinite_iff.1 hx))

/-- P4: the exact remainder is a float, so rounding leaves it alone. -/
theorem ffmod_mem {x y : F64} (hx : isFinite x = true) (hy : isFinite y = true) (hpos : flt fZero y = true) :
    isFinite (ffmod x y) = true ∧ units (ffmod x y) = (units x).tmod (units y) ∧ |units (ffmod x y)| < units y ∧
      (units (ffmod x y) = 0 ∨ signBit (ffmod x y) = signBit x) := by
  have hpos : 0 < units y := (flt_iff (by decide) (isNaN_of_isFinite hy)).1 hpos
  have hunits := units_ffmod hx hy hpos.ne'
  refine ⟨isFinite_ffmod hx hy hpos.ne', hunits, ?_, .inr ?_⟩
  · rw [hunits]
    exact abs_lt.2 ⟨Int.lt_tmod_of_pos _ hpos, Int.tmod_lt_of_pos _ hpos⟩
  · rw [ffmod_of_isFinite hx hy hpos.ne', signBit_packFloat _ (roundMag_lt _ _)]

end Sys2Proof.Machine

open Sys2Proof.Machine

/-- Settles O7, by the choice of a fixed value wherever the free one lacks the property, and for the remainder because
it is itself a float. -/
theorem numFunctionsKeepTheirProperties : Obligations.NumFunctionsKeepTheirProperties := by
  unfold Obligations.NumFunctionsKeepTheirProperties
  refine ⟨fun _ => fln_mem, fln_one, fun x hx => ?_, fun _ => fcbrt_mem, ?_, fcbrt_one, fun _ _ => ffmod_mem⟩
  · obtain ⟨hcos, hcos'⟩ := fcos_mem hx
    exact ⟨hcos, hcos', fsin_mem hx⟩
  · obtain ⟨hge, hle⟩ := fcbrt_of_feq_zero (x := fZero) (by decide)
    exact feq_of_fle_of_fle hle hge
end

section
/-! SUPPORT. Every command is one run of a pseudocode body on its channel, and what such a run leaves of the state
(10_state.md R40). -/

namespace Sys2Proof

theorem Chan.eq_or_eq_other (c d : Chan) : d = c ∨ d = c.other := by cases c <;> cases d <;> decide

theorem Chan.eq_other_of_ne {c d : Chan} (h : c ≠ d) : d = c.other := (Chan.eq_or_eq_other c d).resolve_left h.symm

namespace Machine

/-- How a run of a command's pseudocode ends without a fault: with a reply, or, for `none`, in a redraw loop that does
not end. -/
def Res.ending : Option Reply → Work → Res Reply
  | some r, w => .ok r w
  | none, w => .stuck w

/-- The state a command on channel `c` leaves when its run ends so with the work `w`. -/
def State.leave (s : State) (c : Chan) (o : Option Reply) (w : Work) : State :=
  match o with
  | some r => (s.putWork c w).complete c r
  | none => (s.putWork c w).hang c

theorem runCommand_next_iff {c : Chan} {body : Ctx → Cmd Reply} {s t : State} :
    runCommand c body s = .next t ↔ ∃ o w, body (s.ctx c) (s.work c) = Res.ending o w ∧ t = s.leave c o w := by
  constructor
  · intro h
    obtain ⟨r, w, hw, ht⟩ | ⟨w, hw, ht⟩ := runCommand_next h
    · exact ⟨some r, w, hw, ht⟩
    · exact ⟨none, w, hw, ht⟩
  · rintro ⟨_ | r, w, hw, rfl⟩
    · exact runCommand_stuck hw
    · exact runCommand_ok hw

theorem illegalCommand_eq_runCommand (c : Chan) (s : State) :
    illegalCommand c s = runCommand c (fun _ => failWith .illegal) s := by
  rw [runCommand_ok (ret_apply _ _), State.putWork_work_self, illegalCommand]

/-- The pseudocode of a command that is legal on `S` only, its failure on `F` included (30_encoding.md R104). -/
def secureOnlyBody (c : Chan) (body : Ctx → Cmd Reply) : Ctx → Cmd Reply :=
  match c with
  | .F => fun _ => failWith .illegal
  | .S => body

/-- The pseudocode of each command. -/
def bodyOf : Instr → Ctx → Cmd Reply
  | .seed _ => seedBody
  | .nextU32 _ => nextU32Body
  | .nextFloat _ => nextFloatBody
  | .bounded _ => boundedBody
  | .zeroize c => secureOnlyBody c zeroizeBody
  | .range _ => rangeBody
  | .floatRange _ => floatRangeBody
  | .boolean _ => booleanBody
  | .booleanWeighted _ => booleanWeightedBody
  | .weightedIndex _ => weightedIndexBody
  | .shuffle _ => shuffleBody
  | .shuffleRange _ => shuffleRangeBody
  | .gaussian _ => gaussianBody
  | .dice _ => diceBody
  | .pick _ => pickBody
  | .patternFormat _ => patternFormatBody
  | .randomBytes c => secureOnlyBody c randomBytesBody
  | .uuidV4 c => secureOnlyBody c uuidV4Body
  | .pointInCircle _ => pointInCircleBody
  | .pointOnCircle _ => pointOnCircleBody
  | .pointInRect _ => pointInRectBody
  | .pointInRing _ => pointInRingBody
  | .pointInEllipse _ => pointInEllipseBody
  | .pointInTriangle _ => pointInTriangleBody
  | .pointInArc _ => pointInArcBody
  | .pointInPolygon _ => pointInPolygonBody
  | .pointInSphere _ => pointInSphereBody
  | .pointOnSphere _ => pointOnSphereBody
  | .pointInBox _ => pointInBoxBody

theorem runSecureOnly_eq_runCommand (c : Chan) (body : Ctx → Cmd Reply) (s : State) :
    runSecureOnly c body s = runCommand c (secureOnlyBody c body) s := by
  cases c with
  | F => exact illegalCommand_eq_runCommand .F s
  | S => rfl

/-- An `S`-only command on `F` is no exception: its pseudocode is the failure with `ERR_ILLEGAL`. -/
theorem exec_eq_runCommand (i : Instr) (s : State) : exec i s = runCommand i.chan (bodyOf i) s := by
  cases i with
  | zeroize c => exact runSecureOnly_eq_runCommand c zeroizeBody s
  | randomBytes c => exact runSecureOnly_eq_runCommand c randomBytesBody s
  | uuidV4 c => exact runSecureOnly_eq_runCommand c uuidV4Body s
  | _ => rfl

/-! ### What a command's run leaves -/

section
variable (s : State) (c : Chan) (o : Option Reply) (w : Work)

@[simp] theorem State.leave_cfg : (s.leave c o w).cfg = s.cfg := by cases o <;> simp [State.leave]

@[simp] theorem State.leave_host : (s.leave c o w).host = s.host := by cases o <;> simp [State.leave]

@[simp] theorem State.leave_readLog : (s.leave c o w).readLog = s.readLog := by cases o <;> simp [State.leave]

@[simp] theorem State.leave_port_other : (s.leave c o w).port c.other = s.port c.other := by
  cases o <;> simp [State.leave]

@[simp] theorem State.leave_engine_other : (s.leave c o w).engine c.other = s.engine c.other := by
  cases o <;> simp [State.leave]

@[simp] theorem State.leave_env_other : (s.leave c o w).env c.other = s.env c.other := by
  cases o <;> simp [State.leave]

@[simp] theorem State.leave_arg : ((s.leave c o w).port c).arg = (s.port c).arg := by cases o <;> simp [State.leave]

@[simp] theorem State.leave_epoch : ((s.leave c o w).port c).epoch = (s.port c).epoch := by
  cases o <;> simp [State.leave]

@[simp] theorem State.leave_buf : ((s.leave c o w).port c).buf = w.buf := by cases o <;> simp [State.leave]

@[simp] theorem State.leave_ibuf : ((s.leave c o w).port c).ibuf = (s.port c).ibuf := by
  cases o <;> simp [State.leave]

@[simp] theorem State.leave_obuf : ((s.leave c o w).port c).obuf = w.obuf := by cases o <;> simp [State.leave]

theorem State.leave_engine (d : Chan) : (s.leave c o w).engine d = (s.putWork c w).engine d := by
  cases o <;> simp [State.leave]

@[simp] theorem State.leave_ctx_other : (s.leave c o w).ctx c.other = s.ctx c.other := by simp [State.ctx]

@[simp] theorem State.leave_work_other : (s.leave c o w).work c.other = s.work c.other := by
  simp [State.work]

/-- A completion is the run that answers with the work it found. -/
theorem State.complete_eq_leave (r : Reply) : s.complete c r = s.leave c (some r) (s.work c) := by
  simp [State.leave]

/-- The two channels hold different parts of the state. -/
theorem State.leave_comm (o' : Option Reply) (w' : Work) :
    (s.leave c o w).leave c.other o' w' = (s.leave c.other o' w').leave c o w := by
  cases c <;> cases o <;> cases o' <;> rfl

end

/-- Runs on different channels see nothing of each other. -/
theorem runCommand_comm {c : Chan} {body body' : Ctx → Cmd Reply} {s t u : State}
    (ht : runCommand c body s = .next t) (hu : runCommand c.other body' t = .next u) :
    ∃ t', runCommand c.other body' s = .next t' ∧ runCommand c body t' = .next u := by
  obtain ⟨o, w, hw, rfl⟩ := runCommand_next_iff.1 ht
  obtain ⟨o', w', hw', rfl⟩ := runCommand_next_iff.1 hu
  rw [State.leave_ctx_other, State.leave_work_other] at hw'
  have hctx := State.leave_ctx_other s c.other o' w'
  have hwork := State.leave_work_other s c.other o' w'
  rw [Chan.other_other] at hctx hwork
  exact ⟨_, runCommand_next_iff.2 ⟨o', w', hw', rfl⟩,
    runCommand_next_iff.2 ⟨o, w, by rw [hctx, hwork, hw], State.leave_comm s c o w o' w'⟩⟩

end Machine

end Sys2Proof

end

section
/-! SUPPORT. The invariants of the two engines (10_state.md R48, R54) under seeding and draws. -/

namespace Sys2Proof.Machine

/-! ### The fast engine -/

/-- 10_state.md R48: the increment is odd whatever the seed constant. -/
theorem getLsbD_fIncrement_zero (k : Cfg) : (fIncrement k).getLsbD 0 = true := by simp [fIncrement]

theorem fastGood_of_increment {k : Cfg} {e : Fast} (h : e.fi = fIncrement k) : FastGood k e :=
  fun _ => ⟨h, h ▸ getLsbD_fIncrement_zero k⟩

theorem fastGood_afterReset (k : Cfg) : FastGood k Fast.afterReset := nofun

theorem fastGood_fStep {k : Cfg} {e : Fast} (h : FastGood k e) : FastGood k (fStep k e).2 := h

theorem fastGood_fSeed (k : Cfg) (v : W64) (e : Fast) (env : Env) : FastGood k (fSeed k v e env).1 := by
  unfold fSeed
  split
  · exact fastGood_of_increment rfl
  · exact fastGood_of_increment rfl

theorem fastGood_fReady {k : Cfg} {e : Fast} (env : Env) (h : FastGood k e) : FastGood k (fReady k e env).1 := by
  unfold fReady
  split
  · exact h
  · exact fastGood_fSeed k _ e env

/-! ### The block counter -/

theorem concat32_high32_low32 (n : W64) : concat32 (high32 n) (low32 n) = n :=
  BitVec.extractLsb'_append_extractLsb' (w := 32) (len := 32)

theorem withCounter_withCounter (m : Words) (a b : W64) : withCounter (withCounter m a) b = withCounter m b := by
  ext i hi
  simp only [withCounter, Vector.getElem_set]
  split_ifs <;> rfl

theorem low32_concat32 (hi lo : W32) : low32 (concat32 hi lo) = lo := BitVec.extractLsb'_append_eq_right

theorem high32_concat32 (hi lo : W32) : high32 (concat32 hi lo) = hi := BitVec.extractLsb'_append_eq_left

/-- Setting the counter to what it is changes nothing. -/
theorem withCounter_ctr (e : Secure) : withCounter e.sm e.ctr = e.sm := by
  ext i hi
  simp only [withCounter, Secure.ctr, low32_concat32, high32_concat32, Vector.getElem_set]
  split_ifs <;> simp_all

theorem getElem_withCounter {m : Words} {n : W64} {i : Nat} (hi : i < 12) : (withCounter m n)[i] = m[i] := by
  simp only [withCounter, Vector.getElem_set]
  rw [if_neg (by omega), if_neg (by omega)]

/-! ### The secure engine -/

/-- The secure engine's invariant once it is seeded (10_state.md R54 (b), (c)). -/
structure Keyed (k : Cfg) (e : Secure) : Prop where
  seeded : e.seeded = true
  constants : e.sm[0] = k.cc[0] ∧ e.sm[1] = k.cc[1] ∧ e.sm[2] = k.cc[2] ∧ e.sm[3] = k.cc[3]
  block : e.cur ≠ 16 → e.blk = chachaBlock (withCounter e.sm (e.ctr - 1#64))

theorem secureGood_of_keyed {k : Cfg} {e : Secure} (h : Keyed k e) : SecureGood k e := by
  obtain ⟨hseeded, ⟨h0, h1, h2, h3⟩, hblock⟩ := h
  exact ⟨fun _ => ⟨h0, h1, h2, h3, hblock⟩, fun hn => absurd hseeded (by simp [hn])⟩

theorem keyed_of_secureGood {k : Cfg} {e : Secure} (h : SecureGood k e) (hseeded : e.seeded = true) : Keyed k e := by
  obtain ⟨h0, h1, h2, h3, hblock⟩ := h.1 hseeded
  exact ⟨hseeded, ⟨h0, h1, h2, h3⟩, hblock⟩

theorem secureGood_afterReset (k : Cfg) : SecureGood k Secure.afterReset := ⟨nofun, fun _ => ⟨rfl, rfl, rfl, rfl⟩⟩

theorem keyed_sInstall (k : Cfg) (w : Vector W32 12) : Keyed k (sInstall k w) :=
  ⟨rfl, ⟨rfl, rfl, rfl, rfl⟩, fun h => absurd rfl h⟩

theorem keyed_sSeed (k : Cfg) (v : W64) (env : Env) : Keyed k (sSeed k v env).1 := by
  unfold sSeed
  split
  · exact keyed_sInstall k _
  · exact keyed_sInstall k _

theorem keyed_reseedCheck {k : Cfg} {e : Secure} (env : Env) (h : Keyed k e) : Keyed k (reseedCheck k e env).1 := by
  unfold reseedCheck
  split
  · dsimp only
    split
    · exact keyed_sInstall k _
    · exact h
  · exact h

/-- 42_secure_engine.md R164: the new block is that of the counter before the new one. -/
theorem keyed_sGenerate {k : Cfg} {e : Secure} (h : Keyed k e) : Keyed k (sGenerate e) := by
  have hctr : (sGenerate e).ctr = e.ctr + 1#64 := by
    simpa [Secure.ctr, sGenerate, withCounter] using concat32_high32_low32 (e.ctr + 1#64)
  refine ⟨h.seeded, ?_, fun _ => ?_⟩
  · simpa [sGenerate, getElem_withCounter] using h.constants
  · rw [hctr, BitVec.add_sub_cancel]
    simp [sGenerate, withCounter_withCounter, withCounter_ctr]

/-- The engine with a block to read from, a new one where the old is used up (42_secure_engine.md R171). -/
theorem keyed_unreadBlock {k : Cfg} {e : Secure} (h : Keyed k e) :
    Keyed k (if e.cur = 16 then sGenerate e else e) ∧ (if e.cur = 16 then sGenerate e else e).cur ≠ 16 := by
  split
  · exact ⟨keyed_sGenerate h, by simp [sGenerate]⟩
  · exact ⟨h, ‹_›⟩

theorem keyed_sReady {k : Cfg} {e : Secure} (env : Env) (h : SecureGood k e) :
    Keyed k (sReady k e env).1 ∧ (sReady k e env).1.cur ≠ 16 := by
  have hseeded : Keyed k (if e.seeded then (e, env) else sSeed k 0#64 env).1 := by
    split
    · exact keyed_of_secureGood h ‹_›
    · exact keyed_sSeed k _ env
  exact keyed_unreadBlock (keyed_reseedCheck _ hseeded)

/-- Moving the cursor keeps the block, which is not needed once the cursor is past it. -/
theorem keyed_sTake {k : Cfg} {e : Secure} (h : Keyed k e) (hcur : e.cur ≠ 16) : Keyed k (sTake e).2 :=
  ⟨h.seeded, h.constants, fun _ => h.block hcur⟩

/-! ### Either engine -/

/-- The invariant of a channel's engine. -/
def EngineGood (k : Cfg) : Engine → Prop
  | .fast e => FastGood k e
  | .secure e => SecureGood k e

theorem engineGood_seedEngine (k : Cfg) (v : W64) (e : Engine) (env : Env) :
    EngineGood k (seedEngine k v e env).1 := by
  cases e with
  | fast e => exact fastGood_fSeed k v e env
  | secure _ => exact secureGood_of_keyed (keyed_sSeed k v env)

theorem engineGood_drawEngine {k : Cfg} {e : Engine} (env : Env) (h : EngineGood k e) :
    EngineGood k (drawEngine k e env).2.1 := by
  cases e with
  | fast e => exact fastGood_fStep (fastGood_fReady env h)
  | secure e =>
    obtain ⟨hkeyed, hcur⟩ := keyed_sReady env h
    exact secureGood_of_keyed (keyed_sTake hkeyed hcur)

theorem engineGood_drawsFrom {k : Cfg} {p : Engine × Env} (n : Nat) (h : EngineGood k p.1) :
    EngineGood k (drawsFrom k n p).1 := by
  induction n with
  | zero => exact h
  | succ n ih => exact engineGood_drawEngine _ ih

end Sys2Proof.Machine
end

section
/-! SUPPORT. The machine's invariant `Good` (10_state.md R54), channel by channel, under commands, host accesses and
reset. -/

namespace Sys2Proof.Machine

/-! ### Good, channel by channel -/

theorem good_iff {s : State} :
    Good s ↔ s.cfg.wf = true ∧ ∀ c, EngineGood s.cfg (s.engine c) ∧ PortGood s.cfg (s.port c) := by
  constructor
  · rintro ⟨hcfg, hfast, hsecure, hF, hS⟩
    refine ⟨hcfg, fun c => ?_⟩
    cases c with
    | F => exact ⟨hfast, hF⟩
    | S => exact ⟨hsecure, hS⟩
  · rintro ⟨hcfg, hchan⟩
    exact ⟨hcfg, (hchan .F).1, (hchan .S).1, (hchan .F).2, (hchan .S).2⟩

/-- The invariant survives a change of one channel that keeps that channel's part of it. -/
theorem good_of_channel {s t : State} {c : Chan} (h : Good s) (hcfg : t.cfg = s.cfg)
    (hport : t.port c.other = s.port c.other) (hengine : t.engine c.other = s.engine c.other)
    (hc : EngineGood s.cfg (t.engine c) ∧ PortGood s.cfg (t.port c)) : Good t := by
  obtain ⟨hwf, hchan⟩ := good_iff.1 h
  refine good_iff.2 ⟨hcfg ▸ hwf, fun d => ?_⟩
  rw [hcfg]
  obtain rfl | rfl := Chan.eq_or_eq_other c d
  · exact hc
  · rw [hport, hengine]
    exact hchan c.other

/-! ### Commands -/

/-- The invariant of what a command may change. -/
structure WorkGood (k : Cfg) (w : Work) : Prop where
  engine : EngineGood k w.engine
  bufForm : Mem.wf w.buf = true ∧ Mem.within k.maxElems w.buf = true
  obufForm : Mem.wf w.obuf = true ∧ Mem.within k.maxBytes w.obuf = true

theorem workGood_of_good {s : State} (h : Good s) (c : Chan) : WorkGood s.cfg (s.work c) := by
  obtain ⟨-, hchan⟩ := good_iff.1 h
  obtain ⟨hengine, hbuf, -, hobuf, hbufIn, -, hobufIn, -⟩ := hchan c
  exact ⟨hengine, ⟨hbuf, hbufIn⟩, ⟨hobuf, hobufIn⟩⟩

theorem Moved.workGood {k : Ctx} {B O : Nat → Prop} {w w' : Work} (hm : Moved k B O w w') (h : WorkGood k.cfg w) :
    WorkGood k.cfg w' := by
  obtain ⟨n, hn⟩ := hm.draws
  have hengine := engineGood_drawsFrom (p := (w.engine, w.env)) n h.engine
  rw [← hn] at hengine
  exact ⟨hengine, hm.bufForm h.bufForm.1 h.bufForm.2, hm.obufForm h.obufForm.1 h.obufForm.2⟩

theorem KeptTo.workGood {k : Ctx} {B O : Nat → Prop} {P : Reply → Prop} {w w' : Work} {o : Option Reply}
    (hk : KeptTo k B O P w (Res.ending o w')) (h : WorkGood k.cfg w) : WorkGood k.cfg w' := by
  cases o with
  | none => exact Moved.workGood hk h
  | some r => exact Moved.workGood hk.1 h

/-- A reply that succeeds has no error code. -/
theorem errCode_of_okFlag {r : Reply} (h : r.okFlag = true) : r.errCode = .none := by
  cases r with
  | done => rfl
  | fail => cases h

theorem engineGood_putWork {s : State} {c : Chan} {w : Work} (hs : EngineGood s.cfg (s.engine c))
    (hw : EngineGood s.cfg w.engine) : EngineGood s.cfg ((s.putWork c w).engine c) := by
  obtain ⟨e, _, _, _, _⟩ := w
  cases c with
  | F =>
    cases e with
    | fast e => exact hw
    | secure e => exact hs
  | S =>
    cases e with
    | fast e => exact hs
    | secure e => exact hw

theorem good_leave {s : State} {c : Chan} {w : Work} (o : Option Reply) (h : Good s) (hw : WorkGood s.cfg w) :
    Good (s.leave c o w) := by
  obtain ⟨hengine, -, hibuf, -, -, hibufIn, -, hok⟩ := (good_iff.1 h).2 c
  refine good_of_channel h (State.leave_cfg s c o w) (State.leave_port_other s c o w) (State.leave_engine_other s c o w)
    ⟨?_, ?_⟩
  · rw [State.leave_engine]
    exact engineGood_putWork hengine hw.engine
  · simp only [PortGood, State.leave_buf, State.leave_ibuf, State.leave_obuf]
    refine ⟨hw.bufForm.1, hibuf, hw.obufForm.1, hw.bufForm.2, hibufIn, hw.obufForm.2, ?_⟩
    cases o with
    | none => simpa [State.leave] using hok
    | some r => simpa [State.leave] using errCode_of_okFlag

theorem good_complete {s : State} (h : Good s) (c : Chan) (r : Reply) : Good (s.complete c r) := by
  rw [State.complete_eq_leave]
  exact good_leave _ h (workGood_of_good h c)

/-- A run that answers ends with that answer's work. -/
theorem work_eq_of_ok_eq_ending {r : Reply} {o : Option Reply} {w w' : Work} (h : Res.ok r w = Res.ending o w') :
    w = w' := by
  cases o with
  | none => cases h
  | some => cases h; rfl

/-- A command that writes its engine and stores nothing. -/
theorem good_putEngine {s : State} {c : Chan} {e : Engine} (env : Env) (r : Reply) (h : Good s)
    (he : EngineGood s.cfg e) : Good ((s.putWork c { s.work c with engine := e, env := env }).complete c r) := by
  obtain ⟨-, hbuf, hobuf⟩ := workGood_of_good h c
  exact good_leave (some r) h ⟨he, hbuf, hobuf⟩

theorem good_exec_seed {c : Chan} {s t : State} (h : Good s) (ht : exec (.seed c) s = .next t) : Good t := by
  cases ht
  exact good_putEngine _ _ h (engineGood_seedEngine _ _ _ _)

theorem good_exec_zeroize {s t : State} (h : Good s) (ht : exec (.zeroize .S) s = .next t) : Good t := by
  cases ht
  exact good_putEngine (c := .S) (e := .secure Secure.afterReset) _ _ h (secureGood_afterReset _)

theorem BodyFrame.workGood {k : Ctx} {B O : Nat → Prop} {codes : List Err} {v : W64} {P : Reply → Prop}
    {m : Cmd Reply} {w w' : Work} {o : Option Reply} (hf : BodyFrame k B O codes v P m) (h : WorkGood k.cfg w)
    (hw : m w = Res.ending o w') : WorkGood k.cfg w' := by
  obtain ⟨e, -, he⟩ | hk := hf w
  · rwa [← work_eq_of_ok_eq_ending (he.symm.trans hw)]
  · exact KeptTo.workGood (hw ▸ hk) h

/-- Every command keeps the invariant: `SEED` and `ZEROIZE` write engines that have it, the others only draw and store
inside their memories. -/
theorem good_exec {i : Instr} {s t : State} (h : Good s) (ht : exec i s = .next t) : Good t := by
  by_cases hseed : ∃ c, i = .seed c
  · obtain ⟨c, rfl⟩ := hseed
    exact good_exec_seed h ht
  by_cases hzeroize : i = .zeroize .S
  · subst hzeroize
    exact good_exec_zeroize h ht
  obtain ⟨-, hillegal⟩ | ⟨body, hrun, hframe⟩ := exec_frame i s (fun c hc => hseed ⟨c, hc⟩) hzeroize
  · cases hillegal.symm.trans ht
    exact good_complete h _ _
  · obtain ⟨o, w, hw, rfl⟩ := runCommand_next_iff.1 (hrun.symm.trans ht)
    exact good_leave o h (hframe.workGood (workGood_of_good h i.chan) hw)

/-! ### Reset -/

theorem wf_referenceCfg : referenceCfg.wf = true := by decide

theorem portGood_afterReset (k : Cfg) (epoch frees : Nat) : PortGood k (Port.afterReset epoch frees) :=
  ⟨rfl, rfl, rfl, rfl, rfl, rfl, nofun⟩

theorem good_resetBlock {s : State} (h : s.cfg.wf = true) : Good (resetBlock s) :=
  ⟨h, fastGood_afterReset _, secureGood_afterReset _, portGood_afterReset _ _ _, portGood_afterReset _ _ _⟩

theorem seededFlag_resetBlock (s : State) (c : Chan) : ((resetBlock s).engine c).seededFlag = false := by
  cases c <;> rfl

theorem packStatus_zero : packStatus false 0#4 false false = 0#32 := by decide

/-- A reset channel reads a `STATUS` of zeros (10_state.md R59). -/
theorem status_resetBlock (s : State) (c : Chan) : (resetBlock s).status c = 0#32 := by
  rw [State.status, seededFlag_resetBlock, resetBlock_port]
  exact packStatus_zero

/-! ### Host accesses -/

theorem good_setPort {s : State} {c : Chan} {p : Port} (h : Good s) (hp : PortGood s.cfg p) : Good (s.setPort c p) := by
  refine good_of_channel h (State.setPort_cfg s c p) (State.setPort_port_other s c p) (State.setPort_engine s c _ p) ?_
  rw [State.setPort_engine, State.setPort_port]
  exact ⟨((good_iff.1 h).2 c).1, hp⟩

theorem portGood_writeElement {k : Cfg} {p : Port} (loc : Loc) (v : W64) (h : PortGood k p) :
    PortGood k (writeElement k p loc v) := by
  obtain ⟨hbuf, hibuf, hobuf, hbufIn, hibufIn, hobufIn, hok⟩ := id h
  cases loc with
  | reg n =>
    dsimp only [writeElement]
    split
    · exact h
    · exact h
  | buf i =>
    dsimp only [writeElement]
    split
    · exact ⟨Mem.wf_write _ _ _ hbuf, hibuf, hobuf, Mem.within_write _ _ _ _ hbufIn ‹_›, hibufIn, hobufIn, hok⟩
    · exact h
  | ibuf i =>
    dsimp only [writeElement]
    split
    · exact ⟨hbuf, Mem.wf_write _ _ _ hibuf, hobuf, hbufIn, Mem.within_write _ _ _ _ hibufIn ‹_›, hobufIn, hok⟩
    · exact h
  | obuf i =>
    dsimp only [writeElement]
    split
    · exact ⟨hbuf, hibuf, Mem.wf_write _ _ _ hobuf, hbufIn, hibufIn, Mem.within_write _ _ _ _ hobufIn ‹_›, hok⟩
    · exact h

theorem good_startCommand {c : Chan} {w : W32} {s t : State} (h : Good s) (ht : startCommand c w s = .next t) :
    Good t := by
  unfold startCommand at ht
  split at ht
  · exact good_exec h ht
  · cases ht
    exact good_complete h _ _

theorem good_hostWrite {c : Chan} {loc : Loc} {v : W64} {s t : State} (h : Good s)
    (ht : hostWrite c loc v s = .next t) : Good t := by
  unfold hostWrite at ht
  split at ht
  · cases ht
    exact h
  · split at ht
    · exact good_startCommand h ht
    · cases ht
      exact good_setPort h (portGood_writeElement loc v ((good_iff.1 h).2 c).2)

theorem good_hostAct {a : HostAction} {s t : State} (h : Good s) (ht : hostAct a s = .next t) : Good t := by
  cases a with
  | write c loc v => exact good_hostWrite h ht
  | read c loc =>
    cases ht
    exact h
  | reset =>
    cases ht
    exact good_resetBlock h.1

/-! ### Steps -/

theorem step_nil {s : State} (h : s.host = []) : step s = .next s := by rw [step, hostStep, h]

theorem step_cons {s : State} {a : HostAction} {rest : List HostAction} (h : s.host = a :: rest) :
    step s = hostAct a { s with host := rest } := by rw [step, hostStep, h]

/-- The host starts a command on an idle channel (10_state.md R43). -/
theorem step_write_cmd {s : State} {c : Chan} {v : W64} {rest : List HostAction} {i : Instr}
    (hhost : s.host = .write c (.reg regCmd) v :: rest) (hidle : (s.port c).busy = false)
    (hi : decode c (low32 v) = .ok i) : step s = exec i { s with host := rest } := by
  have hidle' : (State.port { s with host := rest } c).busy = false := by cases c <;> exact hidle
  rw [step_cons hhost]
  simp [hostAct, hostWrite, startCommand, hidle', hi]

/-- `CMD` takes back the word that `withFetchWord` placed (log 14). -/
theorem low32_placedWord (w : W32) : low32 (BitVec.ofNat 64 (w.toNat % 2 ^ 32 % 2 ^ 32)) = w := by
  apply BitVec.eq_of_toNat_eq
  rw [toNat_low32, BitVec.toNat_ofNat]
  omega

end Sys2Proof.Machine
end

section
/-! PROOF. The state: reset, the invariant, and commands as transitions of one channel (10_state.md). -/

open Sys2Proof Sys2Proof.Machine

/-- Settles O14: the state a command leaves differs from the one before only in what its run may write. -/
theorem frameOutsideChannelAndInputs : Obligations.FrameOutsideChannelAndInputs := by
  intro i s t h
  rw [exec_eq_runCommand] at h
  obtain ⟨o, w, -, rfl⟩ := runCommand_next_iff.1 h
  exact ⟨by simp [OnlyChannel], by simp [InputsKept, State.inByte]⟩

/-- Settles O17: a command's run reads and writes its own channel alone. -/
theorem channelsCommute : Obligations.ChannelsCommute := by
  intro i j s t u hne ht hu
  simp only [exec_eq_runCommand, Chan.eq_other_of_ne hne] at ht hu ⊢
  exact runCommand_comm ht hu

/-- Settles O10, by the host's next action: a command, another access, or reset. -/
theorem stepKeepsGood : Obligations.StepKeepsGood := by
  intro s t h ht
  cases hhost : s.host with
  | nil =>
    cases (step_nil hhost).symm.trans ht
    exact h
  | cons a rest => exact good_hostAct (s := { s with host := rest }) h ((step_cons hhost).symm.trans ht)

/-- Settles O4: the second clause is the first at the word's zero-extension, of which `CMD` takes the low half. -/
theorem stepRunsDecodedCommand : Obligations.StepRunsDecodedCommand := by
  refine ⟨fun _ _ _ _ _ => step_write_cmd, fun s w i hi => ?_⟩
  exact step_write_cmd (s := s.withFetchWord 32 w.toNat) rfl rfl (by rwa [low32_placedWord])

/-- Settles O8: the step is `resetBlock`, each of whose fields is the table's value. -/
theorem resetLeavesTableValues : Obligations.ResetLeavesTableValues := by
  intro s rest hhost
  refine ⟨resetBlock { s with host := rest }, step_cons hhost, rfl, rfl, fun c => ?_, rfl, rfl, rfl, fun i => ?_,
    rfl, rfl, rfl⟩
  · rw [resetBlock_port]
    exact ⟨by cases c <;> rfl, fun _ => Vector.getElem_replicate _, fun _ => Vector.getElem_replicate _, rfl, rfl, rfl,
      status_resetBlock _ c, fun _ => ⟨rfl, rfl, rfl⟩⟩
  · exact ⟨Vector.getElem_replicate _, Vector.getElem_replicate _⟩

/-- Settles O9: reset leaves engines and channels good under every configuration, and the reference one meets
00_scope.md R7. -/
theorem resetStateIsGood : Obligations.ResetStateIsGood :=
  ⟨wf_referenceCfg, fastGood_afterReset _, secureGood_afterReset _, portGood_afterReset _ _ _, portGood_afterReset _ _ _⟩
end

section
/-! SUPPORT. Which memory elements a command's run can have stored to (20_memory.md R82, R86). -/

namespace Sys2Proof.Machine

/-! ### The memories a run leaves, read element by element -/

section
variable {s : State} {c : Chan} {o : Option Reply} {w : Work}

theorem State.cell_leave {a : Nat} (h : Mem.written w.buf a = Mem.written (s.port c).buf a) :
    (s.leave c o w).cell c a = s.cell c a := by simp [State.cell, cellAt, h]

theorem State.outByte_leave {a : Nat} (h : Mem.written w.obuf a = Mem.written (s.port c).obuf a) :
    (s.leave c o w).outByte c a = s.outByte c a := by simp [State.outByte, outByteAt, h]

/-- A run that leaves its channel idle answered, and the outcome registers are its reply's. -/
theorem State.reply_of_leave_idle (h : ((s.leave c o w).port c).busy = false) :
    ∃ r, o = some r ∧ ((s.leave c o w).port c).ok = r.okFlag ∧ ((s.leave c o w).port c).res = r.results := by
  cases o with
  | none => simp [State.leave] at h
  | some r => exact ⟨r, rfl, by simp [State.leave], by simp [State.leave]⟩

end

/-! ### Every command's stores -/

/-- A run of `i` from `s` that ended so with the work `w` stored only to elements R86 lets `i` store to, and to none
where it failed. -/
structure StoresNamed (i : Instr) (s : State) (o : Option Reply) (w : Work) : Prop where
  buf : ∀ a, ¬ bufStores i s a → Mem.written w.buf a = Mem.written (s.port i.chan).buf a
  obuf : ∀ a, ¬ outStores i s a → Mem.written w.obuf a = Mem.written (s.port i.chan).obuf a
  failed : ∀ r, o = some r → r.okFlag = false →
    ∀ a, Mem.written w.buf a = Mem.written (s.port i.chan).buf a ∧
      Mem.written w.obuf a = Mem.written (s.port i.chan).obuf a

theorem storesNamed_of_same {i : Instr} {s : State} {o : Option Reply} {w : Work} (hbuf : w.buf = (s.port i.chan).buf)
    (hobuf : w.obuf = (s.port i.chan).obuf) : StoresNamed i s o w :=
  ⟨fun _ _ => by rw [hbuf], fun _ _ => by rw [hobuf], fun _ _ _ _ => by rw [hbuf, hobuf]; exact ⟨rfl, rfl⟩⟩

/-- The commands that can fail after their draws, with `ERR_RETRY`, store nothing (44_geometry.md R264). -/
theorem no_stores_of_retry {i : Instr} (s : State) (h : Err.retry ∈ failureCodes i) (a : Nat) :
    ¬ bufStores i s a ∧ ¬ outStores i s a := by
  cases i with
  | pointInSphere c => exact ⟨id, id⟩
  | pointOnSphere c => exact ⟨id, id⟩
  | zeroize c => cases c <;> simp [failureCodes] at h
  | randomBytes c => cases c <;> simp [failureCodes] at h
  | uuidV4 c => cases c <;> simp [failureCodes] at h
  | _ => simp [failureCodes] at h

theorem storesNamed_of_moved {i : Instr} {s : State} {o : Option Reply} {w : Work}
    (hm : Moved (s.ctx i.chan) (bufStores i s) (outStores i s) (s.work i.chan) w) (ho : ∀ r, o = some r → ReplyOf i r) :
    StoresNamed i s o w := by
  refine ⟨hm.buf, hm.obuf, fun r hr hfail a => ?_⟩
  obtain hok | ⟨hretry, -⟩ := ho r hr
  · rw [hok] at hfail
    cases hfail
  · obtain ⟨hbuf, hobuf⟩ := no_stores_of_retry s hretry a
    exact ⟨hm.buf a hbuf, hm.obuf a hobuf⟩

theorem BodyFrame.storesNamed {i : Instr} {s : State} {codes : List Err} {v : W64} {m : Cmd Reply} {o : Option Reply}
    {w : Work} (hf : BodyFrame (s.ctx i.chan) (bufStores i s) (outStores i s) codes v (ReplyOf i) m)
    (hw : m (s.work i.chan) = Res.ending o w) : StoresNamed i s o w := by
  obtain ⟨e, -, he⟩ | hk := hf (s.work i.chan)
  · obtain rfl := work_eq_of_ok_eq_ending (he.symm.trans hw)
    exact storesNamed_of_same rfl rfl
  · rw [hw] at hk
    cases o with
    | none => exact storesNamed_of_moved hk nofun
    | some r =>
      obtain ⟨hm, hr⟩ := hk
      exact storesNamed_of_moved hm fun r' h => Option.some.inj h ▸ hr

/-- Every command stores within the elements its operands name: `SEED` and `ZEROIZE` touch no memory, the others keep to
their frame. -/
theorem exec_storesNamed {i : Instr} {s t : State} (h : exec i s = .next t) :
    ∃ o w, t = s.leave i.chan o w ∧ StoresNamed i s o w := by
  by_cases hseed : ∃ c, i = .seed c
  · obtain ⟨c, rfl⟩ := hseed
    cases h
    exact ⟨some okNone, _, rfl, storesNamed_of_same rfl rfl⟩
  by_cases hzeroize : i = .zeroize .S
  · subst hzeroize
    cases h
    exact ⟨some okNone, _, rfl, storesNamed_of_same rfl rfl⟩
  obtain ⟨-, hillegal⟩ | ⟨body, hrun, hframe⟩ := exec_frame i s (fun c hc => hseed ⟨c, hc⟩) hzeroize
  · cases hillegal.symm.trans h
    exact ⟨_, _, State.complete_eq_leave _ _ _, storesNamed_of_same rfl rfl⟩
  · obtain ⟨o, w, hw, rfl⟩ := runCommand_next_iff.1 (hrun.symm.trans h)
    exact ⟨o, w, rfl, hframe.storesNamed hw⟩

/-! ### `PATTERN_FORMAT` writes nothing above its terminator -/

theorem Keeps.obuf_of_ok {α : Type} {k : Ctx} {B O : Nat → Prop} {P : α → Prop} {m : Cmd α} {w w' : Work} {x : α}
    (hm : Keeps k B O P m) (h : m w = .ok x w') {a : Nat} (ha : ¬ O a) :
    Mem.written w'.obuf a = Mem.written w.obuf a := by
  have hk := hm w
  rw [h] at hk
  exact hk.1.obuf a ha

theorem obuf_of_writeOut {k : Ctx} {i a : Nat} {b : Byte} {w w' : Work} {u : Unit} (h : writeOut k i b w = .ok u w')
    (ha : a ≠ i) : Mem.written w'.obuf a = Mem.written w.obuf a := by
  unfold writeOut at h
  split at h
  · cases h
    exact Mem.written_write_other _ _ _ _ ha
  · cases h

/-- The loop writes below the output position it ends at. -/
theorem obuf_of_patternLoop {k : Ctx} {room p o o' : Nat} {w w' : Work} (h : patternLoop k room p o w = .ok o' w') :
    o ≤ o' ∧ ∀ a, o' ≤ a → Mem.written w'.obuf a = Mem.written w.obuf a := by
  induction room generalizing p o w with
  | zero =>
    cases h
    exact ⟨Nat.le_refl _, fun _ _ => rfl⟩
  | succ room ih =>
    have write_then : ∀ {b q w₁}, (andThen (writeOut k o b) fun _ => patternLoop k room q (o + 1)) w₁ = .ok o' w' →
        o ≤ o' ∧ ∀ a, o' ≤ a → Mem.written w'.obuf a = Mem.written w₁.obuf a := by
      intro b q w₁ h
      obtain ⟨_, w₂, hwrite, hloop⟩ := andThen_ok_inv h
      obtain ⟨hle, hkept⟩ := ih hloop
      exact ⟨by omega, fun a ha => (hkept a ha).trans (obuf_of_writeOut hwrite (by omega))⟩
    obtain ⟨ch, w₁, hch, h⟩ := andThen_ok_inv h
    have hkept : ∀ a, Mem.written w₁.obuf a = Mem.written w.obuf a := fun a =>
      (keeps_patternAt k nowhere nowhere p).obuf_of_ok hch id
    cases ch with
    | none =>
      cases h
      exact ⟨Nat.le_refl _, fun a _ => hkept a⟩
    | some ch =>
      dsimp only at h
      split at h
      · obtain ⟨lit, w₂, hlit, h⟩ := andThen_ok_inv h
        have hkept' : ∀ a, Mem.written w₂.obuf a = Mem.written w₁.obuf a := fun a =>
          (keeps_patternAt k nowhere nowhere _).obuf_of_ok hlit id
        cases lit with
        | none =>
          cases h
          exact ⟨Nat.le_refl _, fun a _ => (hkept' a).trans (hkept a)⟩
        | some b =>
          obtain ⟨hle, hloop⟩ := write_then h
          exact ⟨hle, fun a ha => ((hloop a ha).trans (hkept' a)).trans (hkept a)⟩
      · obtain ⟨b, w₂, hb, h⟩ := andThen_ok_inv h
        have hkept' : ∀ a, Mem.written w₂.obuf a = Mem.written w₁.obuf a := fun a =>
          (keeps_patternChar k nowhere nowhere ch).obuf_of_ok hb id
        obtain ⟨hle, hloop⟩ := write_then h
        exact ⟨hle, fun a ha => ((hloop a ha).trans (hkept' a)).trans (hkept a)⟩

/-- An index below `2^31` is its own `i32` result (30_encoding.md R106). -/
theorem toNat_sext64_asU32 {n : Nat} (h : n < 2 ^ 31) : (sext64 (asU32 n)).toNat = n := by
  rw [sext64, asU32, BitVec.ofInt_natCast, BitVec.signExtend_eq_setWidth_of_msb_false, BitVec.toNat_setWidth,
    BitVec.toNat_ofNat]
  · omega
  · rw [BitVec.msb_eq_false_iff_two_mul_lt, BitVec.toNat_ofNat]
    omega

/-- `RES1` of a completed `PATTERN_FORMAT` is the index of its terminator (43_distribution.md R213), the last byte it
writes; a failure writes none. -/
theorem obuf_of_patternFormatBody {k : Ctx} {r : Reply} {w w' : Work} (h : patternFormatBody k w = .ok r w') {a : Nat}
    (ha : r.results[1].toNat < a) : Mem.written w'.obuf a = Mem.written w.obuf a := by
  unfold patternFormatBody at h
  split at h
  · cases h
    rfl
  · obtain ⟨o, w₁, hloop, h⟩ := andThen_ok_inv h
    obtain ⟨_, w₂, hwrite, h⟩ := andThen_ok_inv h
    cases h
    have hcap := argI32_lt k 0
    have hroom : o ≤ 0 + (argI32 k 0 - 1).toNat := by
      have hk := keeps_patternLoop (k := k) (room := (argI32 k 0 - 1).toNat) (p := 0) (o := 0) nowhere
        (O := fun _ => True) (by omega) (fun _ _ _ => trivial) w
      rw [hloop] at hk
      exact hk.2.2
    have hres : (Reply.done 1#64 (sext64 (asU32 o)) 0#64 0#64).results[1].toNat = o :=
      toNat_sext64_asU32 (by omega)
    rw [hres] at ha
    exact (obuf_of_writeOut hwrite (by omega)).trans ((obuf_of_patternLoop hloop).2 a (by omega))

theorem outByte_patternFormat {c : Chan} {s t : State} (h : exec (.patternFormat c) s = .next t)
    (hidle : (t.port c).busy = false) {a : Nat} (ha : (t.port c).res[1].toNat < a) :
    t.outByte c a = s.outByte c a := by
  obtain ⟨o, w, hw, rfl⟩ := runCommand_next_iff.1 ((exec_eq_runCommand _ _).symm.trans h)
  obtain ⟨r, rfl, -, hres⟩ := State.reply_of_leave_idle hidle
  exact State.outByte_leave (obuf_of_patternFormatBody hw (hres ▸ ha))

end Sys2Proof.Machine
end

section
/-! SUPPORT. The host's accesses: the register numbers, the fields of `STATUS`, and what a read answers and a write
changes on an idle channel (20_memory.md R83, R87). -/

namespace Sys2Proof.Machine

/-! ### Register numbers -/

theorem argIndex_arg (i : Fin 8) : argIndex (0x08 + i) = some i := by
  rw [argIndex, dif_pos (by omega)]
  simp

theorem argIndex_eq_none {n : Nat} (h : n < 0x08 ∨ 0x10 ≤ n) : argIndex n = none := dif_neg (by omega)

theorem resIndex_res (i : Fin 4) : resIndex (0x10 + i) = some i := by
  rw [resIndex, dif_pos (by omega)]
  simp

theorem resIndex_eq_none {n : Nat} (h : n < 0x10 ∨ 0x14 ≤ n) : resIndex n = none := dif_neg (by omega)

theorem readRegister_arg (p : Port) (i : Fin 8) : readRegister p (0x08 + i) = p.arg[i] := by
  rw [readRegister, argIndex_arg]

theorem readRegister_res (p : Port) (i : Fin 4) : readRegister p (0x10 + i) = p.res[i] := by
  rw [readRegister, argIndex_eq_none (by omega), resIndex_res]

/-- `CMD` is write-only, and reserved numbers read 0 (20_memory.md R87). -/
theorem readRegister_eq_zero (p : Port) {n : Nat} (h : n < 0x08 ∨ 0x14 ≤ n) : readRegister p n = 0#64 := by
  rw [readRegister, argIndex_eq_none (by omega), resIndex_eq_none (by omega)]

/-! ### The fields of `STATUS` -/

section
variable (seeded : Bool) (err : BitVec 4) (ok busy : Bool)

/-- `STATUS` as the host reads it, bit by bit (10_state.md R44). -/
theorem getLsbD_packStatus (i : Nat) : (zext64 (packStatus seeded err ok busy)).getLsbD i =
    if i = 0 then busy else if i = 1 then ok else if i < 4 then false else if i < 8 then err.getLsbD (i - 4)
    else decide (i = 8) && seeded := by
  simp only [zext64, packStatus, BitVec.getLsbD_setWidth, BitVec.getLsbD_append, BitVec.getLsbD_ofBool,
    BitVec.getLsbD_zero]
  obtain rfl | rfl | hlow | herr | rfl | hhigh :
      i = 0 ∨ i = 1 ∨ (2 ≤ i ∧ i < 4) ∨ (4 ≤ i ∧ i < 8) ∨ i = 8 ∨ 9 ≤ i := by omega
  · simp
  · simp
  · grind
  · grind
  · simp
  · grind

theorem err_packStatus : (zext64 (packStatus seeded err ok busy)).extractLsb' 4 4 = err := by
  ext i hi
  rw [BitVec.getElem_extractLsb', getLsbD_packStatus, if_neg (by omega), if_neg (by omega), if_neg (by omega),
    if_pos (by omega), Nat.add_sub_cancel_left, BitVec.getLsbD_eq_getElem hi]

/-- The reserved bits between the fields and above them read 0. -/
theorem zeros_packStatus : (zext64 (packStatus seeded err ok busy)).extractLsb' 2 2 = 0#2 ∧
    (zext64 (packStatus seeded err ok busy)).extractLsb' 9 55 = 0#55 := by
  constructor
  · ext i hi
    rw [BitVec.getElem_extractLsb', getLsbD_packStatus]
    grind
  · ext i hi
    rw [BitVec.getElem_extractLsb', getLsbD_packStatus]
    grind
end

theorem hostRead_status (c : Chan) (s : State) : hostRead c (.reg 0x01) s = zext64 (s.status c) := by
  simp [hostRead, regStatus]

theorem status_of_idle {c : Chan} {s : State} (h : (s.port c).busy = false) :
    s.status c = packStatus (s.engine c).seededFlag (s.port c).err.number (s.port c).ok false := by
  simp [State.status, h]

/-! ### Accesses to an idle channel -/

theorem State.setCell_eq_setPort (s : State) (c : Chan) (i : Nat) (v : W64) :
    s.setCell c i v = s.setPort c { s.port c with buf := Mem.write (s.port c).buf i v } := by cases c <;> rfl

theorem State.setOut_eq_setPort (s : State) (c : Chan) (i : Nat) (v : Byte) :
    s.setOut c i v = s.setPort c { s.port c with obuf := Mem.write (s.port c).obuf i v } := by cases c <;> rfl

/-- Reading an `IBUF` byte after writing one. -/
theorem inByteAt_write (c : Chan) (n : Nat) (m : Mem 8) (i j : Nat) (v : Byte) :
    inByteAt c n (Mem.write m i v) j = if j = i then v else inByteAt c n m j := by
  unfold inByteAt
  rw [Mem.written_write]
  split <;> rfl

section
variable {c : Chan} {s : State} (h : (s.port c).busy = false)
include h

theorem hostRead_reg {n : Nat} (hn : n ≠ 0x01) : hostRead c (.reg n) s = readRegister (s.port c) n := by
  simp [hostRead, regStatus, hn, h]

theorem hostRead_buf (i : Nat) : hostRead c (.buf i) s = if i < s.cfg.maxElems then s.cell c i else 0#64 := by
  simp [hostRead, h, State.cell]

theorem hostRead_ibuf (i : Nat) :
    hostRead c (.ibuf i) s = if i < s.cfg.maxBytes then (s.inByte c i).setWidth 64 else 0#64 := by
  simp [hostRead, h, State.inByte]

theorem hostRead_obuf (i : Nat) :
    hostRead c (.obuf i) s = if i < s.cfg.maxBytes then (s.outByte c i).setWidth 64 else 0#64 := by
  simp [hostRead, h, State.outByte]

theorem hostWrite_element {loc : Loc} (hloc : loc ≠ .reg 0x00) (v : W64) :
    hostWrite c loc v s = .next (s.setPort c (writeElement s.cfg (s.port c) loc v)) := by
  simp [hostWrite, regCmd, hloc, h]

theorem hostWrite_arg (i : Fin 8) (v : W64) : hostWrite c (.reg (0x08 + i)) v s =
    .next (s.setPort c { s.port c with arg := (s.port c).arg.set i v }) := by
  rw [hostWrite_element h (by simp), writeElement, argIndex_arg]

/-- Writes to `STATUS`, to `RES` and to reserved numbers are dropped. -/
theorem hostWrite_dropped {n : Nat} (hn : (1 ≤ n ∧ n < 0x08) ∨ 0x10 ≤ n) (v : W64) :
    hostWrite c (.reg n) v s = .next s := by
  rw [hostWrite_element h (by simp; omega), writeElement, argIndex_eq_none (by omega), State.setPort_self]

theorem hostWrite_buf (i : Nat) (v : W64) :
    hostWrite c (.buf i) v s = .next (if i < s.cfg.maxElems then s.setCell c i v else s) := by
  rw [hostWrite_element h (by simp), writeElement]
  split
  · rw [State.setCell_eq_setPort]
  · rw [State.setPort_self]

theorem hostWrite_obuf (i : Nat) (v : W64) :
    hostWrite c (.obuf i) v s = .next (if i < s.cfg.maxBytes then s.setOut c i (v.setWidth 8) else s) := by
  rw [hostWrite_element h (by simp), writeElement]
  split
  · rw [State.setOut_eq_setPort]
  · rw [State.setPort_self]

theorem hostWrite_ibuf (i : Nat) (v : W64) : hostWrite c (.ibuf i) v s = .next (s.setPort c { s.port c with
    ibuf := if i < s.cfg.maxBytes then Mem.write (s.port c).ibuf i (v.setWidth 8) else (s.port c).ibuf }) := by
  rw [hostWrite_element h (by simp), writeElement]
  split <;> rfl

theorem hostRead_status_fields :
    (hostRead c (.reg 0x01) s).getLsbD 0 = false ∧ (hostRead c (.reg 0x01) s).getLsbD 1 = (s.port c).ok ∧
    (hostRead c (.reg 0x01) s).extractLsb' 2 2 = 0#2 ∧
    (hostRead c (.reg 0x01) s).extractLsb' 4 4 = (s.port c).err.number ∧
    (hostRead c (.reg 0x01) s).getLsbD 8 = (s.engine c).seededFlag ∧
    (hostRead c (.reg 0x01) s).extractLsb' 9 55 = 0#55 := by
  rw [hostRead_status, status_of_idle h]
  obtain ⟨hlow, hhigh⟩ := zeros_packStatus (s.engine c).seededFlag (s.port c).err.number (s.port c).ok false
  exact ⟨getLsbD_packStatus _ _ _ _ 0, getLsbD_packStatus _ _ _ _ 1, hlow, err_packStatus _ _ _ _,
    getLsbD_packStatus _ _ _ _ 8, hhigh⟩

end

/-- The `IBUF` byte a host writes is the one that changes. -/
theorem inByte_setPort_ibuf (s : State) (c : Chan) (i a : Nat) (v : Byte) : (s.setPort c { s.port c with
    ibuf := if i < s.cfg.maxBytes then Mem.write (s.port c).ibuf i v else (s.port c).ibuf }).inByte c a =
      if a = i ∧ i < s.cfg.maxBytes then v else s.inByte c a := by
  rw [State.inByte, State.setPort_port]
  by_cases hi : i < s.cfg.maxBytes
  · simp [hi, inByteAt_write, State.inByte]
  · simp [hi, State.inByte]

end Sys2Proof.Machine
end

section
/-! PROOF. The memories: what commands store and what the host reads and writes (20_memory.md R83, R86, R87). -/

open Sys2Proof Sys2Proof.Machine

/-- Settles O15: every command's run stores only to elements it names, and `PATTERN_FORMAT`'s loop stays below the
terminator. -/
theorem storesStayWithinNamedElements : Obligations.StoresStayWithinNamedElements := by
  intro i s t h
  obtain ⟨o, w, rfl, hw⟩ := exec_storesNamed h
  refine ⟨fun a ha => State.cell_leave (hw.buf a ha), fun a ha => State.outByte_leave (hw.obuf a ha),
    fun hidle hfail => ?_, fun hidle hi a ha => ?_⟩
  · obtain ⟨r, rfl, hok, -⟩ := State.reply_of_leave_idle hidle
    have hkept := hw.failed r rfl (hok.symm.trans hfail)
    exact ⟨fun a => State.cell_leave (hkept a).1, fun a => State.outByte_leave (hkept a).2⟩
  · exact outByte_patternFormat (hi ▸ h) hidle ha

/-- Settles O58: a step is its host action, and an access to an idle channel is its register's or its memory's. -/
theorem hostReadsAndWrites : Obligations.HostReadsAndWrites := by
  refine ⟨fun _ => step_nil, fun _ _ _ _ _ => step_cons, fun _ _ _ _ => step_cons, fun s c h => ?_, fun s c v h => ?_⟩
  · obtain ⟨hbusy, hok, hlow, herr, hseeded, hhigh⟩ := hostRead_status_fields h
    refine ⟨?_, hbusy, hok, hlow, herr, hseeded, hhigh, fun i => ?_, fun i => ?_, fun n hn => ?_, hostRead_buf h,
      hostRead_ibuf h, hostRead_obuf h⟩
    · rw [hostRead_reg h (by omega), readRegister_eq_zero _ (by omega)]
    · rw [hostRead_reg h (by omega), readRegister_arg]
    · rw [hostRead_reg h (by omega), readRegister_res]
    · rw [hostRead_reg h (by omega), readRegister_eq_zero _ (by omega)]
  · refine ⟨fun i => hostWrite_arg h i v, fun n hn => hostWrite_dropped h hn v, fun i => hostWrite_buf h i v,
      fun i => hostWrite_obuf h i v, fun i => ⟨_, hostWrite_ibuf h i v, fun a => inByte_setPort_ibuf s c i a _, ?_⟩⟩
    rw [State.setPort_port]
end

section
/-! SUPPORT. The decoder and the encoder of command words: the two fields, the opcode map, the commands no channel `F`
has, and when a word decodes (30_encoding.md R101 to R104). -/

namespace Sys2Proof

/-! ### The fields of a command word -/

theorem toNat_opcField (w : W32) : (opcField w).toNat = w.toNat % 2 ^ 8 := by
  rw [opcField, BitVec.extractLsb'_toNat, Nat.shiftRight_zero]

theorem rsvField_eq_zero_iff {w : W32} : rsvField w = 0 ↔ w.toNat < 2 ^ 8 := by
  rw [← BitVec.toNat_inj, rsvField, BitVec.extractLsb'_toNat, Nat.shiftRight_eq_div_pow]
  have hw : w.toNat < 2 ^ 32 := w.isLt
  simp only [BitVec.toNat_zero, BitVec.ofNat_eq_ofNat]
  omega

/-- Format `C` has the two fields and nothing else (30_encoding.md R101). -/
theorem packCommand_eq_iff {rsv : BitVec 24} {opc : BitVec 8} {w : W32} :
    packCommand rsv opc = w ↔ rsvField w = rsv ∧ opcField w = opc := by
  constructor
  · rintro rfl
    exact ⟨BitVec.extractLsb'_append_eq_left, BitVec.extractLsb'_append_eq_right⟩
  · rintro ⟨rfl, rfl⟩
    exact (BitVec.extractLsb'_append_extractLsb'_eq_extractLsb' rfl).trans BitVec.extractLsb'_eq_self

/-! ### The opcode map -/

/-- The map and the column `OPC` of the opcode table are the same 29 rows (30_encoding.md R102). -/
theorem ofOpcode_eq_some_iff {c : Chan} {opc : BitVec 8} {i : Instr} :
    ofOpcode c opc = some i ↔ i.chan = c ∧ opcodeOf i = opc := by
  constructor
  · intro h
    unfold ofOpcode at h
    split at h <;> cases h
    all_goals exact ⟨rfl, (BitVec.eq_of_toNat_eq ‹opc.toNat = _›).symm⟩
  · rintro ⟨rfl, rfl⟩
    cases i <;> rfl

theorem ofOpcode_eq_none_iff {c : Chan} {opc : BitVec 8} :
    ofOpcode c opc = none ↔ opc.toNat = 0 ∨ (0x06 ≤ opc.toNat ∧ opc.toNat ≤ 0x0F) ∨
      (0x1D ≤ opc.toNat ∧ opc.toNat ≤ 0x1F) ∨ 0x2B ≤ opc.toNat := by
  unfold ofOpcode
  split
  all_goals
    simp only [reduceCtorEq, true_iff, false_iff, imp_false] at *
    omega

/-- The commands that channel `F` has not (30_encoding.md R103). -/
theorem wellFormed_eq_false_iff {i : Instr} :
    i.wellFormed = false ↔ i = .zeroize .F ∨ i = .randomBytes .F ∨ i = .uuidV4 .F := by
  constructor
  · intro h
    cases i with
    | zeroize c => cases c with
      | F => exact .inl rfl
      | S => cases h
    | randomBytes c => cases c with
      | F => exact .inr (.inl rfl)
      | S => cases h
    | uuidV4 c => cases c with
      | F => exact .inr (.inr rfl)
      | S => cases h
    | _ => cases h
  · rintro (rfl | rfl | rfl) <;> rfl

theorem ofOpcode_illFormed_iff {c : Chan} {opc : BitVec 8} :
    (∃ i, ofOpcode c opc = some i ∧ i.wellFormed = false) ↔
      c = .F ∧ (opc.toNat = 0x05 ∨ opc.toNat = 0x1B ∨ opc.toNat = 0x1C) := by
  simp only [ofOpcode_eq_some_iff, wellFormed_eq_false_iff, ← BitVec.toNat_inj]
  constructor
  · rintro ⟨i, ⟨rfl, hopc⟩, rfl | rfl | rfl⟩
    · exact ⟨rfl, .inl hopc.symm⟩
    · exact ⟨rfl, .inr (.inl hopc.symm)⟩
    · exact ⟨rfl, .inr (.inr hopc.symm)⟩
  · rintro ⟨rfl, hopc | hopc | hopc⟩
    · exact ⟨.zeroize .F, ⟨rfl, hopc.symm⟩, .inl rfl⟩
    · exact ⟨.randomBytes .F, ⟨rfl, hopc.symm⟩, .inr (.inl rfl)⟩
    · exact ⟨.uuidV4 .F, ⟨rfl, hopc.symm⟩, .inr (.inr rfl)⟩

/-! ### Decoding -/

section
variable {c : Chan} {w : W32} {i : Instr}

theorem decode_of_reserved (c : Chan) (h : rsvField w ≠ 0) : decode c w = .error .reservedBits := if_pos h

theorem decode_of_unassigned (h : rsvField w = 0) (hrow : ofOpcode c (opcField w) = none) :
    decode c w = .error .unassignedOpcode := by
  rw [decode, if_neg (not_not.2 h), hrow]

theorem decode_of_row (h : rsvField w = 0) (hrow : ofOpcode c (opcField w) = some i) :
    decode c w = if i.wellFormed then .ok i else .error .wrongChannel := by
  rw [decode, if_neg (not_not.2 h), hrow]

/-- 30_encoding.md R102: the word's row exists, its upper bits are zero and its channel is in the row's column. -/
theorem decode_eq_ok_iff :
    decode c w = .ok i ↔ rsvField w = 0 ∧ ofOpcode c (opcField w) = some i ∧ i.wellFormed = true := by
  constructor
  · intro h
    by_cases hrsv : rsvField w = 0
    · cases hrow : ofOpcode c (opcField w) with
      | none => cases (decode_of_unassigned hrsv hrow).symm.trans h
      | some j =>
        rw [decode_of_row hrsv hrow] at h
        split at h <;> cases h
        exact ⟨hrsv, rfl, ‹_›⟩
    · cases (decode_of_reserved c hrsv).symm.trans h
  · rintro ⟨hrsv, hrow, hwf⟩
    rw [decode_of_row hrsv hrow, if_pos hwf]

/-- The three cases of 30_encoding.md R104. -/
theorem decode_eq_error_iff :
    (∃ e, decode c w = .error e) ↔ rsvField w ≠ 0 ∨ ofOpcode c (opcField w) = none ∨
      ∃ i, ofOpcode c (opcField w) = some i ∧ i.wellFormed = false := by
  by_cases hrsv : rsvField w = 0
  · cases hrow : ofOpcode c (opcField w) with
    | none => simp [decode_of_unassigned hrsv hrow]
    | some j => cases hwf : j.wellFormed <;> simp [decode_of_row hrsv hrow, hrsv, hwf]
  · simp only [decode_of_reserved c hrsv, ne_eq, hrsv, not_false_eq_true, true_or, iff_true]
    exact ⟨_, rfl⟩

theorem encode_eq_iff : encode i = (c, w) ↔ i.chan = c ∧ rsvField w = 0 ∧ opcField w = opcodeOf i := by
  rw [encode, Prod.mk.injEq, packCommand_eq_iff]

/-- The encoder gives a legal command's word and `decode` reads nothing else (30_encoding.md R101 to R103). -/
theorem decode_eq_ok_iff_encode : decode c w = .ok i ↔ i.wellFormed = true ∧ encode i = (c, w) := by
  calc decode c w = .ok i
      ↔ rsvField w = 0 ∧ (i.chan = c ∧ opcodeOf i = opcField w) ∧ i.wellFormed = true := by
        rw [decode_eq_ok_iff, ofOpcode_eq_some_iff]
    _ ↔ i.wellFormed = true ∧ i.chan = c ∧ rsvField w = 0 ∧ opcField w = opcodeOf i := by
        rw [eq_comm (a := opcodeOf i)]
        tauto
    _ ↔ i.wellFormed = true ∧ encode i = (c, w) := by rw [encode_eq_iff]

end

end Sys2Proof
end

section
/-! SUPPORT. Illegal words and ill-formed commands, and what each does when it is run (30_encoding.md R104). -/

namespace Sys2Proof.Machine

/-- An illegal word, by R104's cases and by its ranges: below `2^8` a word is its own opcode. -/
theorem decode_error_iff_illegalWord {c : Chan} {w : W32} : (∃ e, decode c w = .error e) ↔ IllegalWord c w := by
  rw [decode_eq_error_iff, ofOpcode_eq_none_iff, ofOpcode_illFormed_iff, ne_eq, rsvField_eq_zero_iff, toNat_opcField,
    IllegalWord]
  by_cases hw : w.toNat < 2 ^ 8
  · rw [Nat.mod_eq_of_lt hw]
    have hlow : ¬ 256 ≤ w.toNat := not_le.2 hw
    tauto
  · exact iff_of_true (.inl hw) (.inl (not_lt.1 hw))

/-- The host writes a word that is no command to an idle channel (30_encoding.md R104). -/
theorem step_write_illegal {s : State} {c : Chan} {v : W64} {rest : List HostAction} {e : Illegal}
    (hhost : s.host = .write c (.reg regCmd) v :: rest) (hidle : (s.port c).busy = false)
    (he : decode c (low32 v) = .error e) : step s = illegalCommand c { s with host := rest } := by
  have hidle' : (State.port { s with host := rest } c).busy = false := by cases c <;> exact hidle
  rw [step_cons hhost]
  simp [hostAct, hostWrite, startCommand, hidle', he]

theorem exec_of_illFormed {i : Instr} (h : i.wellFormed = false) (s : State) : exec i s = illegalCommand i.chan s := by
  obtain rfl | rfl | rfl := wellFormed_eq_false_iff.1 h <;> rfl

theorem chan_of_illFormed {i : Instr} (h : i.wellFormed = false) : i.chan = .F := by
  obtain rfl | rfl | rfl := wellFormed_eq_false_iff.1 h <;> rfl

end Sys2Proof.Machine
end

section
/-! PROOF. Encoding: what the command words mean, and what a word that means nothing does (30_encoding.md). -/

open Sys2Proof Sys2Proof.Machine

/-- Settles O1: the opcode map is the table's column read backwards, and a word is its two fields. -/
theorem decodeExactlyInvertsEncode : Obligations.DecodeExactlyInvertsEncode :=
  fun _ _ _ => decode_eq_ok_iff_encode

/-- Settles O2: all three clauses end in the one failure of `illegalCommand`. -/
theorem illegalWordOnlyReports : Obligations.IllegalWordOnlyReports := by
  refine ⟨fun _ _ => decode_error_iff_illegalWord, fun s c v rest hhost hidle hv => ?_, fun s i hi => ?_⟩
  · obtain ⟨e, he⟩ := decode_error_iff_illegalWord.2 hv
    exact ⟨_, step_write_illegal hhost hidle he, onlyReports_complete c .illegal 0#64 _⟩
  · exact ⟨chan_of_illFormed hi, _, exec_of_illFormed hi s, onlyReports_complete i.chan .illegal 0#64 s⟩

/-- Settles O3: each word is the encoding of its row's command. -/
theorem decodedWordsOfEachFamily : Obligations.DecodedWordsOfEachFamily := by
  unfold Obligations.DecodedWordsOfEachFamily
  simp only [decode_eq_ok_iff_encode]
  decide
end

section
/-! SUPPORT. What a run of any command but `SEED` and `ZEROIZE` does to its engine: a number of draws
(40_bounded_sampler.md R120). -/

namespace Sys2Proof.Machine

theorem KeptTo.moved {k : Ctx} {B O : Nat → Prop} {P : Reply → Prop} {w w' : Work} {o : Option Reply}
    (hk : KeptTo k B O P w (Res.ending o w')) : Moved k B O w w' := by
  cases o with
  | none => exact hk
  | some r => exact hk.1

/-- A run that fails at once moved nothing. -/
theorem BodyFrame.moved {k : Ctx} {B O : Nat → Prop} {codes : List Err} {v : W64} {P : Reply → Prop} {m : Cmd Reply}
    {w w' : Work} {o : Option Reply} (hf : BodyFrame k B O codes v P m) (hw : m w = Res.ending o w') :
    Moved k B O w w' := by
  obtain ⟨e, -, he⟩ | hk := hf w
  · exact work_eq_of_ok_eq_ending (he.symm.trans hw) ▸ Moved.refl k B O w
  · exact KeptTo.moved (hw ▸ hk)

theorem exec_moved {i : Instr} {s t : State} (hseed : ∀ c, i ≠ .seed c) (hzeroize : i ≠ .zeroize .S)
    (h : exec i s = .next t) : ∃ o w, t = s.leave i.chan o w ∧
      Moved (s.ctx i.chan) (bufStores i s) (outStores i s) (s.work i.chan) w := by
  obtain ⟨-, hillegal⟩ | ⟨body, hrun, hframe⟩ := exec_frame i s hseed hzeroize
  · cases hillegal.symm.trans h
    exact ⟨_, _, State.complete_eq_leave _ _ _, Moved.refl _ _ _ _⟩
  · obtain ⟨o, w, hw, rfl⟩ := runCommand_next_iff.1 (hrun.symm.trans h)
    exact ⟨o, w, rfl, hframe.moved hw⟩

theorem State.leave_env (s : State) (c : Chan) (o : Option Reply) (w : Work) : (s.leave c o w).env c = w.env := by
  cases o <;> simp [State.leave]

/-- Draws keep the engine's kind, so the engine written back is the one the run reached. -/
theorem Moved.drewWords {s : State} {c : Chan} {B O : Nat → Prop} {w : Work}
    (hm : Moved (s.ctx c) B O (s.work c) w) (o : Option Reply) : ∃ n, DrewWords c n s (s.leave c o w) := by
  obtain ⟨n, hn⟩ := hm.draws
  obtain ⟨hengine, henv⟩ := Prod.mk.inj (hn.trans (State.advanceBy_drawsFrom s c n).symm)
  refine ⟨n, ?_, by rw [State.leave_env, henv]⟩
  rw [State.leave_engine, State.putWork_engine _ _ _ (by rw [hengine, State.engine_fits]), hengine]

end Sys2Proof.Machine
end

section
/-! SUPPORT. The bounded sampler at bounds 0 and 1, and the command `BOUNDED` (40_bounded_sampler.md R122 to R127). -/

namespace Sys2Proof.Machine

section
variable (s : State) (c : Chan)

theorem sampled_zero : Sampled c 0#32 s 0#32 s := .inl ⟨rfl, rfl, rfl⟩

/-- Bound 1 accepts every word, and the high half of a word's product with 1 is 0 (R124). -/
theorem sampled_one : Sampled c 1#32 s 0#32 (s.advance c) := by
  refine .inr ⟨by decide, 0, Nat.zero_le _, by simp, ?_, ?_, rfl⟩
  · simp [Accepts, Nat.mod_one]
  · simp [Nat.div_eq_of_lt (s.wordAt c 0).isLt]

end

/-- A bounded draw makes none of the engine's draws for bound 0 and at least one for any other (R125 (e)). -/
theorem Sampled.exists_advanceBy {c : Chan} {b : W32} {s t : State} {v : W32} (h : Sampled c b s v t) :
    ∃ n, t = s.advanceBy c n ∧ (n = 0 ↔ b = 0#32) := by
  obtain ⟨hb, -, rfl⟩ | ⟨hb, n, -, -, -, -, rfl⟩ := h
  · exact ⟨0, rfl, iff_of_true rfl hb⟩
  · exact ⟨n + 1, rfl, iff_of_false n.succ_ne_zero hb⟩

theorem reaches_boundedBody {s u : State} {c : Chan} {v : W32} (h : Sampled c (s.argU32 c 0) s v u) :
    Reaches c boundedBody s (okU32 v) u :=
  Reaches.bind (m := fun k => boundedSample k (argU32 k 0)) (f := fun _ r => ret (okU32 r)) (reaches_boundedSample h)
    (reaches_ret c u _)

theorem succeeds_bounded {s u : State} {c : Chan} {v : W32} (h : Sampled c (s.argU32 c 0) s v u) :
    Succeeds (.bounded c) (zext64 v) 0#64 0#64 0#64 u s :=
  succeeds_of_reaches rfl rfl (reaches_boundedBody h)

/-- All that `BOUNDED` can do: complete with a bounded draw, or not end after `fuel + 1` rejected words (log 7). -/
theorem exec_bounded_cases (c : Chan) (s : State) :
    (∃ v u, Sampled c (s.argU32 c 0) s v u ∧ exec (.bounded c) s = .next (u.complete c (okU32 v))) ∨
    (s.argU32 c 0 ≠ 0#32 ∧ (∀ j, j ≤ s.cfg.fuel → ¬ Accepts (s.argU32 c 0).toNat (s.wordAt c j).toNat) ∧
      exec (.bounded c) s = .next ((s.advanceBy c (s.cfg.fuel + 1)).hang c)) := by
  obtain ⟨v, u, hv, -⟩ | ⟨hb, hrej, hstuck⟩ := boundedSample_cases c (s.argU32 c 0) s
  · exact .inl ⟨v, u, hv, succeeds_bounded hv⟩
  · refine .inr ⟨hb, hrej, ?_⟩
    have hrun := runCommand_stuck (body := boundedBody) (andThen_stuck hstuck)
    rwa [← (reaches_drawWords c _ s).2] at hrun

theorem exec_bounded_draws {s t : State} {c : Chan} (h : exec (.bounded c) s = .next t) :
    ∃ n, DrewWords c n s t ∧ (n = 0 ↔ s.argU32 c 0 = 0#32) := by
  obtain ⟨v, u, hv, hexec⟩ | ⟨hb, -, hexec⟩ := exec_bounded_cases c s <;> cases hexec.symm.trans h
  · obtain ⟨n, rfl, hn⟩ := hv.exists_advanceBy
    exact ⟨n, by simp [DrewWords], hn⟩
  · exact ⟨s.cfg.fuel + 1, by simp [DrewWords], iff_of_false (Nat.succ_ne_zero _) hb⟩

end Sys2Proof.Machine
end

section
/-! SUPPORT. How many words each result of a bounded draw has, and how many are rejected (40_bounded_sampler.md R125). -/

namespace Sys2Proof.Machine

/-- Words are counted as the numbers below `2^32`. -/
theorem ncard_words (A : Set Nat) (hA : ∀ n ∈ A, n < 2 ^ 32) : Set.ncard {x : W32 | x.toNat ∈ A} = A.ncard :=
  Set.ncard_preimage_of_injective_subset_range (fun _ _ => BitVec.eq_of_toNat_eq) fun n hn =>
    ⟨BitVec.ofNat 32 n, (BitVec.toNat_ofNat n 32).trans (Nat.mod_eq_of_lt (hA n hn))⟩

theorem card_words : Nat.card W32 = 2 ^ 32 := by
  rw [Nat.card_eq_fintype_card, ← FinEnum.card_eq_fintypeCard, FinEnum.card_bitVec]

section
variable {b : Nat}

/-- The words that give the result `r` have their products in the upper part of the `r`-th block of `2^32` numbers. -/
theorem accepts_and_scaled_iff {x r : Nat} :
    Accepts b x ∧ x * b / 2 ^ 32 = r ↔ r * 2 ^ 32 + 2 ^ 32 % b ≤ b * x ∧ b * x < (r + 1) * 2 ^ 32 := by
  rw [Accepts, mul_comm b x]
  omega

/-- That part of the block is as long as `b` times the number of words each result has. -/
theorem block_length (r : Nat) : (r + 1) * 2 ^ 32 = r * 2 ^ 32 + 2 ^ 32 % b + b * (2 ^ 32 / b) := by
  have := Nat.mod_add_div (2 ^ 32) b
  omega

theorem setOf_accepts_and_scaled (hb : 0 < b) (r : Nat) :
    {x | Accepts b x ∧ x * b / 2 ^ 32 = r} =
      Set.Ico ((r * 2 ^ 32 + 2 ^ 32 % b) ⌈/⌉ b) (((r + 1) * 2 ^ 32) ⌈/⌉ b) := by
  ext x
  rw [Set.mem_ofPred_eq, accepts_and_scaled_iff, Set.mem_Ico, ceilDiv_le_iff_le_mul hb, ← not_le, ← not_le,
    ceilDiv_le_iff_le_mul hb]

/-- In any stretch of `b * q` numbers lie exactly `q` multiples of `b`. -/
theorem ceilDiv_add_mul (hb : 0 < b) (a q : Nat) : (a + b * q) ⌈/⌉ b = a ⌈/⌉ b + q := by
  rw [Nat.ceilDiv_eq_add_pred_div, Nat.ceilDiv_eq_add_pred_div, show a + b * q + b - 1 = a + b - 1 + b * q by omega,
    Nat.add_mul_div_left _ _ hb]

theorem ncard_accepts_and_scaled {r : Nat} (hr : r < b) :
    Set.ncard {x : W32 | Accepts b x.toNat ∧ x.toNat * b / 2 ^ 32 = r} = 2 ^ 32 / b := by
  have hb : 0 < b := Nat.zero_lt_of_lt hr
  have hrange : ∀ x ∈ {x | Accepts b x ∧ x * b / 2 ^ 32 = r}, x < 2 ^ 32 := by
    rintro x ⟨-, rfl⟩
    rw [Nat.div_lt_iff_lt_mul (by decide), mul_comm b] at hr
    exact Nat.lt_of_mul_lt_mul_right hr
  calc Set.ncard {x : W32 | Accepts b x.toNat ∧ x.toNat * b / 2 ^ 32 = r}
      = Set.ncard {x | Accepts b x ∧ x * b / 2 ^ 32 = r} := ncard_words _ hrange
    _ = 2 ^ 32 / b := by
      rw [setOf_accepts_and_scaled hb, block_length, ceilDiv_add_mul hb, Set.ncard_Ico_nat, Nat.add_sub_cancel_left]

/-- The results share the accepted words evenly. -/
theorem ncard_accepts (hb : 0 < b) : Set.ncard {x : W32 | Accepts b x.toNat} = b * (2 ^ 32 / b) := by
  classical
  have hmaps : ∀ x ∈ Finset.univ.filter fun x : W32 => Accepts b x.toNat,
      x.toNat * b / 2 ^ 32 ∈ Finset.range b := by
    intro x _
    rw [Finset.mem_range, Nat.div_lt_iff_lt_mul (by decide), mul_comm b]
    exact Nat.mul_lt_mul_of_pos_right x.isLt hb
  have hfibre : ∀ r ∈ Finset.range b, ((Finset.univ.filter fun x : W32 => Accepts b x.toNat).filter
      fun x => x.toNat * b / 2 ^ 32 = r).card = 2 ^ 32 / b := by
    intro r hr
    rw [← ncard_accepts_and_scaled (Finset.mem_range.1 hr), ← Set.ncard_coe_finset]
    simp [Set.ofPred_and]
  calc Set.ncard {x : W32 | Accepts b x.toNat}
      = (Finset.univ.filter fun x : W32 => Accepts b x.toNat).card := by rw [← Set.ncard_coe_finset]; simp
    _ = b * (2 ^ 32 / b) := by
      rw [Finset.card_eq_sum_card_fiberwise hmaps, Finset.sum_congr rfl hfibre, Finset.sum_const, Finset.card_range,
        smul_eq_mul]

theorem ncard_rejects (hb : 0 < b) : Set.ncard {x : W32 | ¬ Accepts b x.toNat} = 2 ^ 32 % b := by
  have hsplit := Set.ncard_add_ncard_compl {x : W32 | Accepts b x.toNat}
  rw [ncard_accepts hb, card_words, Set.compl_ofPred] at hsplit
  have := Nat.div_add_mod (2 ^ 32) b
  omega

/-- Fewer than half of `2^32` words are rejected: `b` goes into `2^32` at least once. -/
theorem two_mul_mod_lt (hb : 0 < b) (hlt : b < 2 ^ 32) : 2 * (2 ^ 32 % b) < 2 ^ 32 := by
  have hmod := Nat.mod_lt (2 ^ 32) hb
  have hdiv : b * 1 ≤ b * (2 ^ 32 / b) := Nat.mul_le_mul_left b (Nat.div_pos hlt.le hb)
  have := Nat.div_add_mod (2 ^ 32) b
  omega

end

section
variable {b : W32}

theorem bound_pos (hb : b ≠ 0#32) : 0 < b.toNat :=
  Nat.pos_of_ne_zero fun h => hb (BitVec.eq_of_toNat_eq h)

theorem rejectThreshold_lt (hb : b ≠ 0#32) : rejectThreshold b < b := by
  rw [BitVec.lt_def, toNat_rejectThreshold b hb]
  exact Nat.mod_lt _ (bound_pos hb)

theorem high32_mul_lt (hb : b ≠ 0#32) (x : W32) : high32 (mul32x32 x b) < b := by
  have hbelow := below_high32 hb x
  rwa [Below, max_eq_left (bound_pos hb)] at hbelow

variable {k : Nat} (hk : b.toNat = 2 ^ k)
include hk

theorem exponent_le : k ≤ 32 := ((Nat.pow_lt_pow_iff_right (by decide)).1 (hk ▸ b.isLt)).le

/-- A power of two divides `2^32`, so its threshold is 0. -/
theorem accepts_two_pow (x : Nat) : Accepts b.toNat x := by
  rw [Accepts, hk, Nat.mod_eq_zero_of_dvd (pow_dvd_pow 2 (exponent_le hk))]
  exact Nat.zero_le _

/-- A power of two takes the top bits of the word. -/
theorem high32_mul_two_pow (x : W32) : high32 (mul32x32 x b) = x >>> (32 - k) := by
  apply BitVec.eq_of_toNat_eq
  rw [toNat_high32, toNat_mul32x32, hk, BitVec.toNat_ushiftRight, Nat.shiftRight_eq_div_pow,
    ← Nat.pow_sub_mul_pow 2 (exponent_le hk), Nat.mul_div_mul_right _ _ (Nat.two_pow_pos k)]

end

end Sys2Proof.Machine
end

section
/-! SUPPORT. The fast engine once it is seeded: its state word goes around a cycle of at most `2^64` values, so a word it
ever delivers it delivers within the first `2^64 + 1` draws (41_fast_engine.md R140, R144, 40_bounded_sampler.md R126). -/

namespace Sys2Proof.Machine

/-- On a finite type every iterate is one of the first ones. -/
theorem exists_iterate_eq_lt_card {α : Type} [Fintype α] (f : α → α) (x : α) (n : Nat) :
    ∃ m < Fintype.card α, f^[m] x = f^[n] x := by
  induction n using Nat.strong_induction_on with
  | _ n ih =>
    obtain hn | hn := lt_or_ge n (Fintype.card α)
    · exact ⟨n, hn, rfl⟩
    obtain ⟨i, j, hij, heq⟩ : ∃ i j : Fin (Fintype.card α + 1), i < j ∧ f^[i] x = f^[j] x := by
      obtain ⟨i, j, hne, heq⟩ := Fintype.exists_ne_map_eq_of_card_lt
        (fun i : Fin (Fintype.card α + 1) => f^[i] x) (by simp)
      obtain hij | hji := lt_or_gt_of_ne hne
      · exact ⟨i, j, hij, heq⟩
      · exact ⟨j, i, hji, heq.symm⟩
    have hj := j.isLt
    have hshort : f^[n - j + i] x = f^[n] x := by
      rw [Function.iterate_add_apply, heq, ← Function.iterate_add_apply, Nat.sub_add_cancel (by omega)]
    rw [← hshort]
    exact ih _ (by omega)

/-- The update of the state word with increment `fi` (41_fast_engine.md R140). -/
def fUpdate (k : Cfg) (fi fs : W64) : W64 := fs * k.multiplier + fi

theorem fStep_snd (k : Cfg) (e : Fast) : (fStep k e).2 = { e with fs := fUpdate k e.fi e.fs } := rfl

theorem seeded_fReady (k : Cfg) (e : Fast) (env : Env) : (fReady k e env).1.seeded = true := by
  rw [fReady]
  split
  · assumption
  · rw [fSeed]
    split <;> rfl

theorem State.advance_fast (s : State) : (s.advance .F).fast = (fStep s.cfg (fReady s.cfg s.fast s.envF).1).2 := rfl

theorem State.word_fast (s : State) : s.word .F = fOutput s.cfg (fReady s.cfg s.fast s.envF).1.fs := rfl

/-- After one draw the fast engine is seeded, whatever it was before (41_fast_engine.md R144). -/
theorem State.seeded_advance_fast (s : State) : (s.advance .F).fast.seeded = true := by
  rw [State.advance_fast, fStep_snd]
  exact seeded_fReady _ _ _

theorem fReady_of_seeded {k : Cfg} {e : Fast} (env : Env) (h : e.seeded = true) : fReady k e env = (e, env) := if_pos h

section
variable {s : State} (h : s.fast.seeded = true)
include h

theorem State.advanceBy_fast (n : Nat) : (s.advanceBy .F n).fast =
    { s.fast with fs := (fUpdate s.cfg s.fast.fi)^[n] s.fast.fs } := by
  induction n with
  | zero => rfl
  | succ n ih =>
    have hseeded : (s.advanceBy .F n).fast.seeded = true := by rw [ih]; exact h
    rw [State.advanceBy_succ, State.advance_fast, fReady_of_seeded _ hseeded, State.advanceBy_cfg, fStep_snd, ih,
      Function.iterate_succ_apply']

theorem State.wordAt_fast (n : Nat) :
    s.wordAt .F n = fOutput s.cfg ((fUpdate s.cfg s.fast.fi)^[n] s.fast.fs) := by
  have hseeded : (s.advanceBy .F n).fast.seeded = true := by rw [State.advanceBy_fast h]; exact h
  rw [State.wordAt, State.word_fast, fReady_of_seeded _ hseeded, State.advanceBy_fast h, State.advanceBy_cfg]

end

theorem State.exists_wordAt_fast_eq (s : State) (n : Nat) : ∃ m ≤ 2 ^ 64, s.wordAt .F m = s.wordAt .F n := by
  cases n with
  | zero => exact ⟨0, Nat.zero_le _, rfl⟩
  | succ n =>
    have hseeded := s.seeded_advance_fast
    obtain ⟨m, hm, heq⟩ := exists_iterate_eq_lt_card (fUpdate (s.advance .F).cfg (s.advance .F).fast.fi)
      (s.advance .F).fast.fs n
    rw [← FinEnum.card_eq_fintypeCard, FinEnum.card_bitVec] at hm
    refine ⟨m + 1, hm, ?_⟩
    rw [← State.wordAt_advance, ← State.wordAt_advance, State.wordAt_fast hseeded, State.wordAt_fast hseeded, heq]

end Sys2Proof.Machine
end

section
/-! SUPPORT. Words scaled by a power of two are floats, so `u32_to_f64` and the uniform float are exact
(00_scope.md R15, 40_bounded_sampler.md R121). -/

namespace Sys2Proof.Machine

/-- A common factor of numerator and denominator does not change what a quotient rounds to. -/
theorem roundEven_mul_left {q : Nat} (hq : 0 < q) (p d : Nat) : roundEven (q * p) (q * d) = roundEven p d := by
  have hlt : q * d < 2 * (q * (p % d)) ↔ d < 2 * (p % d) := by rw [mul_left_comm, Nat.mul_lt_mul_left hq]
  have heq : q * d = 2 * (q * (p % d)) ↔ d = 2 * (p % d) := by rw [mul_left_comm, Nat.mul_right_inj hq.ne']
  simp only [roundEven, Nat.mul_mod_mul_left, Nat.mul_div_mul_left _ _ hq, hlt, heq]

theorem roundMag_mul_left {q : Nat} (hq : 0 < q) (p : Nat) : roundMag (q * p) q = roundMag p 1 := by
  have hscale : roundScale (q * p) q = roundScale p 1 := by
    rw [roundScale, roundScale, Nat.mul_div_cancel_left _ hq, Nat.div_one]
  rw [roundMag, roundMag, hscale, roundEven_mul_left hq, one_mul]

section
variable (w : W32) {j : Nat}

theorem scaled_word_lt {k : Nat} (hk : j ≤ k) : w.toNat * 2 ^ j < (2 ^ 52 + 0) * 2 ^ k :=
  Nat.mul_lt_mul_of_lt_of_le (w.isLt.trans (by decide)) (Nat.pow_le_pow_right two_pos hk) (Nat.two_pow_pos k)

/-- The lowest bit of a scaled word is at the last place of its binade or above. -/
theorem magUnits_roundMag_word (hlo : 20 ≤ j) (hhi : j ≤ 2000) :
    magUnits (roundMag (w.toNat * 2 ^ j) 1) = w.toNat * 2 ^ j := by
  obtain ⟨i, rfl⟩ := Nat.exists_eq_add_of_le hlo
  have hlt : w.toNat * 2 ^ (20 + i) < 2 ^ (52 + i) :=
    calc w.toNat * 2 ^ (20 + i) < 2 ^ 32 * 2 ^ (20 + i) := Nat.mul_lt_mul_of_pos_right w.isLt (Nat.two_pow_pos _)
      _ = 2 ^ (52 + i) := by rw [← pow_add, ← add_assoc]
  refine magUnits_roundMag (m := (i + 1) * 2 ^ 52 + 0) (fun k hk => Dvd.dvd.mul_left ?_ _) (by rw [infMag]; omega) ?_
  · obtain rfl | hk := hk
    · exact one_dvd _
    · have := (Nat.pow_lt_pow_iff_right (by decide)).1 (hk.trans_lt hlt)
      exact pow_dvd_pow 2 (by omega)
  · rw [magUnits_normal i (by decide), add_zero, ← pow_add]
    exact hlt.le

end

/-- The word `w` scaled by `2^j` units, as a float. -/
def wordFloat (w : W32) (j : Nat) : F64 := packFloat false (roundMag (w.toNat * 2 ^ j) 1)

section
variable (w : W32) {j : Nat} (hlo : 20 ≤ j) (hhi : j ≤ 2000)

theorem signBit_wordFloat (j : Nat) : signBit (wordFloat w j) = false := signBit_packFloat _ (roundMag_lt _ _)

include hlo hhi

theorem magUnits_wordFloat : magUnits (magBits (wordFloat w j)) = w.toNat * 2 ^ j := by
  rw [wordFloat, magBits_packFloat _ (roundMag_lt _ _), magUnits_roundMag_word w hlo hhi]

theorem units_wordFloat : units (wordFloat w j) = (w.toNat : Int) * 2 ^ j := by
  rw [units_eq, signBit_wordFloat, magUnits_wordFloat w hlo hhi, signOf, if_neg (by decide)]
  push_cast
  ring

theorem isFinite_wordFloat : isFinite (wordFloat w j) = true := by
  have hinf : infMag = (2046 + 1) * 2 ^ 52 + 0 := rfl
  rw [isFinite_iff, ← magUnits_strictMono.lt_iff_lt, magUnits_wordFloat w hlo hhi, hinf,
    magUnits_normal 2046 (by decide)]
  exact scaled_word_lt w (by omega)

end

theorem units_packFloat_normal {k f : Nat} (hk : k ≤ 2046) (hf : f < 2 ^ 52) :
    units (packFloat false ((k + 1) * 2 ^ 52 + f)) = (2 ^ 52 + f) * 2 ^ k := by
  rw [units_packFloat _ (by omega), magUnits_normal k hf, signOf, if_neg (by decide)]
  push_cast
  ring

theorem magUnits_fTwoPowMinus32 : magUnits (magBits fTwoPowMinus32) = 2 ^ 1042 := by
  have hmag : magBits fTwoPowMinus32 = (990 + 1) * 2 ^ 52 + 0 := by decide
  rw [hmag, magUnits_normal 990 (by decide), add_zero, ← pow_add]

theorem units_fOne : units fOne = 2 ^ 32 * 2 ^ 1042 := by
  have hpack : fOne = packFloat false ((1022 + 1) * 2 ^ 52 + 0) := by decide
  rw [hpack, units_packFloat_normal (by decide) (by decide), Nat.cast_zero, add_zero, ← pow_add, ← pow_add]

theorem units_fZero : units fZero = 0 := units_eq_zero.2 (by decide)

/-- `1 - 2^-32`, the largest uniform float. -/
theorem units_largestUniform : units 0x3FEFFFFFFFE00000#64 = (2 ^ 32 - 1) * 2 ^ 1042 := by
  have hpack : 0x3FEFFFFFFFE00000#64 = packFloat false ((1021 + 1) * 2 ^ 52 + (2 ^ 52 - 2 ^ 21)) := by decide
  rw [hpack, units_packFloat_normal (by decide) (by decide), show 1042 = 21 + 1021 from rfl, pow_add, ← mul_assoc]
  exact congrArg (· * _) (by norm_num)

/-- The product with `2^-32` is exact (40_bounded_sampler.md R121). -/
theorem uniformOf_eq_wordFloat (w : W32) : uniformOf w = wordFloat w 1042 := by
  have hu : u32ToF64 w = wordFloat w 1074 := rfl
  have hunits : (units (wordFloat w 1074)).natAbs * (units fTwoPowMinus32).natAbs
      = 2 ^ 1074 * (w.toNat * 2 ^ 1042) := by
    rw [natAbs_units, natAbs_units, magUnits_wordFloat w (by decide) (by decide), magUnits_fTwoPowMinus32,
      mul_comm w.toNat, mul_assoc]
  have hsign : (signBit (wordFloat w 1074) != signBit fTwoPowMinus32) = false := by
    rw [signBit_wordFloat]
    decide
  rw [uniformOf, hu, fmul_of_isFinite (isFinite_wordFloat w (by decide) (by decide)) (by decide), hunits, hsign,
    roundMag_mul_left (Nat.two_pow_pos 1074), wordFloat]

section
variable (w : W32)

theorem units_uniformOf : units (uniformOf w) = (w.toNat : Int) * 2 ^ 1042 := by
  rw [uniformOf_eq_wordFloat, units_wordFloat w (by decide) (by decide)]

theorem isFinite_uniformOf : isFinite (uniformOf w) = true := by
  rw [uniformOf_eq_wordFloat, isFinite_wordFloat w (by decide) (by decide)]

theorem signBit_uniformOf : signBit (uniformOf w) = false := by
  rw [uniformOf_eq_wordFloat, signBit_wordFloat]

theorem fle_fZero_uniformOf : fle fZero (uniformOf w) = true := by
  rw [fle_iff (by decide) (isNaN_of_isFinite (isFinite_uniformOf w)), units_fZero, units_uniformOf]
  positivity

theorem uniformOf_fle_largest : fle (uniformOf w) 0x3FEFFFFFFFE00000#64 = true := by
  rw [fle_iff (isNaN_of_isFinite (isFinite_uniformOf w)) (by decide), units_largestUniform, units_uniformOf]
  have hw := w.isLt
  exact mul_le_mul_of_nonneg_right (by omega) (by positivity)

theorem uniformOf_flt_fOne : flt (uniformOf w) fOne = true := by
  rw [flt_iff (isNaN_of_isFinite (isFinite_uniformOf w)) (by decide), units_fOne, units_uniformOf]
  have hw := w.isLt
  exact mul_lt_mul_of_pos_right (by omega) (by positivity)

/-- Only the word 0 has the uniform float 0, which is then `+0`. -/
theorem uniformOf_eq_fZero_iff : uniformOf w = fZero ↔ w = 0#32 := by
  constructor
  · intro h
    have hunits := units_uniformOf w
    rw [h, units_fZero, eq_comm, mul_eq_zero_iff_right (by positivity)] at hunits
    exact BitVec.eq_of_toNat_eq (Int.natCast_eq_zero.1 hunits)
  · rintro rfl
    have hmag : magBits (uniformOf 0#32) = 0 := units_eq_zero.1 (by rw [units_uniformOf]; exact zero_mul _)
    rw [← packFloat_signBit_magBits (uniformOf 0#32), signBit_uniformOf, hmag]
    rfl

end

end Sys2Proof.Machine
end

section
/-! PROOF. The bounded sampler, its command, and the draw primitives (40_bounded_sampler.md). -/

open Sys2Proof Sys2Proof.Machine

/-- Settles O29: both are bounded draws; at bound 1 the first word is accepted, whatever it is. -/
theorem boundZeroAndBoundOne : Obligations.BoundZeroAndBoundOne := by
  intro s c
  refine ⟨⟨?_, ?_⟩, fun h => ?_, fun h => ?_⟩
  · exact (reaches_boundedSample (sampled_zero s c)).1
  · exact (reaches_boundedSample (sampled_one s c)).1
  · exact succeeds_bounded (v := 0#32) (by rw [h]; exact sampled_zero s c)
  · exact succeeds_bounded (v := 0#32) (by rw [h]; exact sampled_one s c)

/-- Settles O16: a run's engine and environment are those of some number of draws, however the run ends. -/
theorem engineChangesOnlyByDraws : Obligations.EngineChangesOnlyByDraws := by
  intro i s t h hseed hzeroize
  obtain ⟨o, w, rfl, hmoved⟩ := exec_moved hseed hzeroize h
  exact hmoved.drewWords o

/-- Settles O30: the command's pseudocode reaches whatever state its bounded draw does. -/
theorem boundedReturnsFirstAccepted : Obligations.BoundedReturnsFirstAccepted :=
  fun _ _ _ _ h => ⟨succeeds_bounded h, h.lt⟩

/-- Settles O31: the products that give one result fill a stretch of numbers whose length is a multiple of the bound, so
every result has equally many words. -/
theorem noModuloBias : Obligations.NoModuloBias := by
  refine ⟨fun b hb => ?_, fun s t c h => ?_⟩
  · have hpos := bound_pos hb
    refine ⟨toNat_rejectThreshold b hb, rejectThreshold_lt hb, fun x => ?_, fun x => ⟨?_, high32_mul_lt hb x⟩,
      fun r => ncard_accepts_and_scaled, ncard_rejects hpos, two_mul_mod_lt hpos b.isLt,
      fun k hk x => ⟨accepts_two_pow hk _, high32_mul_two_pow hk x⟩⟩
    · rw [low_lt_threshold_iff x b hb, not_not]
    · rw [toNat_high32, toNat_mul32x32]
  · obtain ⟨n, hdrew, hn⟩ := exec_bounded_draws h
    exact ⟨n, hdrew, hn.2, fun hb => Nat.one_le_iff_ne_zero.2 (mt hn.1 hb)⟩

/-- Settles O32: a fast engine that rejects its first `2^64 + 1` words has no others to deliver. -/
theorem fastHangIsExact : Obligations.FastHangIsExact := by
  intro s hfuel
  obtain ⟨v, u, hv, hexec⟩ | ⟨hb, hrej, hexec⟩ := exec_bounded_cases .F s
  · refine iff_of_false ?_ ?_
    · rintro ⟨t, ht, hbusy⟩
      cases hexec.symm.trans ht
      simp at hbusy
    · rintro ⟨hb, hrej⟩
      obtain ⟨h0, -⟩ | ⟨-, n, -, -, hacc, -⟩ := hv
      · exact hb h0
      · exact hrej n hacc
  · refine iff_of_true ⟨_, hexec, by simp⟩ ⟨hb, fun n => ?_⟩
    obtain ⟨m, hm, heq⟩ := s.exists_wordAt_fast_eq n
    exact heq ▸ hrej m (hm.trans hfuel)

/-- Settles O34: the product is a float, so rounding leaves it alone, and its value in units gives its order. -/
theorem uniformIsExact : Obligations.UniformIsExact :=
  fun w => ⟨isFinite_uniformOf w, signBit_uniformOf w, units_uniformOf w, fle_fZero_uniformOf w, uniformOf_fle_largest w,
    uniformOf_flt_fOne w, uniformOf_eq_fZero_iff w⟩
end

section
/-! SUPPORT. Seeding the fast engine, and lazy seeding on either channel (41_fast_engine.md R142 to R144,
42_secure_engine.md R169). -/

namespace Sys2Proof.Machine

/-! ### The seeded fast engine -/

/-- 10_state.md R48: the shift leaves the lowest bit clear, so setting it adds 1. -/
theorem fIncrement_eq (k : Cfg) : fIncrement k = 2#64 * k.seedConstant + 1#64 := by
  have hdisjoint : k.seedConstant <<< 1 &&& 1#64 = 0#64 := by
    ext i hi
    cases i with
    | zero => simp
    | succ i => simp
  rw [fIncrement, ← BitVec.add_eq_or_of_and_eq_zero _ _ hdisjoint, BitVec.shiftLeft_eq_mul_twoPow, BitVec.mul_comm]
  rfl

/-- Seeding starts from `FS = 0`, whose update is the increment alone, so nothing of the earlier engine is left
(41_fast_engine.md R142). -/
theorem fSeedInternal_eq (k : Cfg) (v : W64) (e : Fast) :
    fSeedInternal k v e = ⟨fUpdate k (fIncrement k) (fIncrement k + v), fIncrement k, true⟩ := by
  simp [fSeedInternal, fStep_snd, fUpdate]

/-- Where the value of `F_SEED(v)` comes from, and the environment afterwards (41_fast_engine.md R143). -/
def fSeedSource (v : W64) (env : Env) : W64 × Env := if v = 0#64 then askTimeSeed env else (v, env)

theorem fSeedSource_zero (env : Env) : fSeedSource 0#64 env = askTimeSeed env := rfl

theorem fSeedSource_of_ne_zero {v : W64} (h : v ≠ 0#64) (env : Env) : fSeedSource v env = (v, env) := if_neg h

theorem fSeed_eq (k : Cfg) (v : W64) (e : Fast) (env : Env) :
    fSeed k v e env = (fSeedInternal k (fSeedSource v env).1 e, (fSeedSource v env).2) := by
  rw [fSeed, fSeedSource]
  split <;> rfl

/-! ### The words after seeding -/

/-- The word of draw number `n` after `F_SEED_INTERNAL(v)` (41_fast_engine.md R149). -/
def fSeededWord (k : Cfg) (v : W64) (n : Nat) : W32 :=
  fOutput k ((fUpdate k (fIncrement k))^[n + 1] (fIncrement k + v))

theorem State.wordAt_of_fSeedInternal {s : State} {v : W64} {e : Fast} (h : s.fast = fSeedInternal s.cfg v e)
    (n : Nat) : s.wordAt .F n = fSeededWord s.cfg v n := by
  rw [fSeedInternal_eq] at h
  rw [State.wordAt_fast (by rw [h]), h, fSeededWord, Function.iterate_succ_apply]

theorem fSeededWord_congr {k k' : Cfg} (hmul : k.multiplier = k'.multiplier)
    (hconst : k.seedConstant = k'.seedConstant) (hA : k.xshA = k'.xshA) (hB : k.xshB = k'.xshB)
    (hrot : k.rotSh = k'.rotSh) (v : W64) (n : Nat) : fSeededWord k v n = fSeededWord k' v n := by
  have hinc : fIncrement k = fIncrement k' := by rw [fIncrement, fIncrement, hconst]
  have hupd : fUpdate k (fIncrement k) = fUpdate k' (fIncrement k') := by
    funext fs
    rw [fUpdate, fUpdate, hmul, hinc]
  rw [fSeededWord, fSeededWord, hupd, hinc, fOutput, fOutput, hA, hB, hrot]

/-- Five times `RANGE 0, 9` after `F.SEED 42` (41_fast_engine.md R149). -/
theorem fSeededWord_referenceCfg :
    (List.range 5).map (fun n => (fSeededWord referenceCfg 42#64 n).toNat * 10 / 2 ^ 32) = [6, 4, 7, 5, 7] := by
  decide

/-! ### Lazy seeding -/

theorem fReady_of_unseeded {k : Cfg} {e : Fast} (env : Env) (h : e.seeded = false) :
    fReady k e env = fSeed k 0#64 e env := if_neg (by simp [h])

theorem sReady_of_unseeded {k : Cfg} {e : Secure} (env : Env) (h : e.seeded = false) :
    sReady k e env = sReady k (sSeed k 0#64 env).1 (sSeed k 0#64 env).2 := by
  simp only [sReady, h, (keyed_sSeed k 0#64 env).seeded, if_true, Bool.false_eq_true, if_false]

theorem seededFlag_seedEngine (k : Cfg) (v : W64) (e : Engine) (env : Env) :
    (seedEngine k v e env).1.seededFlag = true := by
  cases e with
  | fast e =>
    show (fSeed k v e env).1.seeded = true
    rw [fSeed_eq, fSeedInternal_eq]
  | secure _ => exact (keyed_sSeed k v env).seeded

/-- Drawing from an unseeded engine is drawing from what a zero seed makes of it. -/
theorem drawEngine_of_unseeded {k : Cfg} {e : Engine} (env : Env) (h : e.seededFlag = false) :
    drawEngine k e env = drawEngine k (seedEngine k 0#64 e env).1 (seedEngine k 0#64 e env).2 := by
  have hseeded := seededFlag_seedEngine k 0#64 e env
  cases e with
  | fast e => simp only [drawEngine, seedEngine, fDraw32, fReady_of_unseeded env h, fReady_of_seeded _ hseeded]
  | secure e => simp only [drawEngine, seedEngine, sDraw32, sReady_of_unseeded env h]

/-- A draw sees nothing of a channel but its engine and environment, and replaces both. -/
theorem State.word_advance_putWork {s : State} {c : Chan} {e : Engine} {env : Env} (hfits : e.fits c = true)
    (h : drawEngine s.cfg (s.engine c) (s.env c) = drawEngine s.cfg e env) :
    s.word c = (s.putWork c { s.work c with engine := e, env := env }).word c ∧
      s.advance c = (s.putWork c { s.work c with engine := e, env := env }).advance c := by
  have hengine : (s.putWork c { s.work c with engine := e, env := env }).engine c = e :=
    State.putWork_engine _ _ _ hfits
  constructor
  · rw [State.word, State.word, hengine, State.putWork_cfg, State.putWork_env, h]
  · rw [State.advance, State.advance, hengine, State.putWork_cfg, State.putWork_env, State.putWork_work _ _ _ hfits,
      State.putWork_putWork _ _ _ _ (drawEngine_fits _ _ _ _ hfits), h]

/-! ### The commands -/

/-- `SEED` on `F` writes the engine and its environment, and completes with four zeros. -/
theorem exec_seed_fast (s : State) : exec (.seed .F) s =
    .next ({ s with
      fast := (fSeed s.cfg (s.argU64 .F 0) s.fast s.envF).1
      envF := (fSeed s.cfg (s.argU64 .F 0) s.fast s.envF).2 }.complete .F (.done 0#64 0#64 0#64 0#64)) := rfl

/-- A float that is no NaN is delivered as it is, with nothing else changed. -/
theorem reaches_okFloat {x : F64} (hx : isNaN x = false) (c : Chan) (s : State) :
    Reaches c (fun k => okFloat k x) s (.done x 0#64 0#64 0#64) s := by
  refine ⟨?_, (State.putWork_work_self s c).symm⟩
  simp only [okFloat, andThen, resultBits, hx, Bool.false_eq_true, if_false, ret_apply]

theorem reaches_nextU32Body (c : Chan) (s : State) : Reaches c nextU32Body s (okU32 (s.word c)) (s.advance c) :=
  (reaches_draw32 c s).bind (f := fun _ x => ret (okU32 x)) (reaches_ret c _ _)

theorem reaches_nextFloatBody (c : Chan) (s : State) :
    Reaches c nextFloatBody s (.done (uniformOf (s.word c)) 0#64 0#64 0#64) (s.advance c) :=
  (reaches_drawF c s).bind (reaches_okFloat (isNaN_of_isFinite (isFinite_uniformOf _)) c _)

end Sys2Proof.Machine
end

section
/-! PROOF. The fast engine: seeding, its words, and the commands that deliver them (41_fast_engine.md). -/

open Sys2Proof Sys2Proof.Machine

/-- Settles O20: the seeded state and every word after it are computed from the value and those parameters. -/
theorem fastWordsDeterminedBySeed : Obligations.FastWordsDeterminedBySeed := by
  refine ⟨fun s s' v e e' hs hs' hmul hconst hA hB hrot n => ?_, fun s e hcfg hs => ?_⟩
  · rw [State.wordAt_of_fSeedInternal hs, State.wordAt_of_fSeedInternal hs',
      fSeededWord_congr hmul hconst hA hB hrot]
  · simp only [State.wordAt_of_fSeedInternal hs, hcfg]
    exact fSeededWord_referenceCfg

/-- Settles O19: the engine's draw is that of the engine seeded with 0, and the rest of the channel is the same. -/
theorem lazyDrawSeedsFirst : Obligations.LazyDrawSeedsFirst := by
  intro s c h
  exact ⟨_, _, rfl, seededFlag_seedEngine _ _ _ _,
    State.word_advance_putWork (seedEngine_fits _ _ _ _ _ (s.engine_fits c)) (drawEngine_of_unseeded _ h)⟩

/-- Settles O22, with `fSeedSource` as the value and the environment left. -/
theorem seedFastSetsState : Obligations.SeedFastSetsState := by
  intro s
  refine ⟨(fSeedSource (s.argU64 .F 0) s.envF).1, (fSeedSource (s.argU64 .F 0) s.envF).2, ?_, fIncrement_eq s.cfg,
    fun h => ?_, fun h => ?_⟩
  · rw [exec_seed_fast, fSeed_eq, fSeedInternal_eq, fUpdate]
  · rw [fSeedSource_of_ne_zero h]
    exact ⟨rfl, rfl⟩
  · rw [h, fSeedSource_zero]

/-- Settles O33: both draw one word; the uniform float of a word is no NaN, so its own bits are the result. -/
theorem nextCommandsDeliver : Obligations.NextCommandsDeliver :=
  fun s c => ⟨succeeds_of_reaches rfl rfl (reaches_nextU32Body c s),
    succeeds_of_reaches rfl rfl (reaches_nextFloatBody c s)⟩
end

section
/-! SUPPORT. The block function's quarter-rounds and the block counter (42_secure_engine.md R160, R161, R164). -/

namespace Sys2Proof.Machine

/-! ### Pieces of a round that touch some of the words -/

/-- `f` writes only the words of `l`, and what it writes depends on them alone. -/
structure LocalTo (l : List (Fin 16)) (f : Words → Words) : Prop where
  writes : ∀ x, ∀ i ∉ l, (f x)[i] = x[i]
  reads : ∀ x y : Words, (∀ i ∈ l, x[i] = y[i]) → ∀ i ∈ l, (f x)[i] = (f y)[i]

theorem LocalTo.comp {l : List (Fin 16)} {f g : Words → Words} (hg : LocalTo l g) (hf : LocalTo l f) :
    LocalTo l (g ∘ f) where
  writes x i hi := (hg.writes (f x) i hi).trans (hf.writes x i hi)
  reads x y h := hg.reads (f x) (f y) (hf.reads x y h)

/-- What the one writes the other neither reads nor writes. -/
theorem LocalTo.commute {l l' : List (Fin 16)} {f g : Words → Words} (hf : LocalTo l f) (hg : LocalTo l' g)
    (hdisjoint : l.Disjoint l') : Function.Commute f g := by
  intro x
  have hword : ∀ i : Fin 16, (f (g x))[i] = (g (f x))[i] := by
    intro i
    by_cases hi : i ∈ l
    · have hgx : ∀ j ∈ l, (g x)[j] = x[j] := fun j hj => hg.writes x j (hdisjoint hj)
      rw [hf.reads _ _ hgx i hi, hg.writes _ i (hdisjoint hi)]
    · rw [hf.writes _ i hi]
      by_cases hi' : i ∈ l'
      · have hfx : ∀ j ∈ l', (f x)[j] = x[j] := fun j hj => hf.writes x j fun h => hdisjoint h hj
        exact (hg.reads _ _ hfx i hi').symm
      · rw [hg.writes _ i hi', hg.writes _ i hi', hf.writes _ i hi]
  exact Vector.ext fun i hi => hword ⟨i, hi⟩

/-- One assignment of a quarter-round: the word `a` from itself and the word `b`. -/
def assignWord (f : W32 → W32 → W32) (a b : Fin 16) (x : Words) : Words := x.set a (f x[a] x[b])

theorem getElem_assignWord (f : W32 → W32 → W32) (a b i : Fin 16) (x : Words) :
    (assignWord f a b x)[i] = if a = i then f x[a] x[b] else x[i] := by
  simp [assignWord, Vector.getElem_set, Fin.ext_iff]

theorem localTo_assignWord {l : List (Fin 16)} {a b : Fin 16} (ha : a ∈ l) (hb : b ∈ l) (f : W32 → W32 → W32) :
    LocalTo l (assignWord f a b) where
  writes x i hi := by
    have hne : a ≠ i := fun h => hi (h ▸ ha)
    rw [getElem_assignWord, if_neg hne]
  reads x y h i hi := by
    rw [getElem_assignWord, getElem_assignWord, h a ha, h b hb, h i hi]

/-- The two assignments that a quarter-round makes four times: `a += b`, then `d = rotl32(d xor a, n)`. -/
def addXorRotate (n : Nat) (a b d : Fin 16) : Words → Words :=
  assignWord (fun p q => rotl32 (p ^^^ q) n) d a ∘ assignWord (fun p q => p + q) a b

theorem localTo_addXorRotate {l : List (Fin 16)} {a b d : Fin 16} (ha : a ∈ l) (hb : b ∈ l) (hd : d ∈ l)
    (n : Nat) : LocalTo l (addXorRotate n a b d) :=
  (localTo_assignWord hd ha _).comp (localTo_assignWord ha hb _)

theorem quarterRound_eq (x : Words) (a b c d : Fin 16) : quarterRound x a b c d =
    (addXorRotate 7 c d b ∘ addXorRotate 8 a b d ∘ addXorRotate 12 c d b ∘ addXorRotate 16 a b d) x := rfl

theorem localTo_quarterRound (a b c d : Fin 16) : LocalTo [a, b, c, d] fun x => quarterRound x a b c d := by
  have ha : a ∈ [a, b, c, d] := by simp
  have hb : b ∈ [a, b, c, d] := by simp
  have hc : c ∈ [a, b, c, d] := by simp
  have hd : d ∈ [a, b, c, d] := by simp
  simp only [quarterRound_eq]
  exact (localTo_addXorRotate hc hd hb 7).comp <| (localTo_addXorRotate ha hb hd 8).comp <|
    (localTo_addXorRotate hc hd hb 12).comp (localTo_addXorRotate ha hb hd 16)

/-! ### The block counter -/

theorem toNat_concat32 (hi lo : W32) : (concat32 hi lo).toNat = hi.toNat * 2 ^ 32 + lo.toNat := by
  rw [concat32, BitVec.toNat_append, ← Nat.shiftLeft_add_eq_or_of_lt lo.isLt, Nat.shiftLeft_eq]

theorem low32_concat32_add_one (hi lo : W32) : low32 (concat32 hi lo + 1#64) = lo + 1#32 := by
  apply BitVec.eq_of_toNat_eq
  rw [toNat_low32, BitVec.toNat_add, BitVec.toNat_add, toNat_concat32]
  simp only [BitVec.toNat_ofNat]
  omega

/-- The carry out of the low word: only its largest value has one (42_secure_engine.md R164). -/
theorem high32_concat32_add_one (hi lo : W32) : high32 (concat32 hi lo + 1#64) =
    hi + (if lo = 0xFFFFFFFF#32 then 1#32 else 0#32) := by
  have hlo := lo.isLt
  apply BitVec.eq_of_toNat_eq
  rw [toNat_high32, BitVec.toNat_add, BitVec.toNat_add, toNat_concat32]
  split
  · subst lo
    simp only [BitVec.toNat_ofNat]
    omega
  · have hne : lo.toNat ≠ 2 ^ 32 - 1 := fun h => ‹¬ lo = _› (BitVec.eq_of_toNat_eq (y := 0xFFFFFFFF#32) h)
    simp only [BitVec.toNat_ofNat]
    omega

theorem getElem_withCounter_of_ne {m : Words} {n : W64} {i : Fin 16} (h12 : i ≠ 12) (h13 : i ≠ 13) :
    (withCounter m n)[i] = m[i] := by
  have h12' : ¬ 12 = i.val := fun h => h12 (Fin.ext h.symm)
  have h13' : ¬ 13 = i.val := fun h => h13 (Fin.ext h.symm)
  simp only [withCounter, Fin.getElem_fin, Vector.getElem_set, if_neg h12', if_neg h13']

theorem getElem_withCounter_12 (m : Words) (n : W64) : (withCounter m n)[12] = low32 n := by
  simp [withCounter]

theorem getElem_withCounter_13 (m : Words) (n : W64) : (withCounter m n)[13] = high32 n := by
  simp [withCounter]

theorem sm_sGenerate (e : Secure) : (sGenerate e).sm = withCounter e.sm (e.ctr + 1#64) := rfl

theorem ctr_sGenerate (e : Secure) : (sGenerate e).ctr = e.ctr + 1#64 := by
  rw [Secure.ctr, sm_sGenerate, getElem_withCounter_12, getElem_withCounter_13, concat32_high32_low32]

end Sys2Proof.Machine
end

section
/-! SUPPORT. A draw of the secure engine, by what the reseed check answers (42_secure_engine.md R165 to R172). -/

namespace Sys2Proof.Machine

/-! ### Seeding -/

/-- The engine `S_INSTALL(EXPAND(s, ts))` leaves, in the words of the expanded block (42_secure_engine.md R165,
R167). -/
theorem sInstall_expand {k : Cfg} {s ts : W64} {o : Words} (ho : o = chachaBlock (expandMatrix k s ts)) :
    sInstall k (expand k s ts) =
      ⟨#v[k.cc[0], k.cc[1], k.cc[2], k.cc[3], o[0], o[1], o[2], o[3], o[4], o[5], o[6], o[7],
        o[8], o[9], o[10], o[11]], Vector.replicate 16 0#32, 16, 0#64, true⟩ := by
  subst ho
  rfl

/-- Of the configuration only the constants are expanded and installed. -/
theorem sInstall_expand_congr {k k' : Cfg} (h : k.cc = k'.cc) (s ts : W64) :
    sInstall k (expand k s ts) = sInstall k' (expand k' s ts) := by
  have hmatrix : expandMatrix k s ts = expandMatrix k' s ts := by simp only [expandMatrix, h]
  rw [sInstall_expand rfl, sInstall_expand rfl, hmatrix]
  simp only [h]

/-- The seed and timestamp that `S_SEED(v)` expands, and the environment afterwards (42_secure_engine.md R166, R168). -/
def sSeedSource (v : W64) (env : Env) : W64 × W64 × Env := if v = 0#64 then sEntropySeed env else (v, 0#64, env)

theorem sSeedSource_zero (env : Env) : sSeedSource 0#64 env = sEntropySeed env := rfl

theorem sSeedSource_of_ne_zero {v : W64} (h : v ≠ 0#64) (env : Env) : sSeedSource v env = (v, 0#64, env) := if_neg h

theorem sSeed_eq (k : Cfg) (v : W64) (env : Env) : sSeed k v env =
    (sInstall k (expand k (sSeedSource v env).1 (sSeedSource v env).2.1), (sSeedSource v env).2.2) := by
  rw [sSeed, sSeedSource]
  split <;> rfl

/-- The requests of a zero seed, by the answer of `ENTROPY()` (42_secure_engine.md R168). -/
theorem log_sEntropySeed {env env' : Env} {s ts : W64} (h : sEntropySeed env = (s, ts, env')) :
    env'.log = env.log ++ [.entropy (some s), .timestamp ts] ∨
      env'.log = env.log ++ [.entropy none, .fallbackSeed s, .timestamp ts] := by
  have hlog : (askEntropy env).2.log = env.log ++ [.entropy (askEntropy env).1] := rfl
  rw [sEntropySeed] at h
  cases ha : (askEntropy env).1 with
  | some x =>
    simp only [ha] at h
    cases h
    left
    simp [askTimestamp, hlog, ha]
  | none =>
    simp only [ha] at h
    cases h
    right
    simp [askTimestamp, askFallbackSeed, hlog, ha]

/-! ### The reseed check -/

section
variable {k : Cfg} {e : Secure} {env env' : Env}

theorem reseedCheck_below (h : e.bytes < k.reseedThreshold) : reseedCheck k e env = (e, env) :=
  if_neg (BitVec.not_le.2 h)

theorem reseedCheck_answered {x : W64} (h : k.reseedThreshold ≤ e.bytes) (hx : askEntropy env = (some x, env')) :
    reseedCheck k e env = (sInstall k (expand k (x ^^^ concat32 e.sm[5] e.sm[4]) 0#64), env') := by
  simp only [reseedCheck, if_pos h, hx]

theorem reseedCheck_failed (h : k.reseedThreshold ≤ e.bytes) (hx : askEntropy env = (none, env')) :
    reseedCheck k e env = (e, env') := by
  simp only [reseedCheck, if_pos h, hx]

end

/-! ### The word at the cursor -/

/-- The engine with a word to deliver: a used-up block is replaced (42_secure_engine.md R171). -/
def Secure.withUnread (e : Secure) : Secure := if e.cur = 16 then sGenerate e else e

theorem Secure.withUnread_of_used {e : Secure} (h : e.cur = 16) : e.withUnread = sGenerate e := if_pos h

theorem Secure.withUnread_of_unread {e : Secure} (h : e.cur.val < 16) : e.withUnread = e :=
  if_neg fun he => absurd h (by rw [he]; decide)

theorem Secure.withUnread_seeded (e : Secure) : e.withUnread.seeded = e.seeded := by
  unfold Secure.withUnread
  split <;> rfl

theorem Secure.withUnread_bytes (e : Secure) : e.withUnread.bytes = e.bytes := by
  unfold Secure.withUnread
  split <;> rfl

theorem sTake_fst {e : Secure} (h : e.cur.val < 16) : (sTake e).1 = e.blk[e.cur.val] := by
  simp [sTake, Vector.getD, h]

theorem sTake_sGenerate (e : Secure) : sTake (sGenerate e) =
    ((chachaBlock e.sm)[0], { sGenerate e with cur := 1, bytes := bytesAfterWord e.bytes }) :=
  Prod.ext (sTake_fst (e := sGenerate e) (Nat.succ_pos 15)) rfl

theorem sTake_withUnread (e : Secure) : sTake e.withUnread = (e.withUnread.blk.getD e.withUnread.cur.val 0#32,
    { e.withUnread with cur := e.withUnread.cur + 1, bytes := bytesAfterWord e.bytes }) := by
  rw [sTake, Secure.withUnread_bytes]

theorem sReady_of_seeded {k : Cfg} {e e' : Secure} {env env' : Env} (hseeded : e.seeded = true)
    (hcheck : reseedCheck k e env = (e', env')) : sReady k e env = (e'.withUnread, env') := by
  simp only [sReady, hseeded, if_true, hcheck, Secure.withUnread]

section
variable {s : State} {e : Secure} {env : Env} (hseeded : s.secure.seeded = true)
  (hcheck : reseedCheck s.cfg s.secure s.envS = (e, env))
include hseeded hcheck

theorem State.word_secure : s.word .S = (sTake e.withUnread).1 := by
  show (sTake (sReady s.cfg s.secure s.envS).1).1 = _
  rw [sReady_of_seeded hseeded hcheck]

theorem State.advance_secure : s.advance .S = { s with secure := (sTake e.withUnread).2, envS := env } := by
  show { s with
    secure := (sTake (sReady s.cfg s.secure s.envS).1).2, envS := (sReady s.cfg s.secure s.envS).2 } = _
  rw [sReady_of_seeded hseeded hcheck]

end

/-! ### The words below the threshold -/

/-- The engine after a draw that neither seeds nor reseeds. -/
def Secure.next (e : Secure) : Secure := (sTake e.withUnread).2

theorem Secure.next_seeded (e : Secure) : e.next.seeded = e.seeded := e.withUnread_seeded

theorem Secure.toNat_next_bytes (e : Secure) : e.next.bytes.toNat = min (e.bytes.toNat + 4) (2 ^ 64 - 1) := by
  rw [Secure.next, sTake_withUnread, bytesAfterWord, BitVec.toNat_ofNat]
  omega

theorem Secure.iterate_next_seeded (e : Secure) (n : Nat) : (Secure.next^[n] e).seeded = e.seeded := by
  induction n with
  | zero => rfl
  | succ n ih => rw [Function.iterate_succ_apply', Secure.next_seeded, ih]

theorem Secure.toNat_iterate_next_bytes (e : Secure) (n : Nat) :
    (Secure.next^[n] e).bytes.toNat = min (e.bytes.toNat + 4 * n) (2 ^ 64 - 1) := by
  have hbytes := e.bytes.isLt
  induction n with
  | zero =>
    show e.bytes.toNat = _
    omega
  | succ n ih =>
    rw [Function.iterate_succ_apply', Secure.toNat_next_bytes, ih]
    omega

/-- The engine's own draws keep the reseed check idle while its bytes stay below the threshold. -/
theorem reseedCheck_iterate_next {k : Cfg} {e : Secure} {n : Nat} (env : Env)
    (hn : e.bytes.toNat + 4 * n < k.reseedThreshold.toNat) :
    reseedCheck k (Secure.next^[n] e) env = (Secure.next^[n] e, env) := by
  refine reseedCheck_below ?_
  rw [BitVec.lt_def, Secure.toNat_iterate_next_bytes]
  omega

section
variable {s : State} (hseeded : s.secure.seeded = true)
include hseeded

/-- As long as the bytes delivered stay below the threshold, the draws are the engine's alone. -/
theorem State.advanceBy_secure {n : Nat} (hn : s.secure.bytes.toNat + 4 * n < s.cfg.reseedThreshold.toNat) :
    (s.advanceBy .S n).secure = Secure.next^[n] s.secure := by
  induction n with
  | zero => rfl
  | succ n ih =>
    have hengine := ih (by omega)
    have hcheck := reseedCheck_iterate_next (k := s.cfg) (e := s.secure) (n := n) (s.advanceBy .S n).envS (by omega)
    rw [← hengine, ← s.advanceBy_cfg .S n] at hcheck
    rw [State.advanceBy_succ, State.advance_secure (by rw [hengine, Secure.iterate_next_seeded, hseeded]) hcheck,
      Function.iterate_succ_apply', ← hengine]
    rfl

theorem State.wordAt_secure {n : Nat} (hn : s.secure.bytes.toNat + 4 * n < s.cfg.reseedThreshold.toNat) :
    s.wordAt .S n = (sTake (Secure.next^[n] s.secure).withUnread).1 := by
  have hengine := State.advanceBy_secure hseeded hn
  have hcheck := reseedCheck_iterate_next (s.advanceBy .S n).envS hn
  rw [← hengine, ← s.advanceBy_cfg .S n] at hcheck
  rw [State.wordAt, State.word_secure (by rw [hengine, Secure.iterate_next_seeded, hseeded]) hcheck, hengine]

end

end Sys2Proof.Machine
end

section
/-! SUPPORT. The commands of the secure engine: `SEED`, `ZEROIZE` and `RANDOM_BYTES` (42_secure_engine.md R166, R173,
R174, 43_distribution.md R214). -/

namespace Sys2Proof.Machine

/-- An `S`-only command on `F` is a failure with `ERR_ILLEGAL` (log 13). -/
theorem fails_of_illFormed {i : Instr} (h : i.wellFormed = false) (s : State) : Fails i .illegal 0#64 s :=
  ⟨_, exec_of_illFormed h s, onlyReports_complete i.chan .illegal 0#64 s⟩

/-- `SEED` on `S` writes the engine and its environment, and completes with four zeros. -/
theorem exec_seed_secure (s : State) : exec (.seed .S) s =
    .next ({ s with
      secure := (sSeed s.cfg (s.argU64 .S 0) s.envS).1
      envS := (sSeed s.cfg (s.argU64 .S 0) s.envS).2 }.complete .S (.done 0#64 0#64 0#64 0#64)) := rfl

theorem exec_zeroize_secure (s : State) : exec (.zeroize .S) s =
    .next ({ s with secure := Secure.afterReset }.complete .S (.done 0#64 0#64 0#64 0#64)) := rfl

/-! ### What a piece of a command leaves -/

/-- Whatever a piece of a command does stays in its channel. -/
theorem Reaches.onlyChannel {α : Type} {c : Chan} {m : Ctx → Cmd α} {s t : State} {a : α} (h : Reaches c m s a t) :
    OnlyChannel c s t := by
  rw [h.2]
  simp [OnlyChannel]

theorem Reaches.inputsKept {α : Type} {c : Chan} {m : Ctx → Cmd α} {s t : State} {a : α} (h : Reaches c m s a t) :
    InputsKept c s t := by
  rw [h.2]
  simp [InputsKept, State.inByte]

/-- Storing output bytes leaves the cells alone. -/
@[simp] theorem State.cell_setOuts (s : State) (c : Chan) (i j : Nat) (bs : List Byte) :
    (s.setOuts c i bs).cell c j = s.cell c j := by
  induction bs generalizing s i with
  | nil => rfl
  | cons b bs ih => rw [State.setOuts, ih, State.cell_setOut]

/-! A completion writes the outcome registers alone. -/

section
variable {s t : State} {c : Chan} (r : Reply)

theorem OnlyChannel.complete (h : OnlyChannel c s t) : OnlyChannel c s (t.complete c r) := by
  simpa [OnlyChannel] using h

theorem InputsKept.complete (h : InputsKept c s t) : InputsKept c s (t.complete c r) := by
  simpa [InputsKept, State.inByte] using h

theorem BufKept.complete (h : BufKept c s t) : BufKept c s (t.complete c r) := by
  simpa [BufKept, State.cell] using h

theorem DrewWords.complete {n : Nat} (h : DrewWords c n s t) : DrewWords c n s (t.complete c r) := by
  simpa [DrewWords] using h

theorem State.outByte_complete (a : Nat) : (t.complete c r).outByte c a = t.outByte c a := by simp [State.outByte]

end

/-! ### The byte stream -/

/-- The bytes of consecutive words are the stream that gives each word four (42_secure_engine.md R173). -/
theorem flatMap_wordBytes (word : Nat → W32) (n : Nat) :
    ((List.range n).map word).flatMap wordBytes =
      (List.range (4 * n)).map fun a => byteOf (word (a / 4)) (a % 4) := by
  induction n with
  | zero => rfl
  | succ n ih =>
    have h0 : (4 * n) / 4 = n ∧ (4 * n) % 4 = 0 := by omega
    have h1 : (4 * n + 1) / 4 = n ∧ (4 * n + 1) % 4 = 1 := by omega
    have h2 : (4 * n + 2) / 4 = n ∧ (4 * n + 2) % 4 = 2 := by omega
    have h3 : (4 * n + 3) / 4 = n ∧ (4 * n + 3) % 4 = 3 := by omega
    simp [List.range_succ, Nat.mul_succ, ih, wordBytes, h0, h1, h2, h3]

/-- `S_BYTES(n)` delivers the first `n` bytes of the stream (42_secure_engine.md R173). -/
theorem reaches_drawBytes (s : State) (n : Nat) :
    Reaches .S (fun k => drawBytes k n) s ((List.range n).map s.streamByte) (s.advanceBy .S ((n + 3) / 4)) := by
  have hbytes : (((List.range ((n + 3) / 4)).map (s.wordAt .S)).flatMap wordBytes).take n =
      (List.range n).map s.streamByte := by
    have hmin : min n (4 * ((n + 3) / 4)) = n := by omega
    rw [flatMap_wordBytes, ← List.map_take, List.take_range, hmin]
    rfl
  rw [← hbytes]
  exact (reaches_drawWords .S _ s).bind (f := fun _ ws => ret ((ws.flatMap wordBytes).take n)) (reaches_ret _ _ _)

/-! ### `RANDOM_BYTES` -/

/-- The state that `RANDOM_BYTES` of `n` bytes completes in (43_distribution.md R214). -/
def State.afterBytes (s : State) (n : Nat) : State :=
  (s.advanceBy .S ((n + 3) / 4)).setOuts .S 0 ((List.range n).map s.streamByte)

section
variable {s : State}

theorem fails_randomBytes (h : s.argI32 .S 0 ≤ 0 ∨ (s.cfg.maxBytes : Int) < s.argI32 .S 0) :
    Fails (.randomBytes .S) .size 0#64 s := by
  refine fails_of_body (body := randomBytesBody) rfl rfl ?_
  rw [randomBytesBody]
  exact congrFun (if_pos h) _

theorem reaches_randomBytesBody (hpos : 0 < s.argI32 .S 0) (hmax : s.argI32 .S 0 ≤ s.cfg.maxBytes) :
    Reaches .S randomBytesBody s (okBool true) (s.afterBytes (s.argI32 .S 0).toNat) := by
  have hsize : ¬ (s.argI32 .S 0 ≤ 0 ∨ (s.cfg.maxBytes : Int) < s.argI32 .S 0) := by omega
  have hstore : Reaches .S (fun k => writeOuts k 0 ((List.range (s.argI32 .S 0).toNat).map s.streamByte))
      (s.advanceBy .S (((s.argI32 .S 0).toNat + 3) / 4)) () (s.afterBytes (s.argI32 .S 0).toNat) := by
    refine reaches_writeOuts ?_
    rw [List.length_map, List.length_range, State.advanceBy_cfg]
    omega
  have hrun := (reaches_drawBytes s (s.argI32 .S 0).toNat).bind
    (f := fun k bs => andThen (writeOuts k 0 bs) fun _ => ret (okBool true))
    (hstore.bind (f := fun _ _ => ret (okBool true)) (reaches_ret _ _ _))
  refine ⟨?_, hrun.2⟩
  rw [randomBytesBody]
  exact (congrFun (if_neg hsize) _).trans hrun.1

end

theorem State.outByte_afterBytes (s : State) (n a : Nat) :
    (s.afterBytes n).outByte .S a = if a < n then s.streamByte a else s.outByte .S a := by
  rw [State.afterBytes, State.outByte_setOuts]
  simp

theorem State.drewWords_afterBytes (s : State) (n : Nat) : DrewWords .S ((n + 3) / 4) s (s.afterBytes n) := by
  simp [DrewWords, State.afterBytes]

theorem State.bufKept_afterBytes (s : State) (n : Nat) : BufKept .S s (s.afterBytes n) := by
  simp [BufKept, State.afterBytes]

end Sys2Proof.Machine
end

section
/-! PROOF. The secure engine: its block function, its seeding and draws, and its commands (42_secure_engine.md). -/

open Sys2Proof Sys2Proof.Machine

/-- Settles O21: both engines are the same after seeding, and below the threshold a draw is a function of the engine. -/
theorem secureWordsDeterminedBySeed : Obligations.SecureWordsDeterminedBySeed := by
  intro s s' v x y hv hs hs' hcc hthreshold n hn
  rw [sSeed_eq, sSeedSource_of_ne_zero hv] at hs hs'
  have hsame : s.secure = s'.secure := hs.trans ((sInstall_expand_congr hcc v 0#64).trans hs'.symm)
  have hseeded : s.secure.seeded = true := by rw [hs]; rfl
  have hbytes : s.secure.bytes.toNat = 0 := by rw [hs]; rfl
  rw [State.wordAt_secure hseeded (by omega),
    State.wordAt_secure (hsame ▸ hseeded) (by rw [← hsame, ← hthreshold]; omega), hsame]

/-- Settles O24: the counter's two words are the halves of the incremented counter. -/
theorem generateAdvancesCounter : Obligations.GenerateAdvancesCounter := by
  intro e
  refine ⟨rfl, ctr_sGenerate e, rfl, rfl, rfl, fun i h12 h13 => getElem_withCounter_of_ne h12 h13, ?_, ?_⟩
  · rw [sm_sGenerate, getElem_withCounter_12]
    exact low32_concat32_add_one _ _
  · rw [sm_sGenerate, getElem_withCounter_13]
    exact high32_concat32_add_one _ _

/-- Settles O28: a quarter-round is local to its four words. -/
theorem quarterRoundsOnDisjointWordsCommute : Obligations.QuarterRoundsOnDisjointWordsCommute := by
  intro x a b c d _
  refine ⟨(localTo_quarterRound a b c d).writes x, fun a' b' c' d' hnodup => ?_⟩
  have hdisjoint : [a, b, c, d].Disjoint [a', b', c', d'] := List.disjoint_of_nodup_append hnodup
  exact ((localTo_quarterRound a b c d).commute (localTo_quarterRound a' b' c' d') hdisjoint x).symm

/-- Settles O47: the command draws its bytes and stores them from byte 0 on. -/
theorem randomBytesWrites : Obligations.RandomBytesWrites := by
  intro s
  refine ⟨fails_of_illFormed rfl s, fails_randomBytes, fun hpos hmax => ?_⟩
  have hreach := reaches_randomBytesBody hpos hmax
  have hlen : ((s.argI32 .S 0).toNat : Int) = s.argI32 .S 0 := Int.toNat_of_nonneg hpos.le
  refine ⟨_, runCommand_reaches hreach, ?_, ?_, fun a ha => ?_, fun a ha => ?_, (s.drewWords_afterBytes _).complete _,
    hreach.onlyChannel.complete _, hreach.inputsKept.complete _, (s.bufKept_afterBytes _).complete _⟩
  · simp [Completed, okBool, Reply.okFlag, Reply.errCode]
  · simp [okBool, Reply.results]
  · rw [State.outByte_complete, State.outByte_afterBytes, if_pos (by omega)]
  · rw [State.outByte_complete, State.outByte_afterBytes, if_neg (by omega)]

/-- Settles O23, with `sSeedSource` as the seed, the timestamp and the environment left. -/
theorem seedSecureSetsState : Obligations.SeedSecureSetsState := by
  intro s
  have hexec := exec_seed_secure s
  rw [sSeed_eq, sInstall_expand rfl] at hexec
  refine ⟨_, _, _, _, hexec, rfl, fun h => ?_, fun h => ?_⟩
  · rw [sSeedSource_of_ne_zero h]
    exact ⟨rfl, rfl, rfl⟩
  · rw [h, sSeedSource_zero]
    exact log_sEntropySeed rfl

/-- Settles O25: the reseed check answers the engine unchanged. -/
theorem secureDrawBelowThreshold : Obligations.SecureDrawBelowThreshold := by
  intro s hseeded hbelow
  rw [State.word_secure hseeded (reseedCheck_below hbelow), State.advance_secure hseeded (reseedCheck_below hbelow)]
  refine ⟨fun hcur => ?_, fun hcur => ?_⟩
  · rw [Secure.withUnread_of_unread hcur]
    exact ⟨sTake_fst hcur, rfl⟩
  · rw [Secure.withUnread_of_used hcur, sTake_sGenerate]
    exact ⟨rfl, rfl⟩

/-- Settles O26: a newly installed engine has no block and no bytes delivered, so its first draw generates one. -/
theorem reseedAtThreshold : Obligations.ReseedAtThreshold := by
  intro s hseeded hdue
  refine ⟨fun e env hask => ⟨_, rfl, ?_⟩, fun env hask => ⟨s.secure.withUnread, rfl, ?_⟩⟩
  · have hcheck := reseedCheck_answered hdue hask
    rw [State.word_secure hseeded hcheck, State.advance_secure hseeded hcheck, Secure.withUnread_of_used rfl,
      sTake_sGenerate]
    exact ⟨rfl, rfl⟩
  · have hcheck := reseedCheck_failed hdue hask
    rw [State.word_secure hseeded hcheck, State.advance_secure hseeded hcheck, sTake_withUnread]
    exact ⟨rfl, rfl⟩

/-- Settles O27: on `S` the engine is the one after reset; on `F` the command is ill-formed. -/
theorem zeroizeErasesSecureEngine : Obligations.ZeroizeErasesSecureEngine :=
  fun s => ⟨exec_zeroize_secure s, fails_of_illFormed rfl s⟩
end

section
/-! SUPPORT. Integer operands as words, and how a command's pseudocode is followed down one of its branches
(00_scope.md R8, 30_encoding.md R105). -/

namespace Sys2Proof.Machine

/-! ### Integers as words -/

theorem toNat_asU32 {x : Int} (h0 : 0 ≤ x) (h : x < 2 ^ 32) : ((asU32 x).toNat : Int) = x := by
  rw [asU32, BitVec.toNat_ofInt]
  omega

theorem asU32_ne_zero {x : Int} (h0 : 0 < x) (h : x < 2 ^ 32) : asU32 x ≠ 0#32 := by
  intro hz
  have hx := toNat_asU32 h0.le h
  rw [hz] at hx
  exact h0.ne hx

theorem asU32_add (x : Int) (v : W32) : asU32 x + v = asU32 (x + v.toNat) := by
  rw [asU32, asU32, BitVec.ofInt_add, BitVec.ofInt_natCast, BitVec.ofNat_toNat, BitVec.setWidth_eq]

theorem toInt_asU32 {x : Int} (hlo : -2 ^ 31 ≤ x) (hhi : x < 2 ^ 31) : (asU32 x).toInt = x := by
  rw [asU32, BitVec.toInt_ofInt]
  exact Int.bmod_eq_of_le hlo hhi

theorem sext64_asU32_natCast {n : Nat} (h : n < 2 ^ 31) : sext64 (asU32 n) = BitVec.ofNat 64 n := by
  apply BitVec.eq_of_toNat_eq
  rw [toNat_sext64_asU32 h, BitVec.toNat_ofNat]
  omega

/-- An `i32` argument is a signed 32-bit number (00_scope.md R8). -/
theorem State.argI32_mem (s : State) (c : Chan) (i : Fin 8) : -2 ^ 31 ≤ s.argI32 c i ∧ s.argI32 c i < 2 ^ 31 :=
  ⟨BitVec.le_toInt _, argI32_lt (s.ctx c) i⟩

/-- A bounded draw is below its bound, the bound given as a number (40_bounded_sampler.md R125). -/
theorem Sampled.toNat_lt {c : Chan} {b : Int} {s t : State} {v : W32} (hv : Sampled c (asU32 b) s v t) (h0 : 0 < b)
    (h : b < 2 ^ 32) : (v.toNat : Int) < b := by
  have hlt := BitVec.lt_def.1 (hv.lt (asU32_ne_zero h0 h))
  have hb := toNat_asU32 h0.le h
  omega

/-! ### One branch of a command -/

section
variable {i : Instr} {c : Chan} {s t : State}

/-- A piece of a command reaches what its branch reaches on the operands of `s`. -/
theorem Reaches.of_eq {α : Type} {m m' : Ctx → Cmd α} {a : α} (hr : Reaches c m' s a t)
    (h : m (s.ctx c) = m' (s.ctx c)) : Reaches c m s a t :=
  ⟨(congrFun h _).trans hr.1, hr.2⟩

/-- A piece whose answer only takes another form. -/
theorem Reaches.map {α β : Type} {m : Ctx → Cmd α} {a : α} (h : Reaches c m s a t) (g : α → β) :
    Reaches c (fun k => andThen (m k) fun x => ret (g x)) s (g a) t :=
  h.bind (f := fun _ x => ret (g x)) (reaches_ret c t _)

/-- A command whose branch on the operands of `s` is a failure. -/
theorem fails_of_branch {body : Ctx → Cmd Reply} {e : Err} {v : W64} (hi : exec i s = runCommand c body s)
    (hc : i.chan = c) (h : body (s.ctx c) = ret (.fail e v)) : Fails i e v s :=
  fails_of_body hi hc (congrFun h _)

end

end Sys2Proof.Machine
end

section
/-! SUPPORT. The shuffles: what a run of their loop leaves of the cells (43_distribution.md R206, R207). -/

namespace Sys2Proof.Machine

/-! ### Rearranging cells -/

/-- The cells of `BUF[c]` in `t` are those of `s` in another order, those outside `I` where they were. -/
def Rearranged (c : Chan) (I : Nat → Prop) (s t : State) : Prop :=
  ∃ p : Equiv.Perm Nat, (∀ a, ¬ I a → p a = a) ∧ ∀ a, t.cell c a = s.cell c (p a)

section
variable {c : Chan} {I J : Nat → Prop} {s t u : State}

theorem rearranged_of_bufKept (I : Nat → Prop) (h : BufKept c s t) : Rearranged c I s t := ⟨1, fun _ _ => rfl, h⟩

theorem rearranged_of_swap {i j : Nat} (hi : I i) (hj : I j) : Rearranged c I s (s.swapped c i j) :=
  ⟨Equiv.swap i j, fun _ ha => Equiv.swap_apply_of_ne_of_ne (fun e => ha (e ▸ hi)) fun e => ha (e ▸ hj),
    s.cell_swapped c i j⟩

theorem Rearranged.trans (h : Rearranged c I s t) (h' : Rearranged c I t u) : Rearranged c I s u := by
  obtain ⟨p, hp, hcell⟩ := h
  obtain ⟨q, hq, hcell'⟩ := h'
  refine ⟨q.trans p, fun a ha => ?_, fun a => ?_⟩
  · rw [Equiv.trans_apply, hq a ha, hp a ha]
  · rw [Equiv.trans_apply, hcell', hcell]

theorem Rearranged.mono (h : Rearranged c I s t) (hIJ : ∀ a, I a → J a) : Rearranged c J s t := by
  obtain ⟨p, hp, hcell⟩ := h
  exact ⟨p, fun a ha => hp a fun hI => ha (hIJ a hI), hcell⟩

end

theorem State.bufKept_advanceBy (s : State) (c : Chan) (n : Nat) : BufKept c s (s.advanceBy c n) := s.advanceBy_cell c n

/-! ### The downward loop -/

/-- The cells a loop of `n` exchanges above `base` can move. -/
def shuffledCells (base n a : Nat) : Prop := 0 < n ∧ base ≤ a ∧ a ≤ base + n

theorem shuffledCells_succ {base n a : Nat} (h : shuffledCells base n a) : shuffledCells base (n + 1) a :=
  ⟨n.succ_pos, h.2.1, h.2.2.trans (by omega)⟩

/-- The exchange that a bounded draw of `n + 2` gives stays inside `base .. base + n + 1`. -/
theorem Sampled.shuffle_index_le {c : Chan} {n : Nat} {s t : State} {v : W32}
    (h : Sampled c (BitVec.ofNat 32 (n + 2)) s v t) (hn : n + 2 < 2 ^ 32) : v.toNat ≤ n + 1 := by
  have hv : Sampled c (asU32 (n + 2 : Nat)) s v t := by rwa [asU32, BitVec.ofInt_natCast]
  have hlt := hv.toNat_lt (by omega) (by omega)
  omega

theorem Sampled.rearranged_swapped {c : Chan} {base n : Nat} {s u : State} {v : W32}
    (h : Sampled c (BitVec.ofNat 32 (n + 2)) s v u) (hn : n + 2 < 2 ^ 32) :
    Rearranged c (shuffledCells base (n + 1)) s (u.swapped c (base + (n + 1)) (base + v.toNat)) := by
  have hle := h.shuffle_index_le hn
  obtain ⟨m, rfl⟩ := h.draws
  exact (rearranged_of_bufKept _ (s.bufKept_advanceBy c m)).trans
    (rearranged_of_swap ⟨n.succ_pos, by omega, by omega⟩ ⟨n.succ_pos, by omega, by omega⟩)

theorem ShuffledFrom.rearranged {c : Chan} {base n : Nat} {s t : State} (h : ShuffledFrom c base n s t)
    (hn : n < 2 ^ 32 - 1) : Rearranged c (shuffledCells base n) s t := by
  induction n generalizing s with
  | zero =>
    obtain rfl : t = s := h
    exact rearranged_of_bufKept _ fun _ => rfl
  | succ n ih =>
    obtain ⟨v, u, hv, ht⟩ := h
    exact (hv.rearranged_swapped (by omega)).trans ((ih ht (by omega)).mono fun _ => shuffledCells_succ)

/-- All that the loop can do: exchange cells to its end, or not end, some exchanges made, at a draw
(40_bounded_sampler.md R126). -/
theorem shuffleDown_cases {c : Chan} {base n : Nat} {s : State} (hn : n < 2 ^ 32 - 1)
    (hb : base + n < s.cfg.maxElems) :
    (∃ t, ShuffledFrom c base n s t) ∨
    ∃ t, t.ctx c = s.ctx c ∧ Rearranged c (shuffledCells base n) s t ∧
      shuffleDown (s.ctx c) base n (s.work c) = .stuck (t.work c) := by
  induction n generalizing s with
  | zero => exact .inl ⟨s, rfl⟩
  | succ n ih =>
    obtain ⟨v, u, hv, hreach⟩ | ⟨-, -, hstuck⟩ := boundedSample_cases c (BitVec.ofNat 32 (n + 2)) s
    · have hmoved := hv.rearranged_swapped (base := base) (by omega)
      have hle := hv.shuffle_index_le (by omega)
      have hcfg : u.cfg = s.cfg := congrArg Ctx.cfg hreach.ctx
      have hswap : Reaches c (fun k => swapCells k (base + (n + 1)) (base + v.toNat)) u () _ :=
        reaches_swapCells (by rw [hcfg]; omega) (by rw [hcfg]; omega)
      have hrun := hreach.bind (f := fun k j => swapCells k (base + (n + 1)) (base + j.toNat)) hswap
      obtain ⟨t, ht⟩ | ⟨t, hctx, hrest, hstuck⟩ := ih (s := u.swapped c (base + (n + 1)) (base + v.toNat)) (by omega)
        (by rw [State.swapped_cfg, hcfg]; omega)
      · exact .inl ⟨t, v, u, hv, ht⟩
      · refine .inr ⟨t, hctx.trans hrun.ctx, hmoved.trans (hrest.mono fun _ => shuffledCells_succ), ?_⟩
        rw [shuffleDown, ← andThen_assoc]
        exact hrun.stuck (f := fun k _ => shuffleDown k base n) hstuck
    · exact .inr ⟨s.advanceBy c (s.cfg.fuel + 1), by simp, rearranged_of_bufKept _ (s.bufKept_advanceBy c _),
        andThen_stuck hstuck⟩

/-! ### The commands -/

/-- The loop of `n` exchanges above `base`, and the reply of both shuffles. -/
def shuffleCore (base n : Nat) (k : Ctx) : Cmd Reply := andThen (shuffleDown k base n) fun _ => ret (okBool true)

section
variable {c : Chan} {base n : Nat} {s t : State}

theorem reaches_shuffleCore (h : ShuffledFrom c base n s t) (hn : n < 2 ^ 32 - 1)
    (hb : 0 < n → base + n < s.cfg.maxElems) : Reaches c (shuffleCore base n) s (okBool true) t := by
  obtain rfl | hpos := n.eq_zero_or_pos
  · obtain rfl : t = s := h
    exact reaches_ret c t _
  · exact (reaches_shuffleDown h hn (hb hpos)).map fun _ => okBool true

theorem rearranged_shuffleCore (hn : n < 2 ^ 32 - 1) (hb : 0 < n → base + n < s.cfg.maxElems)
    (h : runCommand c (shuffleCore base n) s = .next t) : Rearranged c (shuffledCells base n) s t := by
  have hcases : (∃ u, ShuffledFrom c base n s u) ∨ _ :=
    n.eq_zero_or_pos.elim (fun h0 => .inl ⟨s, by rw [h0]; rfl⟩) fun hpos => shuffleDown_cases hn (hb hpos)
  obtain ⟨u, hu⟩ | ⟨u, hctx, hu, hstuck⟩ := hcases
  · cases (runCommand_reaches (reaches_shuffleCore hu hn hb)).symm.trans h
    exact (hu.rearranged hn).trans (rearranged_of_bufKept _ (BufKept.complete _ fun _ => rfl))
  · cases (runCommand_stuck (body := shuffleCore base n) (andThen_stuck hstuck)).symm.trans h
    refine hu.trans (rearranged_of_bufKept _ fun a => ?_)
    have hepoch : (u.port c).epoch = (s.port c).epoch := congrArg Ctx.epoch hctx
    simp [State.cell, hepoch]

end

section
variable {c : Chan} {s : State}

theorem shuffleBody_of_large (h : (s.cfg.maxElems : Int) < s.argI32 c 0) :
    shuffleBody (s.ctx c) = ret (.fail .size 0#64) := if_pos h

theorem shuffleBody_of_fits (h : s.argI32 c 0 ≤ s.cfg.maxElems) :
    shuffleBody (s.ctx c) = shuffleCore 0 (s.argI32 c 0 - 1).toNat (s.ctx c) := if_neg h.not_gt

/-- An index of `SHUFFLE_RANGE` is outside the memory (43_distribution.md R207). -/
def rangeOutside (c : Chan) (s : State) : Prop :=
  s.argI32 c 0 < 0 ∨ s.argI32 c 1 < 0 ∨ (s.cfg.maxElems : Int) ≤ s.argI32 c 0 ∨ (s.cfg.maxElems : Int) ≤ s.argI32 c 1

theorem shuffleRangeBody_of_outside (h : rangeOutside c s) : shuffleRangeBody (s.ctx c) = ret (.fail .size 0#64) :=
  if_pos h

theorem shuffleRangeBody_of_inside (h : ¬ rangeOutside c s) : shuffleRangeBody (s.ctx c) =
    shuffleCore (s.argI32 c 0).toNat (s.argI32 c 1 - s.argI32 c 0).toNat (s.ctx c) := if_neg h

theorem bufKept_of_fails {i : Instr} {e : Err} {v : W64} {t : State} (h : Fails i e v s) (ht : exec i s = .next t) :
    BufKept i.chan s t := by
  obtain ⟨t', ht', hrep⟩ := h
  cases ht'.symm.trans ht
  obtain ⟨-, -, -, -, -, hepoch, hbuf, -⟩ := hrep
  intro a
  rw [State.cell, State.cell, hepoch, hbuf]

theorem fails_shuffle (h : (s.cfg.maxElems : Int) < s.argI32 c 0) : Fails (.shuffle c) .size 0#64 s :=
  fails_of_branch rfl rfl (shuffleBody_of_large h)

theorem fails_shuffleRange (h : rangeOutside c s) : Fails (.shuffleRange c) .size 0#64 s :=
  fails_of_branch rfl rfl (shuffleRangeBody_of_outside h)

/-- A command whose branch on the operands of `s` is another pseudocode runs that one. -/
theorem runCommand_congr {body body' : Ctx → Cmd Reply} (h : body (s.ctx c) = body' (s.ctx c)) :
    runCommand c body s = runCommand c body' s := by rw [runCommand, runCommand, h]

theorem exec_shuffle_of_fits (h : s.argI32 c 0 ≤ s.cfg.maxElems) :
    exec (.shuffle c) s = runCommand c (shuffleCore 0 (s.argI32 c 0 - 1).toNat) s :=
  runCommand_congr (shuffleBody_of_fits h)

theorem exec_shuffleRange_of_inside (h : ¬ rangeOutside c s) : exec (.shuffleRange c) s =
    runCommand c (shuffleCore (s.argI32 c 0).toNat (s.argI32 c 1 - s.argI32 c 0).toNat) s :=
  runCommand_congr (shuffleRangeBody_of_inside h)

theorem rearranged_shuffle {t : State} (h : exec (.shuffle c) s = .next t) :
    Rearranged c (fun a => (a : Int) < s.argI32 c 0) s t := by
  have hlt := (s.argI32_mem c 0).2
  by_cases hfits : s.argI32 c 0 ≤ s.cfg.maxElems
  · rw [exec_shuffle_of_fits hfits] at h
    refine (rearranged_shuffleCore (by omega) (by omega) h).mono fun a ha => ?_
    unfold shuffledCells at ha
    omega
  · exact rearranged_of_bufKept _ (bufKept_of_fails (fails_shuffle (not_le.1 hfits)) h)

theorem rearranged_shuffleRange {t : State} (h : exec (.shuffleRange c) s = .next t) :
    Rearranged c (fun a => s.argI32 c 0 ≤ a ∧ (a : Int) ≤ s.argI32 c 1) s t := by
  have hlt := (s.argI32_mem c 1).2
  by_cases hout : rangeOutside c s
  · exact rearranged_of_bufKept _ (bufKept_of_fails (fails_shuffleRange hout) h)
  · rw [exec_shuffleRange_of_inside hout] at h
    unfold rangeOutside at hout
    refine (rearranged_shuffleCore (by omega) (by omega) h).mono fun a ha => ?_
    unfold shuffledCells at ha
    omega

end

end Sys2Proof.Machine
end

section
/-! PROOF. The shuffles (43_distribution.md R206, R207). -/

open Sys2Proof Sys2Proof.Machine

/-- Settles O41: a loop's exchanges compose to one permutation, wherever the loop stops. -/
theorem shufflesPermute : Obligations.ShufflesPermute := by
  refine fun s t c => ⟨fun h => ?_, fun h => ?_⟩
  · obtain ⟨p, hfixed, hcell⟩ := rearranged_shuffle h
    exact ⟨p, fun a ha => hfixed a (by omega), hcell⟩
  · obtain ⟨p, hfixed, hcell⟩ := rearranged_shuffleRange h
    exact ⟨p, fun a ha => hfixed a (by omega), hcell⟩

/-- Settles O40: both commands are the same downward loop. -/
theorem shufflesSwapDownward : Obligations.ShufflesSwapDownward := by
  intro s c
  have h0 := s.argI32_mem c 0
  have h1 := s.argI32_mem c 1
  refine ⟨fails_shuffle, fun hfits t ht => ?_, fails_shuffleRange, fun hb he hb' he' t ht => ?_⟩
  · exact succeeds_of_reaches (exec_shuffle_of_fits hfits) rfl (reaches_shuffleCore ht (by omega) (by omega))
  · have hinside : ¬ rangeOutside c s := by
      unfold rangeOutside
      omega
    exact succeeds_of_reaches (exec_shuffleRange_of_inside hinside) rfl (reaches_shuffleCore ht (by omega) (by omega))
end

section
/-! SUPPORT. The commands of one bounded draw, and `DICE` (43_distribution.md R201, R204, R210, R211). -/

namespace Sys2Proof.Machine

section
variable {c : Chan} {s u : State} {v : W32}

/-! ### `RANGE` -/

theorem rangeBody_of_eq (h : min (s.argI32 c 0) (s.argI32 c 1) = max (s.argI32 c 0) (s.argI32 c 1)) :
    rangeBody (s.ctx c) = ret (okI32 (asU32 (min (s.argI32 c 0) (s.argI32 c 1)))) := if_pos h

theorem rangeBody_of_ne (h : min (s.argI32 c 0) (s.argI32 c 1) ≠ max (s.argI32 c 0) (s.argI32 c 1)) :
    rangeBody (s.ctx c) = andThen
      (boundedSample (s.ctx c) (asU32 (max (s.argI32 c 0) (s.argI32 c 1) - min (s.argI32 c 0) (s.argI32 c 1) + 1)))
      fun v => ret (okI32 (asU32 (min (s.argI32 c 0) (s.argI32 c 1)) + v)) := if_neg h

/-- On different bounds `RANGE` adds a bounded draw of the span to the lower one. -/
theorem succeeds_range {lo hi : Int} (hlo : lo = min (s.argI32 c 0) (s.argI32 c 1))
    (hhi : hi = max (s.argI32 c 0) (s.argI32 c 1)) (hne : lo ≠ hi) (hv : Sampled c (asU32 (hi - lo + 1)) s v u) :
    Succeeds (.range c) (sext64 (asU32 lo + v)) 0#64 0#64 0#64 u s := by
  subst hlo hhi
  have hrun := (reaches_boundedSample hv).map fun v => okI32 (asU32 (min (s.argI32 c 0) (s.argI32 c 1)) + v)
  exact succeeds_of_reaches rfl rfl (hrun.of_eq (rangeBody_of_ne hne))

/-! ### `BOOLEAN_WEIGHTED` -/

theorem booleanWeightedBody_of_true_le (h : s.argI32 c 0 ≤ 0) :
    booleanWeightedBody (s.ctx c) = ret (okBool false) := if_pos h

theorem booleanWeightedBody_of_false_le (htrue : 0 < s.argI32 c 0) (h : s.argI32 c 1 ≤ 0) :
    booleanWeightedBody (s.ctx c) = ret (okBool true) := (if_neg htrue.not_ge).trans (if_pos h)

theorem booleanWeightedBody_of_pos {p : Int × Int} (htrue : 0 < s.argI32 c 0) (hfalse : 0 < s.argI32 c 1)
    (hp : halvedWeights (s.argI32 c 0) (s.argI32 c 1) = p) :
    booleanWeightedBody (s.ctx c) = andThen (boundedSample (s.ctx c) (asU32 (p.1 + p.2))) fun v =>
      ret (okBool (decide ((v.toNat : Int) < p.1))) := by
  subst hp
  exact (if_neg htrue.not_ge).trans (if_neg hfalse.not_ge)

/-- Halving is division by the factor that brings the sum below `2^31`. -/
theorem halvedWeights_eq (tw fw : Int) : halvedWeights tw fw =
    (tw / (if 2 ^ 31 ≤ tw + fw then 2 else 1), fw / (if 2 ^ 31 ≤ tw + fw then 2 else 1)) := by
  unfold halvedWeights
  by_cases h : 2 ^ 31 ≤ tw + fw
  · rw [if_pos h, if_pos (by omega)]
  · rw [if_neg h, if_neg (by omega), Int.ediv_one, Int.ediv_one]

/-! ### `DICE` -/

theorem diceBody_of_not_pos (h : s.argI32 c 0 ≤ 0 ∨ s.argI32 c 1 ≤ 0) :
    diceBody (s.ctx c) = ret (.fail .numeric 0#64) := if_pos h

theorem diceBody_of_pos (hsides : 0 < s.argI32 c 0) (hcount : 0 < s.argI32 c 1) :
    diceBody (s.ctx c) = andThen (diceSum (s.ctx c) (asU32 (s.argI32 c 0)) (s.argI32 c 1).toNat 0#32) fun t =>
      ret (okI32 t) := if_neg (not_or.2 ⟨hsides.not_ge, hcount.not_ge⟩)

/-! ### `PICK` -/

theorem pickBody_of_size (h : s.argI32 c 0 ≤ 0 ∨ (s.cfg.maxElems : Int) < s.argI32 c 0) :
    pickBody (s.ctx c) = ret (.fail .size 0#64) := if_pos h

theorem pickBody_of_fits (hpos : 0 < s.argI32 c 0) (hmax : s.argI32 c 0 ≤ s.cfg.maxElems) :
    pickBody (s.ctx c) = andThen (boundedSample (s.ctx c) (asU32 (s.argI32 c 0))) fun j =>
      andThen (readBuf (s.ctx c) j.toNat) fun v => ret (okCell v) := if_neg (not_or.2 ⟨hpos.not_ge, hmax.not_gt⟩)

/-- The draws of `PICK` leave the cells, so the cell read is that of the state before. -/
theorem reaches_pickBody (hpos : 0 < s.argI32 c 0) (hmax : s.argI32 c 0 ≤ s.cfg.maxElems)
    (hv : Sampled c (asU32 (s.argI32 c 0)) s v u) : Reaches c pickBody s (okCell (s.cell c v.toNat)) u := by
  have hlt := hv.toNat_lt hpos ((s.argI32_mem c 0).2.trans (by norm_num))
  obtain ⟨n, rfl⟩ := hv.draws
  have hread : Reaches c (fun k => readBuf k v.toNat) (s.advanceBy c n) (s.cell c v.toNat) (s.advanceBy c n) := by
    have h := reaches_readBuf (c := c) (s := s.advanceBy c n) (i := v.toNat) (by rw [State.advanceBy_cfg]; omega)
    rwa [State.advanceBy_cell] at h
  exact ((reaches_boundedSample hv).bind (f := fun k j => andThen (readBuf k j.toNat) fun v => ret (okCell v))
    (hread.map okCell)).of_eq (pickBody_of_fits hpos hmax)

end

end Sys2Proof.Machine
end

section
/-! SUPPORT. `WEIGHTED_INDEX`: the total of the weights and the scan of their running sums (43_distribution.md R205). -/

namespace Sys2Proof.Machine

theorem weightTotal_append_singleton (l : List Int) (x : Int) : weightTotal (l ++ [x]) = weightTotal l + max 0 x := by
  induction l with
  | nil =>
    simp only [List.nil_append, weightTotal]
    omega
  | cons y l ih => rw [List.cons_append, weightTotal, weightTotal, ih, add_assoc]

section
variable (s : State) (c : Chan)

/-- The weights the command reads. -/
def State.weights (n : Nat) : List Int := (List.range n).map (s.weight c)

theorem weightTotal_weights (n : Nat) : weightTotal (s.weights c n) = s.weightBelow c n := by
  induction n with
  | zero => rfl
  | succ n ih =>
    have hsucc : s.weights c (n + 1) = s.weights c n ++ [s.weight c n] := by simp [State.weights, List.range_succ]
    rw [hsucc, weightTotal_append_singleton, ih, State.weightBelow]

/-- The interval of running sums of cell `j` encloses `v`; the cell's weight is positive. -/
def WeightEncloses (v : Int) (j : Nat) : Prop :=
  0 < s.weight c j ∧ s.weightBelow c j ≤ v ∧ v < s.weightBelow c (j + 1)

variable {s c}

/-- The scan from cell `i` on finds the interval that encloses `v`, where one of the next `n` cells has it. -/
theorem weightScan_encloses {v : Int} (n i last : Nat) (hlo : s.weightBelow c i ≤ v)
    (hhi : v < s.weightBelow c (i + n)) : ∃ j < i + n, WeightEncloses s c v j ∧
      weightScan v ((List.range' i n).map (s.weight c)) i (s.weightBelow c i) last = j := by
  induction n generalizing i last with
  | zero => exact absurd hhi hlo.not_gt
  | succ n ih =>
    rw [show i + (n + 1) = i + 1 + n by omega] at hhi ⊢
    rw [List.range'_succ, List.map_cons, weightScan]
    have hsucc : s.weightBelow c (i + 1) = s.weightBelow c i + max 0 (s.weight c i) := rfl
    by_cases hpos : 0 < s.weight c i
    · rw [max_eq_right hpos.le] at hsucc
      rw [if_pos hpos, ← hsucc]
      by_cases hv : v < s.weightBelow c (i + 1)
      · rw [if_pos hv]
        exact ⟨i, by omega, ⟨hpos, hlo, hv⟩, rfl⟩
      · rw [if_neg hv]
        exact ih (i + 1) i (not_lt.1 hv) hhi
    · rw [max_eq_left (not_lt.1 hpos), add_zero] at hsucc
      rw [if_neg hpos, ← hsucc]
      exact ih (i + 1) last (hsucc ▸ hlo) hhi

/-! ### The command -/

/-- The command once its weights are read. -/
def weightedIndexFrom (ws : List Int) (k : Ctx) : Cmd Reply :=
  if 2 ^ 31 - 1 < weightTotal ws then failWith .numeric
  else if weightTotal ws = 0 then failWith .numeric
  else andThen (boundedSample k (asU32 (weightTotal ws))) fun v => ret (okI32 (asU32 (weightScan v.toNat ws 0 0 0)))

theorem weightedIndexFrom_of_fails {ws : List Int} (h : 2 ^ 31 ≤ weightTotal ws ∨ weightTotal ws = 0) (k : Ctx) :
    weightedIndexFrom ws k = ret (.fail .numeric 0#64) := by
  unfold weightedIndexFrom
  by_cases hbig : 2 ^ 31 - 1 < weightTotal ws
  · rw [if_pos hbig, failWith]
  · rw [if_neg hbig, if_pos (by omega), failWith]

theorem weightedIndexFrom_of_chooses {ws : List Int} (hpos : 0 < weightTotal ws) (hlt : weightTotal ws < 2 ^ 31)
    (k : Ctx) : weightedIndexFrom ws k = andThen (boundedSample k (asU32 (weightTotal ws))) fun v =>
      ret (okI32 (asU32 (weightScan v.toNat ws 0 0 0))) :=
  (if_neg (by omega)).trans (if_neg hpos.ne')

theorem fails_weightedIndex_size (h : s.argI32 c 0 ≤ 0 ∨ (s.cfg.maxElems : Int) < s.argI32 c 0) :
    Fails (.weightedIndex c) .size 0#64 s :=
  fails_of_branch (body := weightedIndexBody) rfl rfl (if_pos h)

/-- With a count inside the memory the command goes on from the weights of that many cells. -/
theorem weightedIndexBody_apply (hpos : 0 < s.argI32 c 0) (hmax : s.argI32 c 0 ≤ s.cfg.maxElems) :
    weightedIndexBody (s.ctx c) (s.work c) =
      weightedIndexFrom (s.weights c (s.argI32 c 0).toNat) (s.ctx c) (s.work c) := by
  have hread := (reaches_readCells (c := c) (s := s) (start := 0) (n := (s.argI32 c 0).toNat) (by omega)).1
  have hweights : (List.range (s.argI32 c 0).toNat).map (fun i => asI32 (low32 (s.cell c (0 + i)))) =
      s.weights c (s.argI32 c 0).toNat := by
    simp [State.weights, State.weight]
  have hbranch : weightedIndexBody (s.ctx c) = andThen (readCells (s.ctx c) 0 (s.argI32 c 0).toNat) fun cells =>
      weightedIndexFrom (cells.map fun v => asI32 (low32 v)) (s.ctx c) :=
    if_neg (not_or.2 ⟨hpos.not_ge, hmax.not_gt⟩)
  rw [hbranch, andThen_ok hread, List.map_map]
  exact congrArg (weightedIndexFrom · _ _) hweights

end

end Sys2Proof.Machine
end

section
/-! SUPPORT. The commands that compare or scale one uniform float (43_distribution.md R202, R203). -/

namespace Sys2Proof.Machine

theorem fle_eq_false_of_flt {a b : F64} (h : flt a b = true) : fle b a = false := by
  simp only [flt, Bool.and_eq_true, decide_eq_true_eq] at h
  simp [fle, h.2]

/-! A comparison that holds is not of NaNs (00_scope.md R13). -/

theorem isNaN_eq_false_of_feq {a b : F64} (h : feq a b = true) : isNaN a = false ∧ isNaN b = false := by
  simp only [feq, Bool.and_eq_true, Bool.not_eq_true'] at h
  exact h.1

theorem isNaN_eq_false_of_fle {a b : F64} (h : fle a b = true) : isNaN a = false ∧ isNaN b = false := by
  simp only [fle, Bool.and_eq_true, Bool.not_eq_true'] at h
  exact h.1

theorem isNaN_eq_false_of_flt {a b : F64} (h : flt a b = true) : isNaN a = false ∧ isNaN b = false := by
  simp only [flt, Bool.and_eq_true, Bool.not_eq_true'] at h
  exact h.1

section
variable {c : Chan} {s : State}

theorem booleanBody_of_not_finite (h : isFinite (s.argF64 c 0) = false) :
    booleanBody (s.ctx c) = ret (okBool false) := if_pos (by rw [← State.argF64, h]; rfl)

theorem booleanBody_of_finite (h : isFinite (s.argF64 c 0) = true) : booleanBody (s.ctx c) =
    if fle (s.argF64 c 0) fZero then ret (okBool false)
    else if fle fOne (s.argF64 c 0) then ret (okBool true)
    else andThen (drawF (s.ctx c)) fun u => ret (okBool (flt u (s.argF64 c 0))) :=
  if_neg (by rw [← State.argF64, h]; decide)

theorem floatRangeBody_eq {a b : F64} (h : orderedPair (s.argF64 c 0) (s.argF64 c 1) = (a, b)) :
    floatRangeBody (s.ctx c) =
      if feq a b then okFloat (s.ctx c) a else andThen (drawF (s.ctx c)) fun u => okFloat (s.ctx c) (scaleInto a b u) := by
  unfold State.argF64 at h
  simp only [floatRangeBody, h]

end

end Sys2Proof.Machine
end

section
/-! PROOF. The commands of the Distribution Layer that make one draw, and `DICE` (43_distribution.md R201 to R205, R210,
R211). -/

open Sys2Proof Sys2Proof.Machine

/-- Settles O35: the full span is the bound 0, which draws nothing and adds 0 to the lower bound `-2^31`. -/
theorem rangeSamplesInclusive : Obligations.RangeSamplesInclusive := by
  intro s c lo hi hlo hhi
  have h0 := s.argI32_mem c 0
  have h1 := s.argI32_mem c 1
  refine ⟨fun heq => ?_, fun hspan => ?_, fun hlt hspan v u hv => ?_⟩
  · subst hlo hhi
    exact succeeds_of_reaches rfl rfl ((reaches_ret c s _).of_eq (rangeBody_of_eq heq))
  · obtain rfl : lo = -2 ^ 31 := by omega
    have hv : Sampled c (asU32 (hi - -2 ^ 31 + 1)) s 0#32 s := by
      rw [hspan]
      exact sampled_zero s c
    exact succeeds_range hlo hhi (by omega) hv
  · have hvlt := hv.toNat_lt (by omega) hspan
    have hr : (asU32 lo + v).toInt = lo + v.toNat := by rw [asU32_add, toInt_asU32 (by omega) (by omega)]
    exact ⟨asU32 lo + v, succeeds_range hlo hhi hlt.ne hv, hr, by omega, by omega⟩

/-- Settles O38: the halved sum is positive and below `2^31`, so the draw is below it. -/
theorem booleanWeightedChooses : Obligations.BooleanWeightedChooses := by
  rintro s c tw fw rfl rfl
  have htw := (s.argI32_mem c 0).2
  have hfw := (s.argI32_mem c 1).2
  refine ⟨fun h => ?_, fun htrue h => ?_, fun htrue hfalse d v u hd hv => ?_⟩
  · exact succeeds_of_reaches rfl rfl ((reaches_ret c s _).of_eq (booleanWeightedBody_of_true_le h))
  · exact succeeds_of_reaches rfl rfl ((reaches_ret c s _).of_eq (booleanWeightedBody_of_false_le htrue h))
  · have hhalved := halvedWeights_eq (s.argI32 c 0) (s.argI32 c 1)
    rw [← hd] at hhalved
    have hsum : 0 < s.argI32 c 0 / d + s.argI32 c 1 / d ∧ s.argI32 c 0 / d + s.argI32 c 1 / d < 2 ^ 32 := by
      split at hd <;> subst hd <;> omega
    refine ⟨hv.toNat_lt hsum.1 hsum.2, ?_⟩
    have hrun := ((reaches_boundedSample hv).map fun v => okBool (decide ((v.toNat : Int) < s.argI32 c 0 / d))).of_eq
      (booleanWeightedBody_of_pos htrue hfalse hhalved)
    simp only [okBool, decide_eq_true_eq] at hrun
    exact succeeds_of_reaches rfl rfl hrun

/-- Settles O39: the scan starts at the running sum 0 and the draw is below the total. -/
theorem weightedIndexChooses : Obligations.WeightedIndexChooses := by
  rintro s c n rfl
  have hn := (s.argI32_mem c 0).2
  refine ⟨fails_weightedIndex_size, fun hpos hmax htotal => ?_, fun hpos hmax htotal hlt v u hv => ?_⟩
  · rw [← weightTotal_weights] at htotal
    refine fails_of_body (body := weightedIndexBody) rfl rfl ?_
    rw [weightedIndexBody_apply hpos hmax, weightedIndexFrom_of_fails htotal, ret_apply]
  · have hvlt := hv.toNat_lt htotal (hlt.trans (by norm_num))
    obtain ⟨j, hj, ⟨hweight, hbelow, habove⟩, hscan⟩ :=
      weightScan_encloses (s := s) (c := c) (v := v.toNat) (s.argI32 c 0).toNat 0 0 (Int.natCast_nonneg _)
        (by rwa [Nat.zero_add])
    rw [← List.range_eq_range'] at hscan
    have hreply : okI32 (asU32 (weightScan v.toNat (s.weights c (s.argI32 c 0).toNat) 0 0 0)) =
        .done (BitVec.ofNat 64 j) 0#64 0#64 0#64 := by
      rw [okI32, State.weights, show (0 : Int) = s.weightBelow c 0 from rfl, hscan, sext64_asU32_natCast (by omega)]
    rw [← weightTotal_weights] at hv htotal hlt
    have hrun := (reaches_boundedSample hv).map fun v =>
      okI32 (asU32 (weightScan v.toNat (s.weights c (s.argI32 c 0).toNat) 0 0 0))
    rw [hreply] at hrun
    refine ⟨j, by omega, hweight, hbelow, habove,
      succeeds_of_reaches (body := weightedIndexBody) rfl rfl ⟨?_, hrun.2⟩⟩
    rw [weightedIndexBody_apply hpos hmax, weightedIndexFrom_of_chooses htotal hlt]
    exact hrun.1

/-- Settles O44: the loop adds one rolled die after the other. -/
theorem diceSums : Obligations.DiceSums := by
  refine fun s c => ⟨fun h => fails_of_branch rfl rfl (diceBody_of_not_pos h), fun hsides hcount sum t hroll => ?_⟩
  have hrun := (reaches_diceSum (acc := 0#32) hroll).map okI32
  rw [BitVec.zero_add] at hrun
  exact succeeds_of_reaches rfl rfl (hrun.of_eq (diceBody_of_pos hsides hcount))

/-- Settles O45: the draw is below the count and leaves the cells. -/
theorem pickReturnsCell : Obligations.PickReturnsCell := by
  refine fun s c => ⟨fun h => fails_of_branch rfl rfl (pickBody_of_size h), fun hpos hmax j u hj => ⟨?_, ?_⟩⟩
  · exact succeeds_of_reaches rfl rfl (reaches_pickBody hpos hmax hj)
  · exact hj.toNat_lt hpos ((s.argI32_mem c 0).2.trans (by norm_num))

/-- Settles O36: equal bounds are no NaNs, so their own bits are the result. -/
theorem floatRangeScales : Obligations.FloatRangeScales := by
  intro s c a b hab
  have hbody := floatRangeBody_eq hab.symm
  refine ⟨fun heq => ?_, fun hne => ?_⟩
  · rw [if_pos heq] at hbody
    exact succeeds_of_reaches rfl rfl ((reaches_okFloat (isNaN_eq_false_of_feq heq).1 c s).of_eq hbody)
  · rw [if_neg (by rw [hne]; decide)] at hbody
    refine samples_of_float (body := floatRangeBody) rfl rfl ?_
    rw [hbody, andThen_ok (drawF_advance s c)]
    rfl

/-- Settles O37: the four cases are the branches of the pseudocode, for a probability inside `(0, 1)` the last. -/
theorem booleanCompares : Obligations.BooleanCompares := by
  refine fun s c => ⟨fun hfin => ?_, fun hfin h0 => ?_, fun hfin h1 => ?_, fun hfin h0 h1 => ?_⟩
  · exact succeeds_of_reaches rfl rfl ((reaches_ret c s _).of_eq (booleanBody_of_not_finite hfin))
  · have hbody := booleanBody_of_finite hfin
    rw [if_pos h0] at hbody
    exact succeeds_of_reaches rfl rfl ((reaches_ret c s _).of_eq hbody)
  · have hpos : ¬ fle (s.argF64 c 0) fZero = true := fun h0 => absurd (fle_trans h1 h0) (by decide)
    have hbody := booleanBody_of_finite hfin
    rw [if_neg hpos, if_pos h1] at hbody
    exact succeeds_of_reaches rfl rfl ((reaches_ret c s _).of_eq hbody)
  · have hbody := booleanBody_of_finite hfin
    rw [fle_eq_false_of_flt h0, fle_eq_false_of_flt h1, if_neg Bool.false_ne_true, if_neg Bool.false_ne_true] at hbody
    have hrun := (reaches_drawF c s).map fun u => okBool (flt u (s.argF64 c 0))
    exact succeeds_of_reaches rfl rfl (hrun.of_eq hbody)
end

section
/-! SUPPORT. `TRUNC_SAT` and `GAUSSIAN` (43_distribution.md R208, R209). -/

namespace Sys2Proof.Machine

/-! ### Truncation -/

/-- A truncated quotient is the whole part of the magnitude. -/
theorem abs_tdiv_mul_mem (n : Int) {d : Int} (hd : 0 < d) : |n.tdiv d| * d ≤ |n| ∧ |n| < (|n.tdiv d| + 1) * d := by
  lift d to Nat using hd.le
  rw [Int.abs_eq_natAbs, Int.abs_eq_natAbs, Int.natAbs_tdiv, Int.natAbs_natCast]
  norm_cast
  exact ⟨Nat.div_mul_le_self _ _, by
    rw [Nat.mul_comm]
    exact Nat.lt_mul_div_succ _ (by exact_mod_cast hd)⟩

theorem tdiv_nonpos_of_nonpos_of_nonneg {n d : Int} (hn : n ≤ 0) (hd : 0 ≤ d) : n.tdiv d ≤ 0 := by
  have h := Int.tdiv_nonneg (neg_nonneg.2 hn) hd
  rw [Int.neg_tdiv] at h
  exact neg_nonneg.1 h

theorem units_two_pow_31 : units 0x41E0000000000000#64 = 2 ^ 31 * 2 ^ 1074 := by
  have hpack : 0x41E0000000000000#64 = packFloat false ((1053 + 1) * 2 ^ 52 + 0) := by decide
  rw [hpack, units_packFloat_normal (by decide) (by decide), Nat.cast_zero, add_zero, ← pow_add, ← pow_add]

theorem units_neg_two_pow_31 : units 0xC1E0000000000000#64 = -(2 ^ 31 * 2 ^ 1074) := by
  rw [← units_two_pow_31, ← units_fneg]
  rfl

section
variable {r : F64}

theorem truncSat_of_isNaN (h : isNaN r = true) : truncSat r = 0#32 := if_pos h

theorem truncSat_of_ge (hnan : isNaN r = false) (h : 2 ^ 31 * 2 ^ 1074 ≤ units r) : truncSat r = 0x7FFFFFFF#32 := by
  rw [truncSat, hnan, if_neg Bool.false_ne_true, if_pos h]

theorem truncSat_of_le (hnan : isNaN r = false) (h : units r ≤ -(2 ^ 31 * 2 ^ 1074)) : truncSat r = 0x80000000#32 := by
  have hlt : units r < 2 ^ 31 * 2 ^ 1074 := h.trans_lt (neg_lt_self (by positivity))
  rw [truncSat, hnan, if_neg Bool.false_ne_true, if_neg hlt.not_ge, if_pos h]

/-- Strictly between the bounds the whole part is an `i32`. -/
theorem toInt_truncSat (hnan : isNaN r = false) (hlo : -(2 ^ 31 * 2 ^ 1074) < units r)
    (hhi : units r < 2 ^ 31 * 2 ^ 1074) : (truncSat r).toInt = (units r).tdiv (2 ^ 1074) := by
  have hle := (abs_tdiv_mul_mem (units r) (d := 2 ^ 1074) (by positivity)).1
  have habs : |(units r).tdiv (2 ^ 1074)| < 2 ^ 31 :=
    lt_of_mul_lt_mul_right (hle.trans_lt (abs_lt.2 ⟨hlo, hhi⟩)) (by positivity)
  rw [truncSat, hnan, if_neg Bool.false_ne_true, if_neg hhi.not_ge, if_neg hlo.not_ge,
    toInt_asU32 (abs_lt.1 habs).1.le (abs_lt.1 habs).2]

theorem toInt_truncSat_nonneg (h : isNaN r = true ∨ 0 ≤ units r) : 0 ≤ (truncSat r).toInt := by
  cases hnan : isNaN r with
  | true =>
    rw [truncSat_of_isNaN hnan]
    decide
  | false =>
    have hnonneg := h.resolve_left (by rw [hnan]; decide)
    obtain hge | hlt := le_or_gt (2 ^ 31 * 2 ^ 1074) (units r)
    · rw [truncSat_of_ge hnan hge]
      decide
    · rw [toInt_truncSat hnan ((neg_lt_zero.2 (by positivity)).trans_le hnonneg) hlt]
      exact Int.tdiv_nonneg hnonneg (by positivity)

end

/-! ### `GAUSSIAN` -/

/-- A clamped sample is a NaN or not negative. -/
theorem gaussClamp_nonneg (r : F64) : isNaN (gaussClamp r) = true ∨ 0 ≤ units (gaussClamp r) := by
  unfold gaussClamp
  cases hnan : isNaN r with
  | true =>
    have hflt : flt r fZero = false := (compare_of_isNaN (by rw [hnan]; rfl)).1
    rw [hflt]
    exact .inl hnan
  | false =>
    right
    have hiff := flt_iff hnan (b := fZero) (by decide)
    rw [units_fZero] at hiff
    split
    · exact units_fZero.ge
    · exact not_lt.1 fun hlt => absurd (hiff.2 hlt) ‹_›

section
variable {c : Chan} {s : State}

theorem gaussianBody_of_not_finite (h : isFinite (s.argF64 c 0) = false ∨ isFinite (s.argF64 c 1) = false) :
    gaussianBody (s.ctx c) = ret (.fail .numeric 0#64) :=
  if_pos (by
    change (!isFinite (s.argF64 c 0) || !isFinite (s.argF64 c 1)) = true
    simpa only [Bool.or_eq_true, Bool.not_eq_true'] using h)

theorem gaussianBody_of_finite (hm : isFinite (s.argF64 c 0) = true) (hsd : isFinite (s.argF64 c 1) = true) :
    gaussianBody (s.ctx c) =
      if fle (s.argF64 c 1) fZero then ret (.fail .numeric (sext64 (truncSat (s.argF64 c 0))))
      else andThen (drawF (s.ctx c)) fun u1 => andThen (drawF (s.ctx c)) fun u2 => ret (okI32 (truncSat
        (gaussClamp (fadd (s.argF64 c 0) (fmul (gaussZ (s.ctx c) u1 u2) (s.argF64 c 1)))))) :=
  if_neg (by
    change ¬ (!isFinite (s.argF64 c 0) || !isFinite (s.argF64 c 1)) = true
    rw [hm, hsd]
    decide)

/-- The sample of `GAUSSIAN` before truncation, from its two draws. -/
def State.gaussSample (s : State) (c : Chan) : F64 :=
  gaussClamp (fadd (s.argF64 c 0) (fmul (gaussZ (s.ctx c) (s.uniformAt c 0) (s.uniformAt c 1)) (s.argF64 c 1)))

theorem reaches_gaussianBody (hm : isFinite (s.argF64 c 0) = true) (hsd : isFinite (s.argF64 c 1) = true)
    (hpos : flt fZero (s.argF64 c 1) = true) :
    Reaches c gaussianBody s (okI32 (truncSat (s.gaussSample c))) (s.advanceBy c 2) := by
  have hbody := gaussianBody_of_finite hm hsd
  rw [fle_eq_false_of_flt hpos, if_neg Bool.false_ne_true] at hbody
  have hsecond := (reaches_drawF c (s.advance c)).map fun u2 => okI32 (truncSat
    (gaussClamp (fadd (s.argF64 c 0) (fmul (gaussZ (s.ctx c) (s.uniformAt c 0) u2) (s.argF64 c 1)))))
  exact ((reaches_drawF c s).bind (f := fun k u1 => andThen (drawF k) fun u2 => ret (okI32 (truncSat
    (gaussClamp (fadd (s.argF64 c 0) (fmul (gaussZ (s.ctx c) u1 u2) (s.argF64 c 1))))))) hsecond).of_eq hbody

end

end Sys2Proof.Machine
end

section
/-! SUPPORT. `PATTERN_FORMAT`: the pattern language as its loop reads it (43_distribution.md R212, R213). -/

namespace Sys2Proof.Machine

/-! ### The placeholders -/

theorem placeholderSet_of_mem {k : Cfg} {b : Byte} {set : List Byte} (h : (b, set) ∈ placeholders k) :
    placeholderSet k b = some set ∧ b ≠ 0x5C#8 := by
  simp only [placeholders, List.mem_cons, Prod.mk.injEq, List.not_mem_nil, or_false] at h
  obtain ⟨rfl, rfl⟩ | ⟨rfl, rfl⟩ | ⟨rfl, rfl⟩ | ⟨rfl, rfl⟩ | ⟨rfl, rfl⟩ := h <;> exact ⟨rfl, by decide⟩

theorem placeholderSet_of_not_mem {k : Cfg} {b : Byte} (h : b ∉ (placeholders k).map Prod.fst) :
    placeholderSet k b = none := by
  simp only [placeholders, List.map_cons, List.map_nil, List.mem_cons, List.not_mem_nil, or_false, not_or] at h
  obtain ⟨hupper, hlower, hdigit, halnum, hsymbol⟩ := h
  rw [placeholderSet, if_neg hupper, if_neg hlower, if_neg hdigit, if_neg halnum, if_neg hsymbol]

/-! ### One pass of the loop -/

/-- The rest of a pass that emits the character `b`. -/
def patternEmit (k : Ctx) (room p o : Nat) (b : Byte) : Cmd Nat :=
  andThen (writeOut k o b) fun _ => patternLoop k room p (o + 1)

/-- The rest of a pass after the character that a backslash at `p` makes a literal, none at the end of the pattern. -/
def patternLiteral (k : Ctx) (room p o : Nat) : Option Byte → Cmd Nat
  | none => ret o
  | some b => patternEmit k room (p + 2) o b

/-- The rest of a pass after the character at `p`, none at the end of the pattern. -/
def patternPass (k : Ctx) (room p o : Nat) : Option Byte → Cmd Nat
  | none => ret o
  | some ch =>
    if ch = 0x5C#8 then andThen (patternAt k (p + 1)) (patternLiteral k room p o)
    else andThen (patternChar k ch) (patternEmit k room (p + 1) o)

theorem patternLoop_succ (k : Ctx) (room p o : Nat) :
    patternLoop k (room + 1) p o = andThen (patternAt k p) (patternPass k room p o) := rfl

section
variable {c : Chan} {s t : State} {room p o o' : Nat}

theorem reaches_patternAt_none (h : PatternEnds c s p) : Reaches c (fun k => patternAt k p) s none s := by
  by_cases hp : p < s.cfg.maxBytes
  · have hread := (reaches_readIn (c := c) hp).map fun b => if b = 0#8 then none else some b
    rw [if_pos (h.resolve_left hp.not_ge)] at hread
    exact hread.of_eq (if_pos hp)
  · exact (reaches_ret c s none).of_eq (if_neg hp)

theorem reaches_patternAt_some (h : ¬ PatternEnds c s p) :
    Reaches c (fun k => patternAt k p) s (some (s.inByte c p)) s := by
  obtain ⟨hp, hb⟩ := not_or.1 h
  have hread := (reaches_readIn (c := c) (not_le.1 hp)).map fun b => if b = 0#8 then none else some b
  rw [if_neg hb] at hread
  exact hread.of_eq (if_pos (not_le.1 hp))

theorem reaches_patternEmit {b : Byte} (ho : o < s.cfg.maxBytes)
    (h : Reaches c (fun k => patternLoop k room p (o + 1)) (s.setOut c o b) o' t) :
    Reaches c (fun k => patternEmit k room p o b) s o' t :=
  (reaches_writeOut ho b).bind (f := fun k _ => patternLoop k room p (o + 1)) h

theorem reaches_patternLoop_ended (h : PatternEnds c s p) :
    Reaches c (fun k => patternLoop k (room + 1) p o) s o s := by
  simp only [patternLoop_succ]
  exact (reaches_patternAt_none h).bind (f := fun k => patternPass k room p o) (reaches_ret c s o)

/-- A pass whose character is a backslash, by what follows the character after it. -/
theorem reaches_patternLoop_backslash {lit : Option Byte} (h : ¬ PatternEnds c s p) (hb : s.inByte c p = 0x5C#8)
    (hlit : Reaches c (fun k => patternAt k (p + 1)) s lit s)
    (hrest : Reaches c (fun k => patternLiteral k room p o lit) s o' t) :
    Reaches c (fun k => patternLoop k (room + 1) p o) s o' t := by
  simp only [patternLoop_succ]
  refine (reaches_patternAt_some h).bind (f := fun k => patternPass k room p o) ?_
  exact (hlit.bind (f := fun k => patternLiteral k room p o) hrest).of_eq (if_pos hb)

/-- A pass whose character is no backslash, by what its character yields. -/
theorem reaches_patternLoop_char {u : State} {b : Byte} (h : ¬ PatternEnds c s p) (hb : s.inByte c p ≠ 0x5C#8)
    (hchar : Reaches c (fun k => patternChar k (s.inByte c p)) s b u)
    (hrest : Reaches c (fun k => patternEmit k room (p + 1) o b) u o' t) :
    Reaches c (fun k => patternLoop k (room + 1) p o) s o' t := by
  simp only [patternLoop_succ]
  refine (reaches_patternAt_some h).bind (f := fun k => patternPass k room p o) ?_
  exact (hchar.bind (f := fun k => patternEmit k room (p + 1) o) hrest).of_eq (if_neg hb)

theorem reaches_patternChar_copied {b : Byte} (h : b ∉ (placeholders s.cfg).map Prod.fst) :
    Reaches c (fun k => patternChar k b) s b s :=
  (reaches_ret c s b).of_eq (by simp only [patternChar, State.ctx_cfg, placeholderSet_of_not_mem h])

theorem reaches_patternChar_drawn {u : State} {b : Byte} {set : List Byte} {v : W32}
    (h : (b, set) ∈ placeholders s.cfg) (hv : Sampled c (BitVec.ofNat 32 set.length) s v u) :
    Reaches c (fun k => patternChar k b) s (set.getD v.toNat 0#8) u :=
  ((reaches_boundedSample hv).map fun j => set.getD j.toNat 0#8).of_eq
    (by simp only [patternChar, State.ctx_cfg, (placeholderSet_of_mem h).1, pickChar])

/-- The loop does what the pattern language says, and stays inside its room. -/
theorem reaches_patternLoop (h : Formatted c room p o s t o') (hroom : o + room < s.cfg.maxBytes) :
    Reaches c (fun k => patternLoop k room p o) s o' t ∧ o' ≤ o + room := by
  induction h with
  | full p o s => exact ⟨reaches_ret c s o, le_rfl⟩
  | ended room p o s hend => exact ⟨reaches_patternLoop_ended hend, by omega⟩
  | trailing room p o s hgo hb hend =>
    exact ⟨reaches_patternLoop_backslash hgo hb (reaches_patternAt_none hend) (reaches_ret c s o), by omega⟩
  | escaped room p o s t o' hgo hb hgo' _ ih =>
    obtain ⟨hrun, hle⟩ := ih (by rw [State.setOut_cfg]; omega)
    exact ⟨reaches_patternLoop_backslash hgo hb (reaches_patternAt_some hgo') (reaches_patternEmit (by omega) hrun),
      by omega⟩
  | copied room p o s t o' hgo hb hcopy _ ih =>
    obtain ⟨hrun, hle⟩ := ih (by rw [State.setOut_cfg]; omega)
    exact ⟨reaches_patternLoop_char hgo hb (reaches_patternChar_copied hcopy) (reaches_patternEmit (by omega) hrun),
      by omega⟩
  | drawn room p o s t u o' set v hgo hset hv _ ih =>
    have hcfg : u.cfg = s.cfg := congrArg Ctx.cfg (reaches_boundedSample hv).ctx
    obtain ⟨hrun, hle⟩ := ih (by rw [State.setOut_cfg, hcfg]; omega)
    exact ⟨reaches_patternLoop_char hgo (placeholderSet_of_mem hset).2 (reaches_patternChar_drawn hset hv)
      (reaches_patternEmit (by rw [hcfg]; omega) hrun), by omega⟩

/-! ### The command -/

theorem fails_patternFormat (h : s.argI32 c 0 ≤ 0 ∨ (s.cfg.maxBytes : Int) < s.argI32 c 0) :
    Fails (.patternFormat c) .size 0#64 s :=
  fails_of_branch (body := patternFormatBody) rfl rfl (if_pos h)

theorem reaches_patternFormatBody (hpos : 0 < s.argI32 c 0) (hmax : s.argI32 c 0 ≤ s.cfg.maxBytes)
    (h : Formatted c (s.argI32 c 0 - 1).toNat 0 0 s t o) :
    Reaches c patternFormatBody s (.done 1#64 (BitVec.ofNat 64 o) 0#64 0#64) (t.setOut c o 0#8) := by
  obtain ⟨hloop, hle⟩ := reaches_patternLoop h (by omega)
  have hlt := (s.argI32_mem c 0).2
  have hcfg : t.cfg = s.cfg := congrArg Ctx.cfg hloop.ctx
  have hwrite : Reaches c (fun k => writeOut k o 0#8) t () (t.setOut c o 0#8) :=
    reaches_writeOut (by rw [hcfg]; omega) _
  rw [← sext64_asU32_natCast (n := o) (by omega)]
  have hend := hwrite.map fun _ => Reply.done 1#64 (sext64 (asU32 o)) 0#64 0#64
  have hrun := hloop.bind (f := fun k o =>
    andThen (writeOut k o 0#8) fun _ => ret (Reply.done 1#64 (sext64 (asU32 o)) 0#64 0#64)) hend
  exact hrun.of_eq (if_neg (not_or.2 ⟨hpos.not_ge, hmax.not_gt⟩))

end

end Sys2Proof.Machine
end

section
/-! SUPPORT. `UUID_V4`: its text, column by column (43_distribution.md R215). -/

namespace Sys2Proof.Machine

/-! ### The characters -/

theorem lowerHex_hexChar (n : BitVec 4) : LowerHex (hexChar n) := by
  unfold LowerHex hexChar
  have hn := n.isLt
  split
  · rw [BitVec.toNat_ofNat]
    omega
  · rw [BitVec.toNat_ofNat]
    omega

/-- The high nibble of byte 6 is the version (43_distribution.md R215). -/
theorem version_nibble (bs : List Byte) : (uuidByte bs 6).extractLsb' 4 4 = 4#4 := by
  have hclear : ∀ n : BitVec 4, n &&& 0#4 ||| 4#4 = 4#4 := by decide
  rw [uuidByte, if_pos rfl, BitVec.extractLsb'_or, BitVec.extractLsb'_and]
  exact hclear _

/-- The high nibble of byte 8 has the variant bits `10` (43_distribution.md R215). -/
theorem variant_nibble (bs : List Byte) : hexChar ((uuidByte bs 8).extractLsb' 4 4) ∈ [0x38#8, 0x39#8, 0x61#8, 0x62#8] := by
  have hall : ∀ n : BitVec 4, hexChar (n &&& 3#4 ||| 8#4) ∈ [0x38#8, 0x39#8, 0x61#8, 0x62#8] := by decide
  rw [uuidByte, if_neg (by decide), if_pos rfl, BitVec.extractLsb'_or, BitVec.extractLsb'_and]
  exact hall _

/-! ### The columns -/

/-- The two digits of byte `k` stand at its column. -/
theorem uuidText_column (bs : List Byte) {k : Nat} (hk : k < 16) :
    (uuidText bs)[uuidColumn k]? = some (hexChar ((uuidByte bs k).extractLsb' 4 4)) ∧
    (uuidText bs)[uuidColumn k + 1]? = some (hexChar ((uuidByte bs k).extractLsb' 0 4)) := by
  interval_cases k <;> exact ⟨rfl, rfl⟩

theorem uuidText_hyphen (bs : List Byte) {a : Nat} (ha : a ∈ [8, 13, 18, 23]) : (uuidText bs)[a]? = some 0x2D#8 := by
  simp only [List.mem_cons, List.not_mem_nil, or_false] at ha
  obtain rfl | rfl | rfl | rfl := ha <;> rfl

/-- Every column but the hyphens' is that of a digit. -/
theorem exists_uuidColumn : ∀ a < 36, a ∉ [8, 13, 18, 23] → ∃ k < 16, a = uuidColumn k ∨ a = uuidColumn k + 1 := by
  decide

theorem uuidText_lowerHex (bs : List Byte) {a : Nat} (ha : a < 36) (hhyphen : a ∉ [8, 13, 18, 23]) :
    ∃ b, (uuidText bs)[a]? = some b ∧ LowerHex b := by
  obtain ⟨k, hk, rfl | rfl⟩ := exists_uuidColumn a ha hhyphen
  · exact ⟨_, (uuidText_column bs hk).1, lowerHex_hexChar _⟩
  · exact ⟨_, (uuidText_column bs hk).2, lowerHex_hexChar _⟩

/-! ### The command -/

/-- The sixteen bytes of the stream that `UUID_V4` draws. -/
def State.uuidBytes (s : State) : List Byte := (List.range 16).map s.streamByte

theorem uuidByte_uuidBytes (s : State) {k : Nat} (hk : k < 16) : uuidByte s.uuidBytes k =
    if k = 6 then s.streamByte k &&& 0x0F#8 ||| 0x40#8
    else if k = 8 then s.streamByte k &&& 0x3F#8 ||| 0x80#8 else s.streamByte k := by
  have hget : s.uuidBytes.getD k 0#8 = s.streamByte k := by simp [State.uuidBytes, List.getD, hk]
  simp only [uuidByte, hget]

/-- The state that `UUID_V4` completes in (43_distribution.md R215). -/
def State.afterUuid (s : State) : State := ((s.advanceBy .S 4).setOuts .S 0 (uuidText s.uuidBytes)).setOut .S 36 0#8

section
variable {s : State}

theorem reaches_uuidV4Body (h : 37 ≤ s.cfg.maxBytes) : Reaches .S uuidV4Body s (okBool true) s.afterUuid := by
  have htext : Reaches .S (fun k => writeOuts k 0 (uuidText s.uuidBytes)) (s.advanceBy .S 4) ()
      ((s.advanceBy .S 4).setOuts .S 0 (uuidText s.uuidBytes)) := by
    refine reaches_writeOuts ?_
    rw [uuidText_length, State.advanceBy_cfg]
    omega
  have hend : Reaches .S (fun k => writeOut k 36 0#8) _ () s.afterUuid :=
    reaches_writeOut (by rw [State.setOuts_cfg, State.advanceBy_cfg]; omega) _
  exact (reaches_drawBytes s 16).bind (f := fun k bs => andThen (writeOuts k 0 (uuidText bs)) fun _ =>
    andThen (writeOut k 36 0#8) fun _ => ret (okBool true)) (htext.bind
      (f := fun k _ => andThen (writeOut k 36 0#8) fun _ => ret (okBool true)) (hend.map fun _ => okBool true))

theorem State.outByte_afterUuid_text {a : Nat} {b : Byte} (h : (uuidText s.uuidBytes)[a]? = some b) :
    s.afterUuid.outByte .S a = b := by
  obtain ⟨hlt, hget⟩ := List.getElem?_eq_some_iff.1 h
  have hlen := uuidText_length s.uuidBytes
  rw [State.afterUuid, State.outByte_setOut, if_neg (by omega), State.outByte_setOuts, dif_pos ⟨a.zero_le, by omega⟩]
  exact hget

theorem State.outByte_afterUuid_terminator : s.afterUuid.outByte .S 36 = 0#8 := by
  rw [State.afterUuid, State.outByte_setOut, if_pos rfl]

theorem State.outByte_afterUuid_later {a : Nat} (h : 37 ≤ a) : s.afterUuid.outByte .S a = s.outByte .S a := by
  have hlen := uuidText_length s.uuidBytes
  rw [State.afterUuid, State.outByte_setOut, if_neg (by omega), State.outByte_setOuts, dif_neg (by omega),
    State.advanceBy_outByte]

theorem State.drewWords_afterUuid : DrewWords .S 4 s s.afterUuid := by simp [DrewWords, State.afterUuid]

theorem State.bufKept_afterUuid : BufKept .S s s.afterUuid := by simp [BufKept, State.afterUuid]

end

end Sys2Proof.Machine
end

section
/-! PROOF. `GAUSSIAN` with its truncation, and the commands that write text (43_distribution.md R208, R209, R213,
R215). -/

open Sys2Proof Sys2Proof.Machine

/-- Settles O43: the order of floats is that of their values in units, where the bounds are `2^31` and `-2^31`. -/
theorem truncSatConverts : Obligations.TruncSatConverts := by
  refine fun r => ⟨truncSat_of_isNaN, fun hge => ?_, fun hle => ?_, fun hlo hhi => ?_⟩
  · have hnan : isNaN r = false := (isNaN_eq_false_of_fle hge).2
    rw [fle_iff (by decide) hnan, units_two_pow_31] at hge
    rw [truncSat_of_ge hnan hge]
    decide
  · have hnan : isNaN r = false := (isNaN_eq_false_of_fle hle).1
    rw [fle_iff hnan (by decide), units_neg_two_pow_31] at hle
    rw [truncSat_of_le hnan hle]
    decide
  · have hnan : isNaN r = false := (isNaN_eq_false_of_flt hhi).1
    rw [flt_iff (by decide) hnan, units_neg_two_pow_31] at hlo
    rw [flt_iff hnan (by decide), units_two_pow_31] at hhi
    rw [toInt_truncSat hnan hlo hhi]
    obtain ⟨hle, hlt⟩ := abs_tdiv_mul_mem (units r) (d := 2 ^ 1074) (by positivity)
    exact ⟨hle, hlt, fun h => Int.tdiv_nonneg h (by positivity), fun h => tdiv_nonpos_of_nonpos_of_nonneg h (by positivity)⟩

/-- Settles O42: a sample is clamped before it is truncated. -/
theorem gaussianSamples : Obligations.GaussianSamples := by
  rintro s c m sd u z r rfl rfl rfl rfl rfl
  refine ⟨fun h => ?_, fun hm hsd hle => ?_, fun hm hsd hpos => ⟨?_, ?_⟩⟩
  · exact fails_of_branch rfl rfl (gaussianBody_of_not_finite h)
  · have hbody := gaussianBody_of_finite hm hsd
    rw [if_pos hle] at hbody
    exact fails_of_branch rfl rfl hbody
  · exact succeeds_of_reaches rfl rfl (reaches_gaussianBody hm hsd hpos)
  · exact toInt_truncSat_nonneg (gaussClamp_nonneg _)

/-- Settles O46: the loop follows the pattern language with room for all but the terminator. -/
theorem patternFormatWrites : Obligations.PatternFormatWrites := by
  refine fun s c => ⟨fails_patternFormat, fun hpos hmax t o h => ⟨?_, ?_⟩⟩
  · exact succeeds_of_reaches rfl rfl (reaches_patternFormatBody hpos hmax h)
  · have hle := (reaches_patternLoop h (by omega)).2
    omega

/-- Settles O48: the text is stored from byte 0 on and its terminator after it. -/
theorem uuidWritesText : Obligations.UuidWritesText := by
  refine fun s => ⟨fails_of_illFormed rfl s, fun hmax => ?_⟩
  have hreach := reaches_uuidV4Body hmax
  have htext : ∀ {a : Nat} {b : Byte}, (uuidText s.uuidBytes)[a]? = some b →
      (s.afterUuid.complete .S (okBool true)).outByte .S a = b := fun h => by
    rw [State.outByte_complete, State.outByte_afterUuid_text h]
  refine ⟨_, runCommand_reaches hreach, ?_, ?_, fun k b hk hb => ?_, fun a ha => htext (uuidText_hyphen _ ha), ?_,
    fun a ha hhyphen => ?_, ?_, ?_, fun a ha => ?_, s.drewWords_afterUuid.complete _, hreach.onlyChannel.complete _,
    hreach.inputsKept.complete _, s.bufKept_afterUuid.complete _⟩
  · simp [Completed, okBool, Reply.okFlag, Reply.errCode]
  · simp [okBool, Reply.results]
  · rw [← uuidByte_uuidBytes s hk] at hb
    subst hb
    exact ⟨htext (uuidText_column _ hk).1, htext (uuidText_column _ hk).2⟩
  · rw [State.outByte_complete, State.outByte_afterUuid_terminator]
  · obtain ⟨b, hget, hb⟩ := uuidText_lowerHex s.uuidBytes ha hhyphen
    rwa [htext hget]
  · rw [htext (a := 14) (uuidText_column s.uuidBytes (k := 6) (by decide)).1, version_nibble]
    decide
  · rw [htext (a := 19) (uuidText_column s.uuidBytes (k := 8) (by decide)).1]
    exact variant_nibble _
  · rw [State.outByte_complete, State.outByte_afterUuid_later ha]
end

section
/-! SUPPORT. A rounded result lies between any two floats that enclose the exact value, and a value on the grid of its
binade is its own result (00_scope.md R12). -/

namespace Sys2Proof.Machine

/-- No finite float reaches the magnitude that rounds to an infinity. -/
theorem abs_units_lt_overflowUnits {y : F64} (hy : isFinite y = true) : |(units y : ℝ)| < overflowUnits := by
  have hmag : magBits y ≤ (2045 + 1) * 2 ^ 52 + (2 ^ 52 - 1) := by
    have := isFinite_iff.1 hy
    rw [infMag] at this
    omega
  have hle := magUnits_strictMono.monotone hmag
  rw [magUnits_normal 2045 (by decide), ← natAbs_units] at hle
  calc |(units y : ℝ)| = ((units y).natAbs : ℝ) := by rw [Nat.cast_natAbs, Int.cast_abs]
    _ ≤ (2 ^ 53 - 1) * 2 ^ 2045 := by
      rw [← cast_two_pow 2045]
      have : ((2 ^ 52 + (2 ^ 52 - 1) : Nat) : ℝ) = 2 ^ 53 - 1 := by norm_num
      rw [← this]
      exact_mod_cast hle
    _ = (2 ^ 54 - 2) * 2 ^ 2044 := by rw [pow_succ (2 : ℝ) 2044, mul_comm _ (2 : ℝ), ← mul_assoc]; norm_num
    _ < overflowUnits := mul_lt_mul_of_pos_right (by norm_num) (by positivity)

section
variable {x : ℝ} {r y lo hi : F64}

theorem IsNearest.units_le (h : IsNearest x r) (hy : isFinite y = true) (hle : x ≤ units y) :
    units r ≤ units y := by
  have hnear := (h y hy).1
  rw [abs_of_nonneg (sub_nonneg.2 hle)] at hnear
  have hle := (sub_le_sub_iff_right _).1 ((le_abs_self _).trans hnear)
  exact_mod_cast hle

theorem IsNearest.le_units (h : IsNearest x r) (hy : isFinite y = true) (hge : (units y : ℝ) ≤ x) :
    units y ≤ units r := by
  have hnear := (h y hy).1
  rw [abs_of_nonpos (sub_nonpos.2 hge), neg_sub] at hnear
  have hle := (sub_le_sub_iff_left _).1 (((neg_sub _ _).symm.trans_le (neg_le_abs _)).trans hnear)
  exact_mod_cast hle

/-- Rounding does not leave an interval between two floats. -/
theorem Rounds.mem (h : Rounds x r) (hlo : isFinite lo = true) (hhi : isFinite hi = true) (hxlo : (units lo : ℝ) ≤ x)
    (hxhi : x ≤ units hi) : isFinite r = true ∧ units lo ≤ units r ∧ units r ≤ units hi := by
  have hsmall : |x| < overflowUnits :=
    (abs_le_max_abs_abs hxlo hxhi).trans_lt (max_lt (abs_units_lt_overflowUnits hlo) (abs_units_lt_overflowUnits hhi))
  obtain ⟨hfin, hnear⟩ := h.1 hsmall
  exact ⟨hfin, hnear.le_units hlo hxlo, hnear.units_le hhi hxhi⟩

end

theorem signOf_mul_natAbs (n : Int) : signOf (decide (n < 0)) * n.natAbs = n :=
  Int.cast_injective (α := ℝ) (by rw [Int.cast_mul, Int.cast_natCast, ← int_cast_eq_signOf_mul])

/-- A whole number on the grid of its binade is the value of a float. -/
theorem exists_units_eq {n : Int} {j : Nat} (hj : j ≤ 2044) (hgrid : (2 : Int) ^ j ∣ n) (hn : |n| ≤ 2 ^ (53 + j)) :
    ∃ y : F64, isFinite y = true ∧ units y = n := by
  have hgrid' : 2 ^ j ∣ n.natAbs := by simpa [Int.natAbs_pow] using Int.natAbs_dvd_natAbs.2 hgrid
  have hn' : n.natAbs ≤ 2 ^ (53 + j) := by
    rw [Int.abs_eq_natAbs] at hn
    exact_mod_cast hn
  have htop : magUnits ((j + 1 + 1) * 2 ^ 52 + 0) = 2 ^ (53 + j) := by
    rw [magUnits_normal (j + 1) (by decide), add_zero, ← pow_add]
    congr 1
    omega
  have htop_lt : (j + 1 + 1) * 2 ^ 52 + 0 < infMag := by
    rw [infMag]
    omega
  have hmag : magUnits (roundMag n.natAbs 1) = n.natAbs := by
    refine magUnits_roundMag (fun k hk => ?_) htop_lt (hn'.trans htop.ge)
    obtain rfl | hk := hk
    · exact one_dvd _
    · obtain hkj | hjk := le_or_gt k j
      · exact (pow_dvd_pow 2 hkj).trans hgrid'
      · obtain ⟨rfl, hn⟩ : k = j + 1 ∧ n.natAbs = 2 ^ (53 + j) := by
          have := (Nat.pow_le_pow_iff_right (by decide)).1 (hk.trans hn')
          obtain rfl : k = j + 1 := by omega
          exact ⟨rfl, le_antisymm hn' (by rwa [show 52 + (j + 1) = 53 + j by omega] at hk)⟩
        rw [hn]
        exact pow_dvd_pow 2 (by omega)
  refine ⟨packFloat (decide (n < 0)) (roundMag n.natAbs 1), ?_, ?_⟩
  · rw [isFinite_iff, magBits_packFloat _ (roundMag_lt _ _)]
    refine (magUnits_strictMono.le_iff_le.1 ?_).trans_lt htop_lt
    rw [hmag, htop]
    exact hn'
  · rw [units_packFloat _ (roundMag_lt _ _), hmag, signOf_mul_natAbs]

/-- A sum on the grid of its binade is exact. -/
theorem fadd_exact {a b : F64} {j : Nat} (ha : isFinite a = true) (hb : isFinite b = true) (hj : j ≤ 2044)
    (hgrid : (2 : Int) ^ j ∣ units a + units b) (hsmall : |units a + units b| ≤ 2 ^ (53 + j)) :
    isFinite (fadd a b) = true ∧ units (fadd a b) = units a + units b := by
  obtain ⟨y, hy, hunits⟩ := exists_units_eq hj hgrid hsmall
  have hexact : ((units y : Int) : ℝ) = units a + units b := by rw [hunits]; push_cast; rfl
  obtain ⟨hfin, hlo, hhi⟩ := (rounds_fadd ha hb).mem hy hy hexact.le hexact.ge
  exact ⟨hfin, (le_antisymm hhi hlo).trans hunits⟩

end Sys2Proof.Machine
end

section
/-! SUPPORT. Drawn and normalised angles (44_geometry.md R250 (g), R258). -/

namespace Sys2Proof.Machine

theorem units_fTwoPi : units fTwoPi = 0x1921FB54442D18 * 2 ^ 1024 := by
  have hpack : fTwoPi = packFloat false ((1024 + 1) * 2 ^ 52 + 0x921FB54442D18) := by decide
  rw [hpack, units_packFloat_normal (by decide) (by decide)]
  exact congrArg (· * _) (by norm_num)

theorem units_fTwoPi_pos : 0 < units fTwoPi := by
  rw [units_fTwoPi]
  positivity

/-- The float just below `TWO_PI`. -/
def belowTwoPi : F64 := 0x401921FB54442D17#64

theorem units_belowTwoPi : units belowTwoPi = 0x1921FB54442D17 * 2 ^ 1024 := by
  have hpack : belowTwoPi = packFloat false ((1024 + 1) * 2 ^ 52 + 0x921FB54442D17) := by decide
  rw [hpack, units_packFloat_normal (by decide) (by decide)]
  exact congrArg (· * _) (by norm_num)

theorem units_belowTwoPi_lt : units belowTwoPi < units fTwoPi := by
  rw [units_belowTwoPi, units_fTwoPi]
  exact mul_lt_mul_of_pos_right (by norm_num) (by positivity)

/-- The last step below 1 of a uniform float is wider than the last place of `TWO_PI`, so the exact angle lies at or
below the float before `TWO_PI`. -/
theorem uniform_angle_le (w : W32) : units (uniformOf w) * units fTwoPi ≤ units belowTwoPi * 2 ^ 1074 := by
  have hw := w.isLt
  have hword : (w.toNat : Int) * 0x1921FB54442D18 ≤ 0x1921FB54442D17 * 2 ^ 32 := by omega
  rw [units_uniformOf, units_fTwoPi, units_belowTwoPi]
  calc (w.toNat : Int) * 2 ^ 1042 * (0x1921FB54442D18 * 2 ^ 1024)
      = w.toNat * 0x1921FB54442D18 * (2 ^ 1024 * 2 ^ 1042) := by rw [mul_mul_mul_comm, mul_comm (2 ^ 1042)]
    _ ≤ 0x1921FB54442D17 * 2 ^ 32 * (2 ^ 1024 * 2 ^ 1042) := mul_le_mul_of_nonneg_right hword (by positivity)
    _ = 0x1921FB54442D17 * 2 ^ 1024 * (2 ^ 32 * 2 ^ 1042) := mul_mul_mul_comm _ _ _ _
    _ = 0x1921FB54442D17 * 2 ^ 1024 * 2 ^ 1074 := by rw [← pow_add]

theorem drawn_angle_mem (w : W32) :
    fle fZero (fmul (uniformOf w) fTwoPi) = true ∧ flt (fmul (uniformOf w) fTwoPi) fTwoPi = true := by
  have hge : (units fZero : ℝ) ≤ units (uniformOf w) * units fTwoPi / 2 ^ 1074 := by
    have : 0 ≤ units (uniformOf w) * units fTwoPi :=
      mul_nonneg (by rw [units_uniformOf]; positivity) units_fTwoPi_pos.le
    rw [units_fZero, Int.cast_zero]
    exact div_nonneg (by exact_mod_cast this) (by positivity)
  have hle : (units (uniformOf w) * units fTwoPi / 2 ^ 1074 : ℝ) ≤ units belowTwoPi := by
    have h := (Int.cast_le (R := ℝ)).2 (uniform_angle_le w)
    rw [Int.cast_mul, Int.cast_mul, Int.cast_pow, Int.cast_ofNat] at h
    exact (div_le_iff₀ (by positivity)).2 h
  obtain ⟨hfin, hlo, hhi⟩ :=
    (rounds_fmul (isFinite_uniformOf w) (by decide)).mem (by decide) (by decide) hge hle
  have hnan := isNaN_of_isFinite hfin
  exact ⟨(fle_iff (by decide) hnan).2 hlo, (flt_iff hnan (by decide)).2 (hhi.trans_lt units_belowTwoPi_lt)⟩

/-- Rounded up, the sum of a negative remainder and `TWO_PI` can be `TWO_PI` itself, not more. -/
theorem fadd_fTwoPi_mem {t : F64} (hfin : isFinite t = true) (hlo : -units fTwoPi < units t) (hneg : units t < 0) :
    isFinite (fadd t fTwoPi) = true ∧ 0 ≤ units (fadd t fTwoPi) := by
  have hge : (units fZero : ℝ) ≤ units t + units fTwoPi := by
    rw [units_fZero]
    exact_mod_cast (by omega : 0 ≤ units t + units fTwoPi)
  have hle : (units t + units fTwoPi : ℝ) ≤ units fTwoPi := by exact_mod_cast (by omega)
  obtain ⟨hfin, hmem, -⟩ := (rounds_fadd hfin (b := fTwoPi) (by decide)).mem (by decide) (by decide) hge hle
  exact ⟨hfin, units_fZero ▸ hmem⟩

/-- The last step of `ARC_NORM`. -/
theorem below_fTwoPi_mem {t : F64} (hfin : isFinite t = true) (hge : 0 ≤ units t) :
    isFinite (if fle fTwoPi t then fZero else t) = true ∧ fle fZero (if fle fTwoPi t then fZero else t) = true ∧
      flt (if fle fTwoPi t then fZero else t) fTwoPi = true := by
  have hnan := isNaN_of_isFinite hfin
  split
  next => decide
  next hlt =>
    rw [fle_iff (by decide) hnan, not_le] at hlt
    rw [fle_iff (by decide) hnan, flt_iff hnan (by decide), units_fZero]
    exact ⟨hfin, hge, hlt⟩

section
variable {a : F64} (ha : isFinite a = true)
include ha

theorem remainder_mem : isFinite (ffmod a fTwoPi) = true ∧ units (ffmod a fTwoPi) = (units a).tmod (units fTwoPi) ∧
    |units (ffmod a fTwoPi)| < units fTwoPi := by
  obtain ⟨hfin, hunits, habs, -⟩ := ffmod_mem ha (y := fTwoPi) (by decide) (by decide)
  exact ⟨hfin, hunits, habs⟩

theorem arcNorm_mem :
    isFinite (arcNorm a) = true ∧ fle fZero (arcNorm a) = true ∧ flt (arcNorm a) fTwoPi = true := by
  obtain ⟨hfin, -, habs⟩ := remainder_mem ha
  have hneg := flt_iff (isNaN_of_isFinite hfin) (b := fZero) (by decide)
  rw [units_fZero] at hneg
  unfold arcNorm
  dsimp only
  by_cases h : flt (ffmod a fTwoPi) fZero = true
  · rw [if_pos h]
    obtain ⟨hfin', hge⟩ := fadd_fTwoPi_mem hfin (abs_lt.1 habs).1 (hneg.1 h)
    exact below_fTwoPi_mem hfin' hge
  · rw [if_neg h]
    exact below_fTwoPi_mem hfin (not_lt.1 (mt hneg.2 h))

/-- A remainder that is not negative is already normalised. -/
theorem units_arcNorm (h : 0 ≤ units a) : units (arcNorm a) = units a % units fTwoPi := by
  obtain ⟨hfin, hunits, habs⟩ := remainder_mem ha
  rw [Int.tmod_eq_emod_of_nonneg h] at hunits
  have hnan := isNaN_of_isFinite hfin
  have hge : ¬ flt (ffmod a fTwoPi) fZero = true := by
    rw [flt_iff hnan (by decide), units_fZero, hunits]
    exact (Int.emod_nonneg _ units_fTwoPi_pos.ne').not_gt
  have hlt : ¬ fle fTwoPi (ffmod a fTwoPi) = true := by
    rw [fle_iff (by decide) hnan]
    exact (abs_lt.1 habs).2.not_ge
  rw [arcNorm, if_neg hge, if_neg hlt, hunits]

end

end Sys2Proof.Machine
end

section
/-! SUPPORT. The weights of a triangle sample as multiples of `2^-32` (44_geometry.md R251). -/

namespace Sys2Proof.Machine

/-- `r` is the float `n * 2^-32`. -/
def IsShare (r : F64) (n : Int) : Prop := isFinite r = true ∧ units r = n * 2 ^ 1042

theorem isShare_uniformOf (w : W32) : IsShare (uniformOf w) w.toNat := ⟨isFinite_uniformOf w, units_uniformOf w⟩

theorem isShare_fOne : IsShare fOne (2 ^ 32) := ⟨by decide, units_fOne⟩

section
variable {a b : F64} {m n : Int} (ha : IsShare a m) (hb : IsShare b n)
include ha hb

/-- Shares are added exactly: their sums have too few bits to be rounded. -/
theorem IsShare.fadd (h : |m + n| ≤ 2 ^ 53) : IsShare (fadd a b) (m + n) := by
  obtain ⟨hfa, hua⟩ := ha
  obtain ⟨hfb, hub⟩ := hb
  have hsum : units a + units b = (m + n) * 2 ^ 1042 := by rw [hua, hub, add_mul]
  have hsmall : |units a + units b| ≤ 2 ^ (53 + 1042) := by
    rw [hsum, abs_mul, pow_add, abs_of_pos (a := 2 ^ 1042) (by positivity)]
    exact mul_le_mul_of_nonneg_right h (by positivity)
  obtain ⟨hfin, hunits⟩ := fadd_exact hfa hfb (by decide) ⟨m + n, by rw [hsum, mul_comm]⟩ hsmall
  exact ⟨hfin, hunits.trans hsum⟩

theorem IsShare.fsub (h : |m - n| ≤ 2 ^ 53) : IsShare (fsub a b) (m - n) := by
  obtain ⟨hfb, hub⟩ := hb
  have hneg : IsShare (fneg b) (-n) := ⟨(isFinite_fneg b).trans hfb, by rw [units_fneg, hub, neg_mul]⟩
  exact sub_eq_add_neg m n ▸ ha.fadd hneg (sub_eq_add_neg m n ▸ h)

theorem IsShare.flt_iff : flt a b = true ↔ m < n := by
  rw [Machine.flt_iff (isNaN_of_isFinite ha.1) (isNaN_of_isFinite hb.1), ha.2, hb.2]
  exact mul_lt_mul_iff_left₀ (by positivity)

end

theorem IsShare.mem {a : F64} {n : Int} (ha : IsShare a n) (h0 : 0 ≤ n) (h1 : n ≤ 2 ^ 32) :
    isFinite a = true ∧ fle fZero a = true ∧ fle a fOne = true := by
  obtain ⟨hfin, hunits⟩ := ha
  have hnan := isNaN_of_isFinite hfin
  rw [fle_iff (by decide) hnan, fle_iff hnan (by decide), units_fZero, units_fOne, hunits]
  exact ⟨hfin, by positivity, mul_le_mul_of_nonneg_right h1 (by positivity)⟩

/-- Folded, two shares sum to at most 1: above 1, twice 1 less their sum is below 1. -/
theorem foldWeights_shares {u v : F64} {m n : Int} (hu : IsShare u m) (hv : IsShare v n) (hm : 0 ≤ m ∧ m ≤ 2 ^ 32)
    (hn : 0 ≤ n ∧ n ≤ 2 ^ 32) : ∃ i j : Int, IsShare (foldWeights u v).1 i ∧ IsShare (foldWeights u v).2 j ∧
      0 ≤ i ∧ 0 ≤ j ∧ i + j ≤ 2 ^ 32 := by
  have hsum := hu.fadd hv (abs_le.2 ⟨by omega, by omega⟩)
  unfold foldWeights
  split
  next h =>
    have habove := (isShare_fOne.flt_iff hsum).1 h
    exact ⟨2 ^ 32 - m, 2 ^ 32 - n, isShare_fOne.fsub hu (abs_le.2 ⟨by omega, by omega⟩),
      isShare_fOne.fsub hv (abs_le.2 ⟨by omega, by omega⟩), by omega, by omega, by omega⟩
  next h => exact ⟨m, n, hu, hv, hm.1, hn.1, not_lt.1 (mt (isShare_fOne.flt_iff hsum).2 h)⟩

end Sys2Proof.Machine
end

section
/-! PROOF. Angles and triangle weights as numbers (44_geometry.md R250, R251, R258). -/

open Sys2Proof Sys2Proof.Machine

/-- Settles O53: a drawn angle is rounded from at most the float before `TWO_PI`, and a remainder by `TWO_PI` is
exact. -/
theorem anglesStayBelowTwoPi : Obligations.AnglesStayBelowTwoPi := by
  refine ⟨drawn_angle_mem, fun a ha => ?_⟩
  obtain ⟨hfin, hge, hlt⟩ := arcNorm_mem ha
  have hnan := isNaN_of_isFinite ha
  rw [fle_iff (by decide) hnan, flt_iff hnan (by decide), units_fZero]
  refine ⟨hfin, hge, hlt, units_arcNorm ha, fun h0 h1 => ?_⟩
  rw [units_arcNorm ha h0, Int.emod_eq_of_lt h0 h1]

/-- Settles O54: uniform floats are multiples of `2^-32`, and so are all the differences the weights are made of. -/
theorem triangleWeightsSumToOne : Obligations.TriangleWeightsSumToOne := by
  intro x y r1 r2 r3 h12 h3
  have hx := x.isLt
  have hy := y.isLt
  obtain ⟨i, j, hi, hj, hi0, hj0, hij⟩ :=
    foldWeights_shares (isShare_uniformOf x) (isShare_uniformOf y) (by omega) (by omega)
  rw [← h12] at hi hj
  have hrest := (isShare_fOne.fsub hi (abs_le.2 ⟨by omega, by omega⟩)).fsub hj (abs_le.2 ⟨by omega, by omega⟩)
  rw [← h3] at hrest
  refine ⟨?_, fun r hr => ?_⟩
  · rw [hi.2, hj.2, hrest.2, units_fOne, ← add_mul, ← add_mul]
    exact congrArg (· * _) (by ring)
  · simp only [List.mem_cons, List.not_mem_nil, or_false] at hr
    obtain rfl | rfl | rfl := hr
    · exact hi.mem hi0 (by omega)
    · exact hj.mem hj0 (by omega)
    · exact hrest.mem (by omega) (by omega)
end

section
/-! SUPPORT. Uniform draws in a row, and the tests before them, as every command of the Geometric Sampler has them
(44_geometry.md R250, R251). -/

namespace Sys2Proof.Machine

theorem flt_eq_false_of_fle {a b : F64} (h : fle a b = true) : flt b a = false :=
  Bool.eq_false_iff.2 fun hlt => absurd h (by rw [fle_eq_false_of_flt hlt]; decide)

/-! ### Draws -/

section
variable (s : State) (c : Chan) (n : Nat) {β : Type}

theorem drawF_advanceBy :
    drawF (s.ctx c) ((s.advanceBy c n).work c) = .ok (s.uniformAt c n) ((s.advanceBy c (n + 1)).work c) :=
  State.advanceBy_ctx s c n ▸ drawF_advance (s.advanceBy c n) c

/-- Draw number `n` and what follows it. -/
theorem andThen_drawF (f : F64 → Cmd β) : andThen (drawF (s.ctx c)) f ((s.advanceBy c n).work c) =
    f (s.uniformAt c n) ((s.advanceBy c (n + 1)).work c) := andThen_ok (drawF_advanceBy s c n)

theorem andThen_drawAngle (f : F64 → Cmd β) : andThen (drawAngle (s.ctx c)) f ((s.advanceBy c n).work c) =
    f (fmul (s.uniformAt c n) fTwoPi) ((s.advanceBy c (n + 1)).work c) :=
  andThen_ok (andThen_drawF s c n _)

theorem andThen_drawSigned (f : F64 → Cmd β) : andThen (drawSigned (s.ctx c)) f ((s.advanceBy c n).work c) =
    f (s.signedAt c n) ((s.advanceBy c (n + 1)).work c) :=
  andThen_ok (andThen_drawF s c n _)

/-- The weights `r1`, `r2` of the triangle sample that draws the numbers `n` and `n + 1`. -/
def State.weightsAt (s : State) (c : Chan) (n : Nat) : F64 × F64 :=
  foldWeights (s.uniformAt c n) (s.uniformAt c (n + 1))

theorem andThen_triSample (x1 y1 x2 y2 x3 y3 : F64) (f : F64 × F64 → Cmd β) :
    andThen (triSample (s.ctx c) x1 y1 x2 y2 x3 y3) f ((s.advanceBy c n).work c) =
      f (baryCombine (s.weightsAt c n).1 (s.weightsAt c n).2 x1 x2 x3,
        baryCombine (s.weightsAt c n).1 (s.weightsAt c n).2 y1 y2 y3) ((s.advanceBy c (n + 2)).work c) :=
  andThen_ok ((andThen_drawF s c n _).trans (andThen_drawF s c (n + 1) _))

end

/-! ### Tests -/

section
variable {p q : Bool} {m : Cmd Reply}

/-- A command whose operands are not all finite. -/
theorem not_finite_fails (h : p = false) : (if !p then failWith .numeric else m) = ret (.fail .numeric 0#64) :=
  if_pos (by rw [h]; rfl)

theorem finite_passes (h : p = true) : (if !p then failWith .numeric else m) = m := if_neg (by rw [h]; decide)

/-- A command whose operands are not all finite or out of its domain. -/
theorem tests_fail (h : p = false ∨ q = true) :
    (if !p then failWith .numeric else if q then failWith .numeric else m) = ret (.fail .numeric 0#64) := by
  cases p with
  | false => rfl
  | true => exact if_pos (h.resolve_left (by decide))

theorem tests_pass (hp : p = true) (hq : q = false) :
    (if !p then failWith .numeric else if q then failWith .numeric else m) = m :=
  (finite_passes hp).trans (if_neg (by rw [hq]; decide))

end

/-! ### The first arguments tested one after the other -/

section
variable (s : State) (c : Chan)

theorem finite_four_iff : (isFinite (s.argF64 c 0) && isFinite (s.argF64 c 1) && isFinite (s.argF64 c 2) &&
    isFinite (s.argF64 c 3)) = true ↔ ∀ i, i < 4 → isFinite (s.argF64 c i) = true := by
  simp [Fin.forall_fin_succ, and_assoc]

theorem finite_five_iff : (isFinite (s.argF64 c 0) && isFinite (s.argF64 c 1) && isFinite (s.argF64 c 2) &&
    isFinite (s.argF64 c 3) && isFinite (s.argF64 c 4)) = true ↔ ∀ i, i < 5 → isFinite (s.argF64 c i) = true := by
  simp [Fin.forall_fin_succ, and_assoc]

theorem finite_six_iff : (isFinite (s.argF64 c 0) && isFinite (s.argF64 c 1) && isFinite (s.argF64 c 2) &&
    isFinite (s.argF64 c 3) && isFinite (s.argF64 c 4) && isFinite (s.argF64 c 5)) = true ↔
    ∀ i, i < 6 → isFinite (s.argF64 c i) = true := by
  simp [Fin.forall_fin_succ, and_assoc]

variable {s c}

/-- A test of the first arguments fails where one of them does. -/
theorem eq_false_of_exists {b : Bool} {n : Fin 8} (hb : b = true ↔ ∀ i, i < n → isFinite (s.argF64 c i) = true)
    (h : ∃ i, i < n ∧ isFinite (s.argF64 c i) = false) : b = false := by
  obtain ⟨i, hi, hfalse⟩ := h
  refine Bool.eq_false_iff.2 fun hall => ?_
  rw [hb.1 hall i hi] at hfalse
  exact Bool.noConfusion hfalse

end

/-! ### An axis -/

/-- An axis with its bounds in order, then scaled (44_geometry.md R254). -/
theorem scaleInto_orderedPair (a b u : F64) : scaleInto (orderedPair a b).1 (orderedPair a b).2 u =
    if flt b a then fadd b (fmul u (fsub a b)) else fadd a (fmul u (fsub b a)) := by
  unfold orderedPair
  split <;> rfl

end Sys2Proof.Machine
end

section
/-! PROOF. The samplers of one or two draws in the plane, and `POINT_IN_BOX` (44_geometry.md R252 to R257, R259,
R263). -/

open Sys2Proof Sys2Proof.Machine

/-- Settles O49: both commands have the same tests; the disk draws its radius after the angle. -/
theorem circlesSample : Obligations.CirclesSample := by
  rintro s c cx cy r ang rr rfl rfl rfl rfl rfl
  refine ⟨fun h => ⟨?_, ?_⟩, fun hfin hpos => ?_⟩
  · exact fails_of_branch (body := pointInCircleBody) rfl rfl (tests_fail h)
  · exact fails_of_branch (body := pointOnCircleBody) rfl rfl (tests_fail h)
  · have hdomain := fle_eq_false_of_flt hpos
    constructor
    · refine samples_of_point2 (body := pointInCircleBody) rfl rfl ((congrFun (tests_pass hfin hdomain) _).trans ?_)
      exact (andThen_drawAngle s c 0 _).trans (andThen_drawF s c 1 _)
    · refine samples_of_point2 (body := pointOnCircleBody) rfl rfl ((congrFun (tests_pass hfin hdomain) _).trans ?_)
      exact andThen_drawAngle s c 0 _

/-- Settles O50: the commands differ in their domains and in the scale of the direction. -/
theorem ringAndEllipseSample : Obligations.RingAndEllipseSample := by
  rintro s c cx cy p q ang u rr rfl rfl rfl rfl rfl rfl rfl
  refine ⟨fun h => ⟨?_, ?_⟩, fun h => ?_, fun h => ?_, fun hfin => ⟨fun hp hq hpq => ?_, fun hp hq => ?_⟩⟩
  · exact fails_of_branch (body := pointInRingBody) rfl rfl (tests_fail (.inl h))
  · exact fails_of_branch (body := pointInEllipseBody) rfl rfl (tests_fail (.inl h))
  · refine fails_of_branch (body := pointInRingBody) rfl rfl (tests_fail (.inr ?_))
    rwa [Bool.or_eq_true, Bool.or_eq_true, or_assoc]
  · refine fails_of_branch (body := pointInEllipseBody) rfl rfl (tests_fail (.inr ?_))
    rwa [Bool.or_eq_true]
  · have hdomain :
        (flt (s.argF64 c 2) fZero || fle (s.argF64 c 3) fZero || fle (s.argF64 c 3) (s.argF64 c 2)) = false := by
      rw [flt_eq_false_of_fle hp, fle_eq_false_of_flt hq, fle_eq_false_of_flt hpq]
      rfl
    refine samples_of_point2 (body := pointInRingBody) rfl rfl ((congrFun (tests_pass hfin hdomain) _).trans ?_)
    exact (andThen_drawAngle s c 0 _).trans (andThen_drawF s c 1 _)
  · have hdomain : (fle (s.argF64 c 2) fZero || fle (s.argF64 c 3) fZero) = false := by
      rw [fle_eq_false_of_flt hp, fle_eq_false_of_flt hq]
      rfl
    refine samples_of_point2 (body := pointInEllipseBody) rfl rfl ((congrFun (tests_pass hfin hdomain) _).trans ?_)
    exact (andThen_drawAngle s c 0 _).trans (andThen_drawF s c 1 _)

/-- Settles O51: the bounds of every axis are exchanged before the first draw. -/
theorem rectAndBoxSample : Obligations.RectAndBoxSample := by
  intro s c arg axis harg haxis
  obtain rfl : arg = s.argF64 c := funext harg
  obtain rfl : axis = fun a b u => scaleInto (orderedPair a b).1 (orderedPair a b).2 u :=
    funext fun a => funext fun b => funext fun u => (haxis a b u).trans (scaleInto_orderedPair a b u).symm
  refine ⟨fun h => ?_, fun h => ?_, fun h => ?_, fun h => ?_⟩
  · exact fails_of_branch (body := pointInRectBody) rfl rfl
      (not_finite_fails (eq_false_of_exists (finite_four_iff s c) h))
  · refine samples_of_point2 (body := pointInRectBody) rfl rfl
      ((congrFun (finite_passes ((finite_four_iff s c).2 h)) _).trans ?_)
    exact (andThen_drawF s c 0 _).trans (andThen_drawF s c 1 _)
  · exact fails_of_branch (body := pointInBoxBody) rfl rfl
      (not_finite_fails (eq_false_of_exists (finite_six_iff s c) h))
  · refine samples_of_point3 (body := pointInBoxBody) rfl rfl
      ((congrFun (finite_passes ((finite_six_iff s c).2 h)) _).trans ?_)
    exact (andThen_drawF s c 0 _).trans ((andThen_drawF s c 1 _).trans (andThen_drawF s c 2 _))

/-- Settles O52: the span of an arc is tested before the first draw. -/
theorem triangleAndArcSample : Obligations.TriangleAndArcSample := by
  rintro s c arg u v harg rfl rfl
  obtain rfl : arg = s.argF64 c := funext harg
  refine ⟨fun h => ?_, fun r1 r2 r3 hfin hfold hr3 => ?_, fun h => ?_, ?_⟩
  · exact fails_of_branch (body := pointInTriangleBody) rfl rfl
      (not_finite_fails (eq_false_of_exists (finite_six_iff s c) h))
  · replace hfold : (r1, r2) = s.weightsAt c 0 := hfold
    obtain ⟨rfl, rfl⟩ : r1 = (s.weightsAt c 0).1 ∧ r2 = (s.weightsAt c 0).2 := Prod.ext_iff.1 hfold
    subst hr3
    refine samples_of_point2 (body := pointInTriangleBody) rfl rfl
      ((congrFun (finite_passes ((finite_six_iff s c).2 hfin)) _).trans ?_)
    exact andThen_triSample s c 0 _ _ _ _ _ _ _
  · exact fails_of_branch (body := pointInArcBody) rfl rfl
      (tests_fail (h.imp_left (eq_false_of_exists (finite_five_iff s c))))
  · rintro st en span ang rr hfin hpos rfl rfl rfl rfl rfl
    have hpass {m : Cmd Reply} := tests_pass (m := m) ((finite_five_iff s c).2 hfin) (fle_eq_false_of_flt hpos)
    refine ⟨fun hspan => ?_, fun hspan => ?_⟩
    · exact fails_of_branch (body := pointInArcBody) rfl rfl (hpass.trans (not_finite_fails hspan))
    · refine samples_of_point2 (body := pointInArcBody) rfl rfl
        ((congrFun (hpass.trans (finite_passes hspan)) _).trans ?_)
      exact (andThen_drawF s c 0 _).trans (andThen_drawF s c 1 _)
end

section
/-! SUPPORT. The rejection loops of `POINT_IN_SPHERE` and `POINT_ON_SPHERE` (44_geometry.md R261, R262, R264). -/

namespace Sys2Proof.Machine

/-! ### Rejection in general -/

/-- Every pass of the rejection loop `loop` from the work `w i` accepts candidate `i`, with the value `found i`, or goes
on from `w (i + 1)`. -/
structure Rejects {α : Type} (loop : Nat → Cmd (Option α)) (w : Nat → Work) (accepts : Nat → Bool)
    (found : Nat → α) : Prop where
  nil : ∀ i, loop 0 (w i) = .ok none (w i)
  pass : ∀ tries i, loop (tries + 1) (w i) =
    if accepts i then .ok (some (found i)) (w (i + 1)) else loop tries (w (i + 1))

section
variable {α : Type} {loop : Nat → Cmd (Option α)} {w : Nat → Work} {accepts : Nat → Bool} {found : Nat → α}
  (h : Rejects loop w accepts found)
include h

/-- With no candidate accepted the loop ends after its last one. -/
theorem Rejects.all_rejected (tries i : Nat) (hall : ∀ j, j < tries → accepts (i + j) = false) :
    loop tries (w i) = .ok none (w (i + tries)) := by
  induction tries generalizing i with
  | zero => exact h.nil i
  | succ tries ih =>
    have hfirst : accepts i = false := hall 0 (by omega)
    have hrest : ∀ j, j < tries → accepts (i + 1 + j) = false := fun j hj => by
      rw [Nat.add_assoc, Nat.add_comm 1 j]
      exact hall (j + 1) (by omega)
    rw [h.pass, hfirst, if_neg Bool.false_ne_true, ih (i + 1) hrest, Nat.add_assoc, Nat.add_comm 1 tries]

/-- The loop ends with the first candidate accepted. -/
theorem Rejects.first_accepted (n tries i : Nat) (hn : n < tries) (hbefore : ∀ j, j < n → accepts (i + j) = false)
    (hacc : accepts (i + n) = true) : loop tries (w i) = .ok (some (found (i + n))) (w (i + n + 1)) := by
  obtain ⟨tries, rfl⟩ : ∃ t, tries = t + 1 := ⟨tries - 1, by omega⟩
  induction n generalizing i tries with
  | zero => exact (h.pass tries i).trans (if_pos hacc)
  | succ n ih =>
    obtain ⟨tries, rfl⟩ : ∃ t, tries = t + 1 := ⟨tries - 1, by omega⟩
    have hnext : i + 1 + n = i + (n + 1) := by omega
    have hfirst : accepts i = false := hbefore 0 (by omega)
    have hrest : ∀ j, j < n → accepts (i + 1 + j) = false := fun j hj => by
      rw [Nat.add_assoc, Nat.add_comm 1 j]
      exact hbefore (j + 1) (by omega)
    rw [h.pass, hfirst, if_neg Bool.false_ne_true, ih (i + 1) hrest (hnext ▸ hacc) tries (by omega), hnext]

end

/-! ### The candidates of the two commands -/

/-- Candidate `i` of the sphere-volume loop with its `d2`. -/
def State.ballPoint (s : State) (c : Chan) (i : Nat) : F64 × F64 × F64 × F64 :=
  (s.signedAt c (3 * i), s.signedAt c (3 * i + 1), s.signedAt c (3 * i + 2), s.ballNorm c i)

theorem rejects_ballLoop (s : State) (c : Chan) :
    Rejects (ballLoop (s.ctx c)) (fun i => (s.advanceBy c (3 * i)).work c) (s.ballAccepts c) (s.ballPoint c) where
  nil _ := rfl
  pass tries i := by
    rw [ballLoop, andThen_drawSigned, andThen_drawSigned, andThen_drawSigned]
    exact ite_apply _ _ _ _

/-- Candidate `i` of the sphere-surface loop with its `s`. -/
def State.diskPoint (s : State) (c : Chan) (i : Nat) : F64 × F64 × F64 :=
  (s.signedAt c (2 * i), s.signedAt c (2 * i + 1), s.diskNorm c i)

theorem rejects_diskLoop (s : State) (c : Chan) :
    Rejects (diskLoop (s.ctx c)) (fun i => (s.advanceBy c (2 * i)).work c) (fun i => flt (s.diskNorm c i) fOne)
      (s.diskPoint c) where
  nil _ := rfl
  pass tries i := by
    rw [diskLoop, andThen_drawSigned, andThen_drawSigned]
    exact ite_apply _ _ _ _

/-- A command that fails after `n` draws leaves what they leave. -/
theorem exec_of_fail {i : Instr} {c : Chan} {body : Ctx → Cmd Reply} {s : State} {n : Nat} {e : Err} {v : W64}
    (hi : exec i s = runCommand c body s)
    (h : body (s.ctx c) (s.work c) = .ok (.fail e v) ((s.advanceBy c n).work c)) :
    exec i s = .next ((s.advanceBy c n).complete c (.fail e v)) :=
  hi.trans (runCommand_reaches ⟨h, (reaches_drawWords c n s).2⟩)

end Sys2Proof.Machine
end

section
/-! PROOF. The commands that reject candidates (44_geometry.md R261, R262, R264). -/

open Sys2Proof Sys2Proof.Machine

/-- Settles O56: the loop ends with the first candidate accepted, from which the command draws once more. -/
theorem ballRejectionSamples : Obligations.BallRejectionSamples := by
  rintro s c cx cy cz r rfl rfl rfl rfl
  refine ⟨fun h => fails_of_branch (body := pointInSphereBody) rfl rfl (tests_fail h), fun hfin hpos => ?_⟩
  have hpass {m : Cmd Reply} := tests_pass (m := m) hfin (fle_eq_false_of_flt hpos)
  refine ⟨fun hall => ?_, fun n k hn hbefore hacc hk => ?_⟩
  · have hloop := (rejects_ballLoop s c).all_rejected s.cfg.retryCap 0 (by simpa using hall)
    rw [Nat.zero_add] at hloop
    exact exec_of_fail (body := pointInSphereBody) rfl ((congrFun hpass _).trans (andThen_ok hloop))
  · subst hk
    have hloop := (rejects_ballLoop s c).first_accepted n s.cfg.retryCap 0 hn (by simpa using hbefore)
      (by simpa using hacc)
    rw [Nat.zero_add] at hloop
    refine samples_of_point3 (body := pointInSphereBody) rfl rfl
      ((congrFun hpass _).trans ((andThen_ok hloop).trans ?_))
    exact andThen_drawF s c (3 * n + 3) _

/-- Settles O57: the loop ends with the first candidate accepted, and nothing is drawn after it. -/
theorem diskRejectionSamples : Obligations.DiskRejectionSamples := by
  rintro s c cx cy cz r rfl rfl rfl rfl
  refine ⟨fun h => fails_of_branch (body := pointOnSphereBody) rfl rfl (tests_fail h), fun hfin hpos => ?_⟩
  have hpass {m : Cmd Reply} := tests_pass (m := m) hfin (fle_eq_false_of_flt hpos)
  refine ⟨fun hall => ?_, ?_⟩
  · have hloop := (rejects_diskLoop s c).all_rejected s.cfg.retryCap 0 (by simpa using hall)
    rw [Nat.zero_add] at hloop
    exact exec_of_fail (body := pointOnSphereBody) rfl ((congrFun hpass _).trans (andThen_ok hloop))
  · rintro n u v q f hn hbefore rfl rfl rfl hacc rfl
    have hloop := (rejects_diskLoop s c).first_accepted n s.cfg.retryCap 0 hn (by simpa using hbefore)
      (by simpa using hacc)
    rw [Nat.zero_add] at hloop
    exact samples_of_point3 (body := pointOnSphereBody) rfl rfl ((congrFun hpass _).trans (andThen_ok hloop))
end

section
/-! SUPPORT. `POINT_IN_POLYGON`: the vertices and fan triangles of the cells, and the choice of a triangle by its
running area (44_geometry.md R260). -/

namespace Sys2Proof.Machine

/-! ### Vertices and fan triangles of a list -/

theorem pairCells_map_range' (f : Nat → W64) (n i : Nat) :
    pairCells ((List.range' (2 * i) (2 * n)).map f) = (List.range' i n).map fun k => (f (2 * k), f (2 * k + 1)) := by
  induction n generalizing i with
  | zero => rfl
  | succ n ih =>
    rw [Nat.mul_succ, List.range'_succ, List.range'_succ, List.range'_succ, List.map_cons, List.map_cons, List.map_cons,
      pairCells]
    exact congrArg _ (ih (i + 1))

theorem fanTriangles_map_range' (o : F64 × F64) (v : Nat → F64 × F64) (n i : Nat) :
    fanTriangles o ((List.range' i (n + 1)).map v) =
      (List.range' i n).map fun k => (fanArea o (v k) (v (k + 1)), v k, v (k + 1)) := by
  induction n generalizing i with
  | zero => rfl
  | succ n ih =>
    have hfan : fanTriangles o ((List.range' i (n + 1 + 1)).map v) =
        (fanArea o (v i) (v (i + 1)), v i, v (i + 1)) :: fanTriangles o ((List.range' (i + 1) (n + 1)).map v) := rfl
    rw [hfan, ih (i + 1), List.range'_succ, List.map_cons]

/-! ### The polygon of a channel -/

section
variable (s : State) (c : Chan)

/-- Vertex `i` of the polygon in `BUF[c]` (20_memory.md R81). -/
def State.vertex (s : State) (c : Chan) (i : Nat) : F64 × F64 := (s.cell c (2 * i), s.cell c (2 * i + 1))

/-- Fan triangle `k` of the polygon, with its area first. -/
def State.fan (s : State) (c : Chan) (k : Nat) : F64 × (F64 × F64) × (F64 × F64) :=
  (fanArea (s.vertex c 0) (s.vertex c k) (s.vertex c (k + 1)), s.vertex c k, s.vertex c (k + 1))

theorem State.fanSum_succ (k : Nat) : s.fanSum c (k + 1) = fadd (s.fanSum c k) (s.fan c (k + 1)).1 := rfl

theorem fanTotal_fans (m : Nat) : fanTotal ((List.range' 1 m).map (s.fan c)) = s.fanSum c m := by
  induction m with
  | zero => rfl
  | succ m ih =>
    rw [fanTotal] at ih ⊢
    rw [List.range'_1_concat, List.map_append, List.foldl_append, ih, Nat.add_comm 1 m]
    rfl

variable {s c}

/-- From triangle `i + 1` on, the first running area above `t` is chosen, else the last triangle. -/
theorem fanPick_fans {t : F64} {sel : Nat} (m i : Nat) (last : (F64 × F64) × (F64 × F64)) (hlo : i < sel)
    (hhi : sel ≤ i + m) (hbefore : ∀ k, i < k → k < sel → flt t (s.fanSum c k) = false)
    (hsel : flt t (s.fanSum c sel) = true ∨ sel = i + m) :
    fanPick t (s.fanSum c i) ((List.range' (i + 1) m).map (s.fan c)) last = (s.fan c sel).2 := by
  induction m generalizing i last with
  | zero => omega
  | succ m ih =>
    rw [List.range'_succ, List.map_cons, fanPick, ← State.fanSum_succ]
    obtain rfl | hnext := Nat.eq_or_lt_of_le (Nat.succ_le_of_lt hlo)
    · split
      next => rfl
      next hnot =>
        obtain rfl : m = 0 := by have := hsel.resolve_left hnot; omega
        rfl
    · rw [hbefore (i + 1) (Nat.lt_succ_self i) hnext, if_neg Bool.false_ne_true]
      exact ih (i + 1) _ hnext (by omega) (fun k hk => hbefore k (by omega)) (hsel.imp_right fun h => by omega)

/-! ### The command -/

/-- The first `n` vertices. -/
def State.vertices (s : State) (c : Chan) (n : Nat) : List (F64 × F64) := (List.range' 0 n).map (s.vertex c)

/-- The test of the coordinates, cell by cell. -/
theorem any_vertices_iff {n : Nat} : ((s.vertices c n).any fun v => !isFinite v.1 || !isFinite v.2) = true ↔
    ∃ j, j < 2 * n ∧ isFinite (s.cell c j) = false := by
  simp only [State.vertices, List.any_map, List.any_eq_true, List.mem_range'_1, Function.comp_apply, State.vertex,
    Bool.or_eq_true, Bool.not_eq_true']
  constructor
  · rintro ⟨k, hk, h | h⟩
    · exact ⟨2 * k, by omega, h⟩
    · exact ⟨2 * k + 1, by omega, h⟩
  · rintro ⟨j, hj, h⟩
    refine ⟨j / 2, by omega, ?_⟩
    obtain heven | hodd := Nat.mod_two_eq_zero_or_one j
    · exact .inl (by rwa [show 2 * (j / 2) = j by omega])
    · exact .inr (by rwa [show 2 * (j / 2) + 1 = j by omega])

/-- With a count in range the command goes on from the vertices it has read. -/
theorem pointInPolygonBody_apply (hlo : 3 ≤ s.argI32 c 0) (hhi : s.argI32 c 0 ≤ s.cfg.maxVertices)
    (hcfg : 2 * s.cfg.maxVertices ≤ s.cfg.maxElems) : pointInPolygonBody (s.ctx c) (s.work c) =
      polygonSample (s.ctx c) (s.vertices c (s.argI32 c 0).toNat) (s.work c) := by
  have hread := (reaches_readCells (c := c) (s := s) (start := 0) (n := 2 * (s.argI32 c 0).toNat) (by omega)).1
  have hbranch : pointInPolygonBody (s.ctx c) = andThen (readCells (s.ctx c) 0 (2 * (s.argI32 c 0).toNat)) fun cells =>
      polygonSample (s.ctx c) (pairCells cells) :=
    if_neg (not_or.2 ⟨hlo.not_gt, hhi.not_gt⟩)
  have hpairs := pairCells_map_range' (s.cell c) (s.argI32 c 0).toNat 0
  rw [Nat.mul_zero, ← List.range_eq_range'] at hpairs
  simp only [Nat.zero_add] at hread
  rw [hbranch, andThen_ok hread, hpairs]
  rfl

theorem polygonSample_of_not_finite {n : Nat} (h : ∃ j, j < 2 * n ∧ isFinite (s.cell c j) = false) (k : Ctx) :
    polygonSample k (s.vertices c n) = ret (.fail .numeric 0#64) := if_pos (any_vertices_iff.2 h)

/-- A polygon of finite vertices: its area is tested before the first draw. -/
theorem polygonSample_of_finite {m : Nat} (h : ∀ j, j < 2 * (m + 2) → isFinite (s.cell c j) = true) (k : Ctx) :
    polygonSample k (s.vertices c (m + 2)) =
      if !flt fZero (s.fanSum c m) || !isFinite (s.fanSum c m) then failWith .numeric
      else andThen (drawF k) fun u =>
        let ab := fanPick (fmul u (s.fanSum c m)) fZero ((List.range' 1 m).map (s.fan c)) (s.vertex c 0, s.vertex c 0)
        andThen (triSample k (s.vertex c 0).1 (s.vertex c 0).2 ab.1.1 ab.1.2 ab.2.1 ab.2.2) fun p =>
          okPoint2 k p.1 p.2 := by
  have hall : ¬ ((s.vertices c (m + 2)).any fun v => !isFinite v.1 || !isFinite v.2) = true := by
    rw [any_vertices_iff]
    rintro ⟨j, hj, hfalse⟩
    rw [h j hj] at hfalse
    exact Bool.noConfusion hfalse
  have hcons : s.vertices c (m + 2) = s.vertex c 0 :: (List.range' 1 (m + 1)).map (s.vertex c) := rfl
  have hfans : fanTriangles (s.vertex c 0) ((List.range' 1 (m + 1)).map (s.vertex c)) =
      (List.range' 1 m).map (s.fan c) := fanTriangles_map_range' _ _ _ _
  refine (if_neg hall).trans ?_
  rw [hcons]
  dsimp only
  rw [hfans, fanTotal_fans]

end

end Sys2Proof.Machine
end

section
/-! PROOF. `POINT_IN_POLYGON` (44_geometry.md R260). -/

open Sys2Proof Sys2Proof.Machine

/-- Settles O55: the running areas the command compares with are the sums `fanSum`, and the chosen triangle is sampled
with the second and third draw. -/
theorem polygonSamples : Obligations.PolygonSamples := by
  rintro s c n rfl hcfg
  refine ⟨fun h => ?_, fun hlo hhi hcell => ?_, fun total hlo hhi hcells htotal => ?_⟩
  · exact fails_of_branch (body := pointInPolygonBody) rfl rfl (if_pos h)
  · refine fails_of_body (body := pointInPolygonBody) rfl rfl ((pointInPolygonBody_apply hlo hhi hcfg).trans ?_)
    rw [polygonSample_of_not_finite hcell, ret_apply]
  · have hbody := pointInPolygonBody_apply hlo hhi hcfg
    obtain ⟨m, hm⟩ : ∃ m, (s.argI32 c 0).toNat = m + 2 := ⟨(s.argI32 c 0).toNat - 2, by omega⟩
    rw [hm] at hcells hbody
    rw [hm, Nat.add_sub_cancel] at htotal ⊢
    subst htotal
    rw [polygonSample_of_finite hcells] at hbody
    refine ⟨fun harea => ?_, fun hpos hfin sel t r1 r2 r3 ht h1 hlast hbefore hsel hfold hr3 => ?_⟩
    · have htest : (!flt fZero (s.fanSum c m) || !isFinite (s.fanSum c m)) = true := by
        rwa [Bool.or_eq_true, Bool.not_eq_true', Bool.not_eq_true']
      rw [if_pos htest] at hbody
      exact fails_of_body (body := pointInPolygonBody) rfl rfl hbody
    · replace hfold : (r1, r2) = s.weightsAt c 1 := hfold
      obtain ⟨rfl, rfl⟩ : r1 = (s.weightsAt c 1).1 ∧ r2 = (s.weightsAt c 1).2 := Prod.ext_iff.1 hfold
      subst hr3 ht
      have hpick : fanPick (fmul (s.uniformAt c 0) (s.fanSum c m)) fZero ((List.range' 1 m).map (s.fan c))
          (s.vertex c 0, s.vertex c 0) = (s.fan c sel).2 :=
        fanPick_fans m 0 _ h1 (by omega) hbefore (by rwa [Nat.zero_add])
      refine samples_of_point2 (body := pointInPolygonBody) rfl rfl ?_
      rw [hbody, hpos, hfin, if_neg (by decide)]
      refine (andThen_drawF s c 0 _).trans ?_
      rw [hpick]
      exact andThen_triSample s c 1 _ _ _ _ _ _ _
end

section
/-! SUPPORT. How every command ends: never in a fault under a configuration that meets 00_scope.md R7, and where it
completes, with a success, with a failure that changed nothing, or out of candidates (60_exceptions.md R300, R302,
R304). -/

namespace Sys2Proof.Machine

/-- Every command at once: `SEED` and `ZEROIZE` write their engine and succeed, the others are as `exec_frame` says. -/
theorem exec_cases (i : Instr) (s : State) :
    (∃ w, exec i s = .next (s.leave i.chan (some okNone) w)) ∨
    (i.wellFormed = false ∧ exec i s = .next (s.complete i.chan (.fail .illegal 0#64))) ∨
    ∃ body, exec i s = runCommand i.chan body s ∧
      BodyFrame (s.ctx i.chan) (bufStores i s) (outStores i s) ((failureCodes i).erase .retry) (sentinel i s)
        (ReplyOf i) (body (s.ctx i.chan)) := by
  by_cases hseed : ∃ c, i = .seed c
  · obtain ⟨c, rfl⟩ := hseed
    exact .inl ⟨_, rfl⟩
  by_cases hzeroize : i = .zeroize .S
  · subst hzeroize
    exact .inl ⟨_, rfl⟩
  exact .inr (exec_frame i s (fun c hc => hseed ⟨c, hc⟩) hzeroize)

/-! ### No step faults -/

theorem BodyFrame.exists_ending {k : Ctx} {B O : Nat → Prop} {codes : List Err} {v : W64} {P : Reply → Prop}
    {m : Cmd Reply} (hf : BodyFrame k B O codes v P m) (hwf : k.cfg.wf = true) (w : Work) :
    ∃ o w', m w = Res.ending o w' := by
  obtain ⟨e, -, he⟩ | hk := hf w
  · exact ⟨some (.fail e v), w, he⟩
  · cases hw : m w with
    | ok r w' => exact ⟨some r, w', rfl⟩
    | stuck w' => exact ⟨none, w', rfl⟩
    | fault f =>
      rw [hw] at hk
      exact absurd (hwf.symm.trans hk) (by decide)

section
variable {s : State} (hwf : s.cfg.wf = true)
include hwf

theorem exec_goes_on (i : Instr) : ∃ t, exec i s = .next t := by
  obtain ⟨w, hengine⟩ | ⟨-, hillegal⟩ | ⟨body, hrun, hframe⟩ := exec_cases i s
  · exact ⟨_, hengine⟩
  · exact ⟨_, hillegal⟩
  · obtain ⟨o, w, hw⟩ := hframe.exists_ending hwf (s.work i.chan)
    exact ⟨_, hrun.trans (runCommand_next_iff.2 ⟨o, w, hw, rfl⟩)⟩

theorem startCommand_goes_on (c : Chan) (w : W32) : ∃ t, startCommand c w s = .next t := by
  unfold startCommand
  split
  · exact exec_goes_on hwf _
  · exact ⟨_, rfl⟩

theorem hostWrite_goes_on (c : Chan) (loc : Loc) (v : W64) : ∃ t, hostWrite c loc v s = .next t := by
  unfold hostWrite
  split
  · exact ⟨_, rfl⟩
  · split
    · exact startCommand_goes_on hwf c _
    · exact ⟨_, rfl⟩

theorem hostAct_goes_on (a : HostAction) : ∃ t, hostAct a s = .next t := by
  cases a with
  | write c loc v => exact hostWrite_goes_on hwf c loc v
  | read c loc => exact ⟨_, rfl⟩
  | reset => exact ⟨_, rfl⟩

end

/-! ### The failure codes -/

/-- The codes of a command are different failures, and `ERR_NONE` is none of them (60_exceptions.md R301, R302). -/
theorem nodup_none_cons_failureCodes (i : Instr) : (Err.none :: failureCodes i).Nodup := by
  cases i with
  | zeroize c => cases c <;> decide
  | randomBytes c => cases c <;> decide
  | uuidV4 c => cases c <;> decide
  | _ => simp [failureCodes]

theorem none_notMem_failureCodes (i : Instr) : Err.none ∉ failureCodes i :=
  (List.nodup_cons.1 (nodup_none_cons_failureCodes i)).1

theorem nodup_failureCodes (i : Instr) : (failureCodes i).Nodup :=
  (List.nodup_cons.1 (nodup_none_cons_failureCodes i)).2

theorem illegal_mem_failureCodes {i : Instr} (h : i.wellFormed = false) : Err.illegal ∈ failureCodes i := by
  obtain rfl | rfl | rfl := wellFormed_eq_false_iff.1 h <;> decide

theorem sentinel_of_illFormed {i : Instr} (h : i.wellFormed = false) (s : State) : sentinel i s = 0#64 := by
  obtain rfl | rfl | rfl := wellFormed_eq_false_iff.1 h <;> rfl

/-- Only the two rejection loops run out of candidates (44_geometry.md R264). -/
theorem sphere_of_retry {i : Instr} (h : Err.retry ∈ failureCodes i) :
    i = .pointInSphere i.chan ∨ i = .pointOnSphere i.chan := by
  cases i with
  | pointInSphere c => exact .inl rfl
  | pointOnSphere c => exact .inr rfl
  | zeroize c => cases c <;> simp [failureCodes] at h
  | randomBytes c => cases c <;> simp [failureCodes] at h
  | uuidV4 c => cases c <;> simp [failureCodes] at h
  | _ => simp [failureCodes] at h

/-! ### Running out of candidates -/

/-- A loop that ends with no candidate has consumed all it had. -/
theorem Rejects.eq_of_none {α : Type} {loop : Nat → Cmd (Option α)} {w : Nat → Work} {accepts : Nat → Bool}
    {found : Nat → α} (h : Rejects loop w accepts found) {tries i : Nat} {w' : Work}
    (hnone : loop tries (w i) = .ok none w') : w' = w (i + tries) := by
  induction tries generalizing i with
  | zero =>
    rw [h.nil] at hnone
    cases hnone
    rfl
  | succ tries ih =>
    rw [h.pass] at hnone
    split at hnone
    · cases hnone
    · rw [ih hnone, Nat.add_assoc, Nat.add_comm 1 tries]

/-- What follows a rejection loop fails only where no candidate was found. -/
theorem Rejects.eq_of_fail {α : Type} {loop : Nat → Cmd (Option α)} {w : Nat → Work} {accepts : Nat → Bool}
    {found : Nat → α} (h : Rejects loop w accepts found) {k : Ctx} {B O : Nat → Prop} {f : Option α → Cmd Reply}
    (hnone : f none = failWith .retry) (hsome : ∀ q, Keeps k B O Succeeded (f (some q))) {tries : Nat} {e : Err}
    {v : W64} {w' : Work} (hfail : andThen (loop tries) f (w 0) = .ok (.fail e v) w') : v = 0#64 ∧ w' = w tries := by
  obtain ⟨q, w₁, hloop, hrest⟩ := andThen_ok_inv hfail
  cases q with
  | none =>
    rw [hnone] at hrest
    cases hrest
    exact ⟨rfl, by rw [h.eq_of_none hloop, Nat.zero_add]⟩
  | some q =>
    have hkept := hsome q w₁
    rw [hrest] at hkept
    exact absurd hkept.2 Bool.false_ne_true

/-- The tests of the operands do not end in `ERR_RETRY`. -/
theorem tests_passed_of_retry {p q : Bool} {m : Cmd Reply} {w w' : Work} {v : W64}
    (h : (if !p then failWith .numeric else if q then failWith .numeric else m) w = .ok (.fail .retry v) w') :
    m w = .ok (.fail .retry v) w' := by
  cases p with
  | false => cases h
  | true =>
    cases q with
    | true => cases h
    | false => exact h

section
variable {c : Chan} {s t : State} {v : W64} {w : Work}

theorem pointInSphereBody_retry (h : pointInSphereBody (s.ctx c) (s.work c) = .ok (.fail .retry v) w) :
    v = 0#64 ∧ w = (s.advanceBy c (3 * s.cfg.retryCap)).work c :=
  (rejects_ballLoop s c).eq_of_fail (k := s.ctx c) (B := nowhere) (O := nowhere) rfl
    (fun _ => keeps_andThen (keeps_drawF _ _ _) fun _ _ => keeps_okPoint3 _ _ _ _ _ _) (tests_passed_of_retry h)

theorem pointOnSphereBody_retry (h : pointOnSphereBody (s.ctx c) (s.work c) = .ok (.fail .retry v) w) :
    v = 0#64 ∧ w = (s.advanceBy c (2 * s.cfg.retryCap)).work c :=
  (rejects_diskLoop s c).eq_of_fail (k := s.ctx c) (B := nowhere) (O := nowhere) rfl
    (fun _ => keeps_okPoint3 _ _ _ _ _ _) (tests_passed_of_retry h)

/-- A command that reports `ERR_RETRY` after `n` draws. -/
theorem runCommand_retry {body : Ctx → Cmd Reply} {n : Nat}
    (hbody : ∀ v w, body (s.ctx c) (s.work c) = .ok (.fail .retry v) w → v = 0#64 ∧ w = (s.advanceBy c n).work c)
    (h : runCommand c body s = .next t) (hidle : (t.port c).busy = false) (herr : (t.port c).err = .retry) :
    t = (s.advanceBy c n).complete c (.fail .retry 0#64) := by
  obtain ⟨r, w, hw, rfl⟩ | ⟨w, -, rfl⟩ := runCommand_next h
  · rw [State.complete_port, Port.complete_err] at herr
    cases r with
    | done => cases herr
    | fail e v =>
      obtain rfl : e = .retry := herr
      obtain ⟨rfl, rfl⟩ := hbody v w hw
      rw [← (reaches_drawWords c n s).2]
  · simp at hidle

end

/-! ### The ends of a command -/

/-- The draws of `RETRY_CAP` candidates, for the two commands that can run out of them (44_geometry.md R264). -/
def RetryDraws (k : Cfg) (i : Instr) (n : Nat) : Prop :=
  (i = .pointInSphere i.chan ∧ n = 3 * k.retryCap) ∨ (i = .pointOnSphere i.chan ∧ n = 2 * k.retryCap)

/-- The states in which the command `i` can leave `s`. -/
inductive Ends (i : Instr) (s : State) : State → Prop
  /-- The command succeeds. -/
  | succeeded (r : Reply) (w : Work) : r.okFlag = true → Ends i s ((s.putWork i.chan w).complete i.chan r)
  /-- The command fails with one of its codes and changes nothing else. -/
  | failed (e : Err) : e ∈ failureCodes i → e ≠ .retry → Ends i s (s.complete i.chan (.fail e (sentinel i s)))
  /-- The command fails after the draws of all its candidates. -/
  | outOfCandidates (n : Nat) : RetryDraws s.cfg i n →
      Ends i s ((s.advanceBy i.chan n).complete i.chan (.fail .retry 0#64))
  /-- The command does not end. -/
  | hung (w : Work) : Ends i s ((s.putWork i.chan w).hang i.chan)

/-- A run that reported `ERR_RETRY` is one of the two sphere commands' and drew all their candidates. -/
theorem ends_of_retry {i : Instr} {s t : State} (hmem : Err.retry ∈ failureCodes i) (h : exec i s = .next t)
    (hidle : (t.port i.chan).busy = false) (herr : (t.port i.chan).err = .retry) : Ends i s t := by
  obtain hball | hdisk := sphere_of_retry hmem
  · rw [hball] at h
    rw [runCommand_retry (body := pointInSphereBody) (fun _ _ => pointInSphereBody_retry) h hidle herr]
    exact .outOfCandidates _ (.inl ⟨hball, rfl⟩)
  · rw [hdisk] at h
    rw [runCommand_retry (body := pointOnSphereBody) (fun _ _ => pointOnSphereBody_retry) h hidle herr]
    exact .outOfCandidates _ (.inr ⟨hdisk, rfl⟩)

/-- `Ends` leaves nothing out: the frame of every command with the draws of a retried one made exact. -/
theorem exec_ends {i : Instr} {s t : State} (h : exec i s = .next t) : Ends i s t := by
  obtain ⟨w, hengine⟩ | ⟨hill, hillegal⟩ | ⟨body, hrun, hframe⟩ := exec_cases i s
  · cases hengine.symm.trans h
    exact .succeeded okNone w rfl
  · cases hillegal.symm.trans h
    rw [← sentinel_of_illFormed hill s]
    exact .failed .illegal (illegal_mem_failureCodes hill) (by decide)
  · obtain ⟨e, he, hfail⟩ | hkept := hframe (s.work i.chan)
    · obtain ⟨hne, hmem⟩ := (nodup_failureCodes i).mem_erase_iff.1 he
      cases (runCommand_ok hfail).symm.trans (hrun.symm.trans h)
      rw [State.putWork_work_self]
      exact .failed e hmem hne
    · obtain ⟨r, w, hw, ht⟩ | ⟨w, -, rfl⟩ := runCommand_next (hrun.symm.trans h)
      · rw [hw] at hkept
        obtain ⟨-, hok | ⟨hmem, rfl⟩⟩ := hkept
        · exact ht ▸ .succeeded r w hok
        · exact ends_of_retry hmem h (by simp [ht]) (by simp [ht, Reply.errCode])
      · exact .hung w

theorem sentinel_of_retryDraws {i : Instr} {s : State} {n : Nat} (h : RetryDraws s.cfg i n) :
    sentinel i s = 0#64 := by
  obtain ⟨hi, -⟩ | ⟨hi, -⟩ := h
  · rw [hi]
    rfl
  · rw [hi]
    rfl

theorem retry_mem_of_retryDraws {k : Cfg} {i : Instr} {n : Nat} (h : RetryDraws k i n) :
    Err.retry ∈ failureCodes i := by
  obtain ⟨hi, -⟩ | ⟨hi, -⟩ := h
  · rw [hi, failureCodes]
    decide
  · rw [hi, failureCodes]
    decide

/-- A command that completes has given a reply, whose failure code is one of the command's. -/
theorem Ends.exists_reply {i : Instr} {s t : State} (h : Ends i s t) (hidle : (t.port i.chan).busy = false) :
    ∃ r : Reply, (t.port i.chan).ok = r.okFlag ∧ (t.port i.chan).err = r.errCode ∧
      ∀ e v, r = .fail e v → e ∈ failureCodes i := by
  cases h with
  | succeeded r w hok =>
    refine ⟨r, by simp, by simp, ?_⟩
    rintro e v rfl
    cases hok
  | failed e he =>
    refine ⟨.fail e (sentinel i s), by simp, by simp, ?_⟩
    rintro e v ⟨⟩
    exact he
  | outOfCandidates n hn =>
    refine ⟨.fail .retry 0#64, by simp, by simp, ?_⟩
    rintro e v ⟨⟩
    exact retry_mem_of_retryDraws hn
  | hung w => simp at hidle

/-! ### The outcome registers of an earlier command -/

/-- No command reads `RES`, `OK` or `ERR`, and a completion writes them all (60_exceptions.md R304). -/
theorem runCommand_setOutcome {c : Chan} {body : Ctx → Cmd Reply} {s t : State} (h : runCommand c body s = .next t)
    (hidle : (t.port c).busy = false) (res : Vector W64 4) (ok : Bool) (e : Err) :
    runCommand c body (s.setPort c { s.port c with res := res, ok := ok, err := e }) = .next t := by
  obtain ⟨r, w, hw, rfl⟩ | ⟨w, -, rfl⟩ := runCommand_next h
  · have hctx : (s.setPort c { s.port c with res := res, ok := ok, err := e }).ctx c = s.ctx c := by cases c <;> rfl
    have hwork : (s.setPort c { s.port c with res := res, ok := ok, err := e }).work c = s.work c := by
      cases c <;> rfl
    rw [runCommand_ok (by rw [hctx, hwork, hw])]
    cases c <;> rfl
  · simp at hidle

end Sys2Proof.Machine
end

section
/-! SUPPORT. The environment requests of a draw and of `SEED` on either channel (60_exceptions.md R309). -/

namespace Sys2Proof.Machine

/-! ### Seeding -/

theorem log_askTimeSeed (env : Env) : (askTimeSeed env).2.log = env.log ++ [.timeSeed (askTimeSeed env).1] := rfl

theorem log_fSeed_zero (k : Cfg) (e : Fast) (env : Env) :
    (fSeed k 0#64 e env).2.log = env.log ++ [.timeSeed (askTimeSeed env).1] := by
  rw [fSeed_eq, fSeedSource_zero, log_askTimeSeed]

theorem seedRequests_sSeed_zero (k : Cfg) (env : Env) :
    ∃ r, SeedRequests r ∧ (sSeed k 0#64 env).2.log = env.log ++ r := by
  rw [sSeed_eq, sSeedSource_zero]
  obtain hanswered | hfailed := log_sEntropySeed (env := env) rfl
  · exact ⟨_, .inl ⟨_, _, rfl⟩, hanswered⟩
  · exact ⟨_, .inr ⟨_, _, rfl⟩, hfailed⟩

theorem bytes_sSeed (k : Cfg) (v : W64) (env : Env) : (sSeed k v env).1.bytes = 0#64 := by
  rw [sSeed_eq]
  rfl

/-- A seed from the argument asks nothing of the environment. -/
theorem seedEngine_env_of_ne_zero {v : W64} (h : v ≠ 0#64) (k : Cfg) (e : Engine) (env : Env) :
    (seedEngine k v e env).2 = env := by
  cases e with
  | fast e =>
    show (fSeed k v e env).2 = env
    rw [fSeed_eq, fSeedSource_of_ne_zero h]
  | secure e =>
    show (sSeed k v env).2 = env
    rw [sSeed_eq, sSeedSource_of_ne_zero h]

theorem env_of_exec_seed {c : Chan} {s t : State} (h : exec (.seed c) s = .next t) :
    t.env c = (seedEngine s.cfg (s.argU64 c 0) (s.engine c) (s.env c)).2 := by
  cases h
  rw [State.complete_env, State.putWork_env]
  rfl

/-! ### Draws -/

theorem sReady_snd_of_seeded {k : Cfg} {e : Secure} (h : e.seeded = true) (env : Env) :
    (sReady k e env).2 = (reseedCheck k e env).2 := by
  rw [sReady_of_seeded h (Prod.eta (reseedCheck k e env)).symm]

/-- A reseed that is due asks for entropy once, whatever the answer (42_secure_engine.md R170). -/
theorem log_reseedCheck {k : Cfg} {e : Secure} (h : k.reseedThreshold ≤ e.bytes) (env : Env) :
    (reseedCheck k e env).2.log = env.log ++ [.entropy (askEntropy env).1] := by
  cases hask : askEntropy env with
  | mk answer env' =>
    have hlog : env'.log = env.log ++ [.entropy answer] := by
      obtain ⟨rfl, rfl⟩ := Prod.mk.inj hask
      rfl
    cases answer with
    | none => rw [reseedCheck_failed h hask, hlog]
    | some x => rw [reseedCheck_answered h hask, hlog]

section
variable (s : State)

theorem State.envF_advance : (s.advance .F).envF = (fReady s.cfg s.fast s.envF).2 := rfl

theorem State.envS_advance : (s.advance .S).envS = (sReady s.cfg s.secure s.envS).2 := rfl

variable {s}

theorem State.envS_advance_of_seeded (h : s.secure.seeded = true) :
    (s.advance .S).envS = (reseedCheck s.cfg s.secure s.envS).2 := by
  rw [State.envS_advance, sReady_snd_of_seeded h]

theorem State.envS_advance_of_unseeded (h : s.secure.seeded = false) : (s.advance .S).envS =
    (reseedCheck s.cfg (sSeed s.cfg 0#64 s.envS).1 (sSeed s.cfg 0#64 s.envS).2).2 := by
  rw [State.envS_advance, sReady_of_unseeded _ h, sReady_snd_of_seeded (keyed_sSeed _ _ _).seeded]

/-- The engine that lazy seeding leaves has delivered no bytes, so a reseed is due only at threshold 0
(42_secure_engine.md R169, R170). -/
theorem requests_of_unseeded_draw (h : s.secure.seeded = false) : ∃ r, SeedRequests r ∧
    (0#64 < s.cfg.reseedThreshold → (s.advance .S).envS.log = s.envS.log ++ r) ∧
    (s.cfg.reseedThreshold = 0#64 → ∃ a, (s.advance .S).envS.log = s.envS.log ++ r ++ [.entropy a]) := by
  obtain ⟨r, hr, hlog⟩ := seedRequests_sSeed_zero s.cfg s.envS
  have hbytes := bytes_sSeed s.cfg 0#64 s.envS
  rw [State.envS_advance_of_unseeded h]
  refine ⟨r, hr, ?_⟩
  rw [← hlog]
  refine ⟨fun hpos => ?_, fun hzero => ⟨_, log_reseedCheck ?_ _⟩⟩
  · rw [reseedCheck_below (by rwa [hbytes])]
  · rw [hbytes, hzero]
    exact BitVec.le_refl _

end

/-! ### Commands -/

/-- Every command but `SEED` asks only what its draws ask; `ZEROIZE` makes none. -/
theorem env_of_exec {i : Instr} {s t : State} (h : exec i s = .next t) (hseed : ∀ c, i ≠ .seed c) :
    ∃ n, t.env i.chan = (s.advanceBy i.chan n).env i.chan := by
  by_cases hzeroize : i = .zeroize .S
  · subst hzeroize
    cases h
    exact ⟨0, rfl⟩
  · obtain ⟨o, w, rfl, hmoved⟩ := exec_moved hseed hzeroize h
    obtain ⟨n, -, henv⟩ := hmoved.drewWords o
    exact ⟨n, henv⟩

end Sys2Proof.Machine
end

section
/-! PROOF. Failures and environment requests (60_exceptions.md). -/

open Sys2Proof Sys2Proof.Machine

/-- Settles O11: a step is its host action, and of those only a command could fault, which its frame excludes. -/
theorem everyStepGoesOn : Obligations.EveryStepGoesOn := by
  intro s hwf
  cases hhost : s.host with
  | nil => exact ⟨s, step_nil hhost⟩
  | cons a rest =>
    obtain ⟨t, ht⟩ := hostAct_goes_on (s := { s with host := rest }) hwf a
    exact ⟨t, (step_cons hhost).trans ht⟩

/-- Settles O13, by the ways a command can end. -/
theorem failureCodesOfEachCommand : Obligations.FailureCodesOfEachCommand := by
  intro i s t h hidle
  obtain ⟨r, hok, herr, hcodes⟩ := (exec_ends h).exists_reply hidle
  rw [hok, herr]
  cases r with
  | done => exact ⟨nofun, iff_of_true rfl rfl⟩
  | fail e v =>
    have hmem := hcodes e v rfl
    exact ⟨fun _ => hmem, iff_of_false Bool.false_ne_true fun hnone => none_notMem_failureCodes i (hnone ▸ hmem)⟩

/-- Settles O12: the ends of a command that are failures, and the run of its pseudocode, which sees no outcome
register. -/
theorem failureLeavesEverythingElse : Obligations.FailureLeavesEverythingElse := by
  refine ⟨fun i s t h hidle hfail => ?_, fun i s t res ok e h hidle => ?_⟩
  · cases exec_ends h with
    | succeeded r w hok => simp [hok] at hfail
    | failed e he hretry =>
      have hnone : e ≠ .none := fun heq => none_notMem_failureCodes i (heq ▸ he)
      rw [State.complete_port]
      exact ⟨rfl, hnone, fun _ => onlyReports_complete i.chan e (sentinel i s) s, fun h => absurd h hretry⟩
    | outOfCandidates n hn =>
      have hdrew := reaches_drawWords i.chan n s
      have hwords : DrewWords i.chan n s (s.advanceBy i.chan n) := ⟨rfl, rfl⟩
      rw [sentinel_of_retryDraws hn, State.complete_port]
      refine ⟨rfl, Err.noConfusion, fun h => absurd rfl h, fun _ => ⟨hdrew.onlyChannel.complete _,
        hdrew.inputsKept.complete _, BufKept.complete _ fun a => s.advanceBy_cell i.chan n a, fun a => ?_, ?_⟩⟩
      · rw [State.outByte_complete, State.advanceBy_outByte]
      · obtain ⟨hi, rfl⟩ | ⟨hi, rfl⟩ := hn
        · exact .inl ⟨hi, hwords.complete _⟩
        · exact .inr ⟨hi, hwords.complete _⟩
    | hung w => simp at hidle
  · rw [exec_eq_runCommand] at h ⊢
    exact runCommand_setOutcome h hidle res ok e

/-- Settles O18: the requests of a draw are those of lazy seeding and of the reseed check, those of `SEED` are its
seed's, and every other command's are its draws'. -/
theorem environmentRequests : Obligations.EnvironmentRequests := by
  refine ⟨fun s => ⟨fun h => ?_, fun h => ?_, fun h hbelow => ?_, fun h hdue => ?_,
    requests_of_unseeded_draw⟩, fun c s t h => ?_, fun i s t => env_of_exec⟩
  · rw [State.envF_advance, fReady_of_seeded _ h]
  · rw [State.envF_advance, fReady_of_unseeded _ h]
    exact ⟨_, log_fSeed_zero _ _ _⟩
  · rw [State.envS_advance_of_seeded h, reseedCheck_below hbelow]
  · rw [State.envS_advance_of_seeded h]
    exact ⟨_, log_reseedCheck hdue _⟩
  · rw [env_of_exec_seed h]
    refine ⟨fun hv => seedEngine_env_of_ne_zero hv _ _ _, fun hv hc => ?_, fun hv hc => ?_⟩
    · subst hc
      rw [hv]
      exact ⟨_, log_fSeed_zero s.cfg s.fast s.envF⟩
    · subst hc
      rw [hv]
      exact seedRequests_sSeed_zero s.cfg s.envS
end

section
/-! SUPPORT. A busy channel: what the host's accesses to it do, and what the host's other actions leave of it
(70_reset_and_hazards.md R330, R333, R334). -/

namespace Sys2Proof.Machine

/-! The host's list of actions is outside both channels. -/

@[simp] theorem State.port_withHost (s : State) (rest : List HostAction) (c : Chan) :
    State.port { s with host := rest } c = s.port c := by cases c <;> rfl

@[simp] theorem State.engine_withHost (s : State) (rest : List HostAction) (c : Chan) :
    State.engine { s with host := rest } c = s.engine c := by cases c <;> rfl

@[simp] theorem State.env_withHost (s : State) (rest : List HostAction) (c : Chan) :
    State.env { s with host := rest } c = s.env c := by cases c <;> rfl

/-! ### Accesses to a busy channel -/

section
variable {c : Chan} {s : State} (h : (s.port c).busy = true)
include h

theorem hostWrite_of_busy (loc : Loc) (v : W64) : hostWrite c loc v s = .next s := by
  rw [hostWrite, if_pos h]

theorem hostRead_of_busy {loc : Loc} (hloc : loc ≠ .reg 0x01) : hostRead c loc s = 0#64 := by
  simp [hostRead, regStatus, hloc, h]

/-- `OK` and `ERR` are whatever the channel shows (log 8). -/
theorem exists_status_of_busy : ∃ err ok, s.status c = packStatus (s.engine c).seededFlag err ok true :=
  ⟨_, _, by rw [State.status, if_pos h]⟩

theorem hostRead_status_fields_of_busy :
    (hostRead c (.reg 0x01) s).getLsbD 0 = true ∧ (hostRead c (.reg 0x01) s).getLsbD 8 = (s.engine c).seededFlag ∧
    (hostRead c (.reg 0x01) s).extractLsb' 2 2 = 0#2 ∧ (hostRead c (.reg 0x01) s).extractLsb' 9 55 = 0#55 := by
  obtain ⟨err, ok, hstatus⟩ := exists_status_of_busy h
  rw [hostRead_status, hstatus]
  exact ⟨getLsbD_packStatus _ _ _ _ 0, getLsbD_packStatus _ _ _ _ 8, zeros_packStatus _ _ _ _⟩

end

/-! ### What a host action leaves of a channel -/

/-- Channel `c`'s registers, memories, engine and environment did not change. -/
def ChannelKept (c : Chan) (s t : State) : Prop :=
  t.port c = s.port c ∧ t.engine c = s.engine c ∧ t.env c = s.env c

theorem ChannelKept.refl (c : Chan) (s : State) : ChannelKept c s s := ⟨rfl, rfl, rfl⟩

theorem OnlyChannel.refl (c : Chan) (s : State) : OnlyChannel c s s := ⟨rfl, rfl, rfl, rfl, rfl, rfl⟩

/-- What stays in one channel leaves the other as it was. -/
theorem OnlyChannel.channelKept_other {c : Chan} {s t : State} (h : OnlyChannel c s t) : ChannelKept c.other s t := by
  obtain ⟨-, -, -, hport, hengine, henv⟩ := h
  exact ⟨hport, hengine, henv⟩

theorem onlyChannel_setPort (c : Chan) (p : Port) (s : State) : OnlyChannel c s (s.setPort c p) := by
  simp [OnlyChannel]

theorem chan_of_decode {c : Chan} {w : W32} {i : Instr} (h : decode c w = .ok i) : i.chan = c := by
  obtain ⟨-, hencode⟩ := decode_eq_ok_iff_encode.1 h
  exact (encode_eq_iff.1 hencode).1

section
variable {c : Chan} {s t : State}

theorem onlyChannel_startCommand {w : W32} (ht : startCommand c w s = .next t) : OnlyChannel c s t := by
  unfold startCommand at ht
  split at ht
  case h_1 i hi =>
    exact chan_of_decode hi ▸ (frameOutsideChannelAndInputs i s t ht).1
  case h_2 =>
    cases ht
    exact (OnlyChannel.refl c s).complete _

/-- A host write stays in its channel, also where it starts a command (10_state.md R40). -/
theorem onlyChannel_hostWrite {loc : Loc} {v : W64} (ht : hostWrite c loc v s = .next t) : OnlyChannel c s t := by
  by_cases hbusy : (s.port c).busy = true
  · cases (hostWrite_of_busy hbusy loc v).symm.trans ht
    exact OnlyChannel.refl c s
  rw [hostWrite, if_neg hbusy] at ht
  split at ht
  · exact onlyChannel_startCommand ht
  · cases ht
    exact onlyChannel_setPort c _ s

/-- 70_reset_and_hazards.md R334: a write to the busy channel is dropped, one to the other channel stays there, and a
read changes no channel. -/
theorem channelKept_of_hostAct (hbusy : (s.port c).busy = true) {a : HostAction} (ha : a ≠ .reset)
    (ht : hostAct a s = .next t) : ChannelKept c s t := by
  cases a with
  | write d loc v =>
    obtain rfl | rfl := Chan.eq_or_eq_other d c
    · cases (hostWrite_of_busy hbusy loc v).symm.trans ht
      exact ChannelKept.refl _ _
    · exact (onlyChannel_hostWrite ht).channelKept_other
  | read d loc =>
    cases ht
    cases c <;> exact ⟨rfl, rfl, rfl⟩
  | reset => exact absurd rfl ha

theorem channelKept_of_step (hbusy : (s.port c).busy = true) (hreset : ∀ rest, s.host ≠ .reset :: rest)
    (ht : step s = .next t) : ChannelKept c s t := by
  cases hhost : s.host with
  | nil =>
    cases (step_nil hhost).symm.trans ht
    exact ChannelKept.refl c s
  | cons a rest =>
    have ha : a ≠ .reset := fun h => hreset rest (h ▸ hhost)
    have hkept := channelKept_of_hostAct (by simpa using hbusy) ha ((step_cons hhost).symm.trans ht)
    simpa [ChannelKept] using hkept

/-- 70_reset_and_hazards.md R330: reset ends a command that does not end by itself. -/
theorem idle_of_step_reset (hhost : ∃ rest, s.host = .reset :: rest) (ht : step s = .next t) :
    (t.port c).busy = false := by
  obtain ⟨rest, hrest⟩ := hhost
  cases (step_cons hrest).symm.trans ht
  rw [resetBlock_port]
  rfl

end

end Sys2Proof.Machine
end

section
/-! PROOF. Reset and busy channels (70_reset_and_hazards.md). -/

open Sys2Proof Sys2Proof.Machine

/-- Settles O60, by the host's next action: a write to either channel, a read, or reset. -/
theorem busyChannelStaysUntilReset : Obligations.BusyChannelStaysUntilReset :=
  fun _ _ _ hbusy ht => ⟨fun hreset => channelKept_of_step hbusy hreset ht, fun hreset => idle_of_step_reset hreset ht⟩

/-- Settles O59: a write is dropped before its register is looked at, and of the reads only that of `STATUS` is
answered. -/
theorem busyHostAccessRefused : Obligations.BusyHostAccessRefused := by
  intro s c loc rest hbusy
  have hbusy' : (State.port { s with host := rest } c).busy = true := by rwa [State.port_withHost]
  refine ⟨fun v hhost => ?_, fun hhost => ⟨_, step_cons hhost, hostRead_of_busy hbusy', ?_⟩⟩
  · exact (step_cons hhost).trans (hostWrite_of_busy hbusy' loc v)
  · rintro rfl
    rw [← State.engine_withHost s rest c]
    exact hostRead_status_fields_of_busy hbusy'
end
